-- ==== Sys2Proof/Word.lean ====
section
/-! DEFINITION. The machine word and its plainest readings (spec/00_scope.md R10). -/

namespace Sys2Proof

/-- A `Word` is a 32-bit pattern (R10). Its unsigned reading `u(v)` is `BitVec.toNat`, its
two's-complement signed reading `s(v)` is `BitVec.toInt`. -/
abbrev Word := BitVec 32

/-- `wrap32(n)`: the `Word` whose unsigned reading is `n mod 2^32`, for any integer `n` (R10). -/
abbrev wrap32 (n : Int) : Word := BitVec.ofInt 32 n

/-- A 5-bit register field that names a scalar register `x[0]` to `x[31]` (R8, R86). -/
abbrev XReg := BitVec 5

/-- A 5-bit register field that names a vector register `v[0]` to `v[31]` (R8, R86). -/
abbrev VReg := BitVec 5

/-- A 16-bit immediate or offset field as it stands in the instruction word (R8, R87). -/
abbrev Imm16 := BitVec 16

end Sys2Proof
end

