-- ==== Sys2Proof/Syntax.lean ====
section
/-! DEFINITION. The 69 instructions of the iris ISA, one constructor for each row of spec/opcode_table.json
(spec/30_encoding.md R96). Every field has exactly the width of its field in the instruction word, so every
term is encodable (spec/40_decoder.md R118: no register number or immediate value is excluded). -/

namespace Sys2Proof

/-- An instruction with its operand fields, named as in R91 and R100. A register field is its 5-bit number;
an immediate, mask or offset is its 16-bit field, sign-extended where the instruction uses it (R87). -/
inductive Instr where
  /-- `HALT` (R253). -/
  | halt
  /-- `XOR rd, rs` (R161). -/
  | xor (rd rs : XReg)
  /-- `NEG rd` (R162). -/
  | neg (rd : XReg)
  /-- `ADD rd, rs` (R163). -/
  | add (rd rs : XReg)
  /-- `SUB rd, rs` (R164). -/
  | sub (rd rs : XReg)
  /-- `MUL rd, rs` (R165). -/
  | mul (rd rs : XReg)
  /-- `DIV rd, rs` (R166). -/
  | div (rd rs : XReg)
  /-- `RR rd, rs` (R167). -/
  | rr (rd rs : XReg)
  /-- `RL rd, rs` (R168). -/
  | rl (rd rs : XReg)
  /-- `FADD rd, rs` (R169). -/
  | fadd (rd rs : XReg)
  /-- `FSUB rd, rs` (R170). -/
  | fsub (rd rs : XReg)
  /-- `FMUL rd, rs` (R171). -/
  | fmul (rd rs : XReg)
  /-- `FDIV rd, rs` (R172). -/
  | fdiv (rd rs : XReg)
  /-- `EXCH rd, rs` (R261). -/
  | exch (rd rs : XReg)
  /-- `XORI rd, imm` (R174). -/
  | xori (rd : XReg) (imm : Imm16)
  /-- `ADDI rd, imm` (R175). -/
  | addi (rd : XReg) (imm : Imm16)
  /-- `SUBI rd, imm` (R176). -/
  | subi (rd : XReg) (imm : Imm16)
  /-- `MULI rd, imm` (R177). -/
  | muli (rd : XReg) (imm : Imm16)
  /-- `DIVI rd, imm` (R178). -/
  | divi (rd : XReg) (imm : Imm16)
  /-- `RRI rd, imm` (R179). -/
  | rri (rd : XReg) (imm : Imm16)
  /-- `RLI rd, imm` (R180). -/
  | rli (rd : XReg) (imm : Imm16)
  /-- `FADDI rd, imm` (R181). -/
  | faddi (rd : XReg) (imm : Imm16)
  /-- `FSUBI rd, imm` (R182). -/
  | fsubi (rd : XReg) (imm : Imm16)
  /-- `FMULI rd, imm` (R183). -/
  | fmuli (rd : XReg) (imm : Imm16)
  /-- `FDIVI rd, imm` (R184). -/
  | fdivi (rd : XReg) (imm : Imm16)
  /-- `MEXCH rd, rs, off` (R263). -/
  | mexch (rd rs : XReg) (off : Imm16)
  /-- `DEL rd` (R271). -/
  | del (rd : XReg)
  /-- `MDEL rs, off` (R272). -/
  | mdel (rs : XReg) (off : Imm16)
  /-- `CSWAP ra, rb, rc` (R185). -/
  | cswap (ra rb rc : XReg)
  /-- `CSWAPI ra, rb, imm` (R186). -/
  | cswapi (ra rb : XReg) (imm : Imm16)
  /-- `BLT ra, rb, off` (R243). -/
  | blt (ra rb : XReg) (off : Imm16)
  /-- `BLTU ra, rb, off` (R244). -/
  | bltu (ra rb : XReg) (off : Imm16)
  /-- `BGE ra, rb, off` (R245). -/
  | bge (ra rb : XReg) (off : Imm16)
  /-- `BGEU ra, rb, off` (R246). -/
  | bgeu (ra rb : XReg) (off : Imm16)
  /-- `BEQ ra, rb, off` (R247). -/
  | beq (ra rb : XReg) (off : Imm16)
  /-- `BNE ra, rb, off` (R248). -/
  | bne (ra rb : XReg) (off : Imm16)
  /-- `BEVN rd, off` (R249). -/
  | bevn (rd : XReg) (off : Imm16)
  /-- `BODD rd, off` (R250). -/
  | bodd (rd : XReg) (off : Imm16)
  /-- `SWB rd` (R251). -/
  | swb (rd : XReg)
  /-- `RSWB rd` (R252). -/
  | rswb (rd : XReg)
  /-- `VXOR vd, vs` (R204). -/
  | vxor (vd vs : VReg)
  /-- `VNEG vd` (R205). -/
  | vneg (vd : VReg)
  /-- `VADD vd, vs` (R206). -/
  | vadd (vd vs : VReg)
  /-- `VSUB vd, vs` (R207). -/
  | vsub (vd vs : VReg)
  /-- `VMUL vd, vs` (R208). -/
  | vmul (vd vs : VReg)
  /-- `VDIV vd, vs` (R209). -/
  | vdiv (vd vs : VReg)
  /-- `VRR vd, vs` (R210). -/
  | vrr (vd vs : VReg)
  /-- `VRL vd, vs` (R211). -/
  | vrl (vd vs : VReg)
  /-- `VFADD vd, vs` (R212). -/
  | vfadd (vd vs : VReg)
  /-- `VFSUB vd, vs` (R213). -/
  | vfsub (vd vs : VReg)
  /-- `VFMUL vd, vs` (R214). -/
  | vfmul (vd vs : VReg)
  /-- `VFDIV vd, vs` (R215). -/
  | vfdiv (vd vs : VReg)
  /-- `VEXCH vd, vs` (R262). -/
  | vexch (vd vs : VReg)
  /-- `VXORI vd, imm` (R216). -/
  | vxori (vd : VReg) (imm : Imm16)
  /-- `VADDI vd, imm` (R217). -/
  | vaddi (vd : VReg) (imm : Imm16)
  /-- `VSUBI vd, imm` (R218). -/
  | vsubi (vd : VReg) (imm : Imm16)
  /-- `VMULI vd, imm` (R219). -/
  | vmuli (vd : VReg) (imm : Imm16)
  /-- `VDIVI vd, imm` (R220). -/
  | vdivi (vd : VReg) (imm : Imm16)
  /-- `VRRI vd, imm` (R221). -/
  | vrri (vd : VReg) (imm : Imm16)
  /-- `VRLI vd, imm` (R222). -/
  | vrli (vd : VReg) (imm : Imm16)
  /-- `VFADDI vd, imm` (R223). -/
  | vfaddi (vd : VReg) (imm : Imm16)
  /-- `VFSUBI vd, imm` (R224). -/
  | vfsubi (vd : VReg) (imm : Imm16)
  /-- `VFMULI vd, imm` (R225). -/
  | vfmuli (vd : VReg) (imm : Imm16)
  /-- `VFDIVI vd, imm` (R226). -/
  | vfdivi (vd : VReg) (imm : Imm16)
  /-- `VMEXCH vd, rs, off` (R264). -/
  | vmexch (vd : VReg) (rs : XReg) (off : Imm16)
  /-- `VDEL vd` (R273). -/
  | vdel (vd : VReg)
  /-- `VMDEL rs, off` (R274). -/
  | vmdel (rs : XReg) (off : Imm16)
  /-- `VCSWAP va, vb, vc` (R227). -/
  | vcswap (va vb vc : VReg)
  /-- `VCSWAPI va, vb, imm` (R228). -/
  | vcswapi (va vb : VReg) (imm : Imm16)
  deriving DecidableEq, Repr

end Sys2Proof
end

