-- ==== Sys2Proof/WellFormed.lean ====
section
/-! DEFINITION. Which 32-bit words are instructions: the complete list of illegal encodings of
spec/30_encoding.md R93, clause by clause, written from that list alone (the decoder is written from
spec/40_decoder.md R119 and shares no definition with this file).

An `Instr` needs no check of its own: each of its fields has exactly the width of its field in the word
and every value of every field is legal (R86, R118). What can be ill formed is a word. -/

namespace Sys2Proof

/-- `v[hi:lo]`, the bit field of `v` from bit `hi` down to bit `lo`, as an unsigned integer (R9). -/
def bitField (w : Word) (hi lo : Nat) : Nat := (w.toNat >>> lo) % 2 ^ (hi - lo + 1)

/-- R93 (a): an unassigned opcode. -/
def unassignedOpcode (w : Word) : Bool :=
  let op := bitField w 5 0
  (decide (0x09 ≤ op) && decide (op ≤ 0x0F)) || (decide (0x1A ≤ op) && decide (op ≤ 0x20)) ||
    decide (0x29 ≤ op)

/-- The opcode of `w`, with its vector bit cleared, is `base`; `base` is 0x01 to 0x08, for which the
vector form `base | 0x20` exists (R90). -/
def opcodeOrVector (w : Word) (base : Nat) : Bool :=
  decide (bitField w 5 0 = base) || decide (bitField w 5 0 = base + 0x20)

/-- R93 (b): `SPECIAL` or `VSPECIAL` with an unassigned function code. -/
def unassignedSpecial (w : Word) : Bool := opcodeOrVector w 0x01 && decide (0x000B < bitField w 21 6)

/-- R93 (c): `IMM` or `VIMM` with an unassigned function code, or with negate. -/
def unassignedImm (w : Word) : Bool :=
  opcodeOrVector w 0x03 && (decide (0x0B < bitField w 10 6) || decide (bitField w 10 6 = 0x01))

/-- R93 (d): `NEG` or `VNEG` whose second register field is not zero. -/
def reservedNeg (w : Word) : Bool :=
  opcodeOrVector w 0x01 && decide (bitField w 21 6 = 0x0001) && decide (bitField w 26 22 ≠ 0)

/-- R93 (e): opcode `HALT` with any other bit set. -/
def reservedHalt (w : Word) : Bool := decide (bitField w 5 0 = 0x00) && decide (bitField w 31 6 ≠ 0)

/-- R93 (f): `EXCH` or `VEXCH` with a non-zero 16-bit field. -/
def reservedExch (w : Word) : Bool := opcodeOrVector w 0x02 && decide (bitField w 21 6 ≠ 0)

/-- R93 (g): `DEL`, `VDEL`, `SWB` or `RSWB` with anything set between the register and the opcode. -/
def reservedOneReg (w : Word) : Bool :=
  (opcodeOrVector w 0x05 || decide (bitField w 5 0 = 0x18) || decide (bitField w 5 0 = 0x19)) &&
    decide (bitField w 26 6 ≠ 0)

/-- R93 (h): `MDEL` or `VMDEL` with a non-zero first register field. -/
def reservedMdel (w : Word) : Bool := opcodeOrVector w 0x06 && decide (bitField w 31 27 ≠ 0)

/-- R93 (i): `CSWAP` or `VCSWAP` with a non-zero 11-bit function field. -/
def reservedCswap (w : Word) : Bool := opcodeOrVector w 0x07 && decide (bitField w 16 6 ≠ 0)

/-- R93 (j): `BEVN` or `BODD` with a non-zero 5-bit function field. -/
def reservedParity (w : Word) : Bool :=
  (decide (bitField w 5 0 = 0x16) || decide (bitField w 5 0 = 0x17)) && decide (bitField w 10 6 ≠ 0)

/-- The word is in the illegal set of R93; every other word is a legal instruction. -/
def illegalWord (w : Word) : Bool :=
  unassignedOpcode w || unassignedSpecial w || unassignedImm w || reservedNeg w || reservedHalt w ||
    reservedExch w || reservedOneReg w || reservedMdel w || reservedCswap w || reservedParity w

/-- The word is a legal instruction word. -/
def wellFormedWord (w : Word) : Bool := !illegalWord w

end Sys2Proof
end

