-- ==== Sys2Proof/Decode.lean ====
section
/-! DEFINITION. The Instruction Decoder (spec/40_decoder.md) and the encoder (spec/30_encoding.md R97), both
written from the layouts of R82 to R85 and the numbering of R88 and R89. -/

namespace Sys2Proof

/-! ### Fields of the instruction word (R82 to R85, R114) -/

/-- `w[5:0]`, the opcode (R80). -/
def fieldOpcode (w : Word) : BitVec 6 := w.extractLsb' 0 6

/-- `w[31:27]`: `rd` of the R and I layouts, `ra` of R3 and B. -/
def fieldA (w : Word) : BitVec 5 := w.extractLsb' 27 5

/-- `w[26:22]`: `rs` of R, `rb` of R3 and B. -/
def fieldB (w : Word) : BitVec 5 := w.extractLsb' 22 5

/-- `w[21:17]`: `rc` of R3. -/
def fieldC (w : Word) : BitVec 5 := w.extractLsb' 17 5

/-- `w[21:6]`: `f16` of R, `imm16` of B. -/
def fieldF16 (w : Word) : BitVec 16 := w.extractLsb' 6 16

/-- `w[26:11]`: `imm16` of I. -/
def fieldImmI (w : Word) : BitVec 16 := w.extractLsb' 11 16

/-- `w[10:6]`: `func5` of I. -/
def fieldFunc5 (w : Word) : BitVec 5 := w.extractLsb' 6 5

/-- `w[16:6]`: `func11` of R3. -/
def fieldFunc11 (w : Word) : BitVec 11 := w.extractLsb' 6 11

/-- `sext_32(v)` of a 16-bit field (R11, R87). -/
def sext32 (v : BitVec 16) : Word := v.signExtend 32

/-! ### The two stages (R113) -/

/-- The twelve functions of the Function Library (R89). -/
inductive Fn where
  | xor | neg | add | sub | mul | div | rr | rl | fadd | fsub | fmul | fdiv
  deriving DecidableEq, Repr

/-- The 27 assigned opcodes (R88, R96). -/
inductive Opcode where
  | halt | special | exch | imm | mexch | del | mdel | cswap | cswapi
  | blt | bltu | bge | bgeu | beq | bne | bevn | bodd | swb | rswb
  | vspecial | vexch | vimm | vmexch | vdel | vmdel | vcswap | vcswapi
  deriving DecidableEq, Repr

/-- Why a word is `ILLEGAL` (R93): raised to the program as the one error `IllegalInstruction`. -/
inductive Illegal where
  /-- R93 (a). -/
  | unassignedOpcode
  /-- R93 (b) and (c). -/
  | unassignedFunction
  /-- R93 (d) to (j), R92. -/
  | reservedField
  deriving DecidableEq, Repr

/-- The opcode map of R88; `none` for the 37 unassigned opcodes. -/
def decodeOpcode (op : BitVec 6) : Option Opcode :=
  match op.toNat with
  | 0x00 => some .halt
  | 0x01 => some .special
  | 0x02 => some .exch
  | 0x03 => some .imm
  | 0x04 => some .mexch
  | 0x05 => some .del
  | 0x06 => some .mdel
  | 0x07 => some .cswap
  | 0x08 => some .cswapi
  | 0x10 => some .blt
  | 0x11 => some .bltu
  | 0x12 => some .bge
  | 0x13 => some .bgeu
  | 0x14 => some .beq
  | 0x15 => some .bne
  | 0x16 => some .bevn
  | 0x17 => some .bodd
  | 0x18 => some .swb
  | 0x19 => some .rswb
  | 0x21 => some .vspecial
  | 0x22 => some .vexch
  | 0x23 => some .vimm
  | 0x24 => some .vmexch
  | 0x25 => some .vdel
  | 0x26 => some .vmdel
  | 0x27 => some .vcswap
  | 0x28 => some .vcswapi
  | _ => none

/-- `FN(c)`: the function of a function code (R89, R119); `none` for a code that is not listed. -/
def decodeFunction (c : BitVec 16) : Option Fn :=
  match c.toNat with
  | 0x00 => some .xor
  | 0x01 => some .neg
  | 0x02 => some .add
  | 0x03 => some .sub
  | 0x04 => some .mul
  | 0x05 => some .div
  | 0x06 => some .rr
  | 0x07 => some .rl
  | 0x08 => some .fadd
  | 0x09 => some .fsub
  | 0x0A => some .fmul
  | 0x0B => some .fdiv
  | _ => none

/-- The instruction when its reserved field is zero, else `ILLEGAL` (R92). -/
def whenZero {n : Nat} (reserved : BitVec n) (i : Instr) : Except Illegal Instr :=
  if reserved = 0 then .ok i else .error .reservedField

/-- The column `SPECIAL` of R89; `NEG` needs its `rs` field zero (R93 (d)). -/
def specialInstr (f : Fn) (rd rs : XReg) : Except Illegal Instr :=
  match f with
  | .xor => .ok (.xor rd rs)
  | .neg => whenZero rs (.neg rd)
  | .add => .ok (.add rd rs)
  | .sub => .ok (.sub rd rs)
  | .mul => .ok (.mul rd rs)
  | .div => .ok (.div rd rs)
  | .rr => .ok (.rr rd rs)
  | .rl => .ok (.rl rd rs)
  | .fadd => .ok (.fadd rd rs)
  | .fsub => .ok (.fsub rd rs)
  | .fmul => .ok (.fmul rd rs)
  | .fdiv => .ok (.fdiv rd rs)

/-- The column `IMM` of R89; negate has no immediate form (R93 (c)). -/
def immInstr (f : Fn) (rd : XReg) (imm : Imm16) : Except Illegal Instr :=
  match f with
  | .xor => .ok (.xori rd imm)
  | .neg => .error .unassignedFunction
  | .add => .ok (.addi rd imm)
  | .sub => .ok (.subi rd imm)
  | .mul => .ok (.muli rd imm)
  | .div => .ok (.divi rd imm)
  | .rr => .ok (.rri rd imm)
  | .rl => .ok (.rli rd imm)
  | .fadd => .ok (.faddi rd imm)
  | .fsub => .ok (.fsubi rd imm)
  | .fmul => .ok (.fmuli rd imm)
  | .fdiv => .ok (.fdivi rd imm)

/-- The column `VSPECIAL` of R89. -/
def vspecialInstr (f : Fn) (vd vs : VReg) : Except Illegal Instr :=
  match f with
  | .xor => .ok (.vxor vd vs)
  | .neg => whenZero vs (.vneg vd)
  | .add => .ok (.vadd vd vs)
  | .sub => .ok (.vsub vd vs)
  | .mul => .ok (.vmul vd vs)
  | .div => .ok (.vdiv vd vs)
  | .rr => .ok (.vrr vd vs)
  | .rl => .ok (.vrl vd vs)
  | .fadd => .ok (.vfadd vd vs)
  | .fsub => .ok (.vfsub vd vs)
  | .fmul => .ok (.vfmul vd vs)
  | .fdiv => .ok (.vfdiv vd vs)

/-- The column `VIMM` of R89. -/
def vimmInstr (f : Fn) (vd : VReg) (imm : Imm16) : Except Illegal Instr :=
  match f with
  | .xor => .ok (.vxori vd imm)
  | .neg => .error .unassignedFunction
  | .add => .ok (.vaddi vd imm)
  | .sub => .ok (.vsubi vd imm)
  | .mul => .ok (.vmuli vd imm)
  | .div => .ok (.vdivi vd imm)
  | .rr => .ok (.vrri vd imm)
  | .rl => .ok (.vrli vd imm)
  | .fadd => .ok (.vfaddi vd imm)
  | .fsub => .ok (.vfsubi vd imm)
  | .fmul => .ok (.vfmuli vd imm)
  | .fdiv => .ok (.vfdivi vd imm)

/-- Stage two for a fall-through opcode: the function field, once it names a function, selects the
instruction (R113). -/
def withFunction (code : BitVec 16) (k : Fn → Except Illegal Instr) : Except Illegal Instr :=
  match decodeFunction code with
  | some f => k f
  | none => .error .unassignedFunction

/-- `MDEL` and `VMDEL` need `w[31:27] = 0`; `CSWAP` and `VCSWAP` `w[16:6] = 0`; and so on (R91, R119). -/
def decodeClass (opc : Opcode) (w : Word) : Except Illegal Instr :=
  match opc with
  | .halt => whenZero (w.extractLsb' 6 26) .halt
  | .special => withFunction (fieldF16 w) fun f => specialInstr f (fieldA w) (fieldB w)
  | .exch => whenZero (fieldF16 w) (.exch (fieldA w) (fieldB w))
  | .imm => withFunction ((fieldFunc5 w).zeroExtend 16) fun f => immInstr f (fieldA w) (fieldImmI w)
  | .mexch => .ok (.mexch (fieldA w) (fieldB w) (fieldF16 w))
  | .del => whenZero (w.extractLsb' 6 21) (.del (fieldA w))
  | .mdel => whenZero (fieldA w) (.mdel (fieldB w) (fieldF16 w))
  | .cswap => whenZero (fieldFunc11 w) (.cswap (fieldA w) (fieldB w) (fieldC w))
  | .cswapi => .ok (.cswapi (fieldA w) (fieldB w) (fieldF16 w))
  | .blt => .ok (.blt (fieldA w) (fieldB w) (fieldF16 w))
  | .bltu => .ok (.bltu (fieldA w) (fieldB w) (fieldF16 w))
  | .bge => .ok (.bge (fieldA w) (fieldB w) (fieldF16 w))
  | .bgeu => .ok (.bgeu (fieldA w) (fieldB w) (fieldF16 w))
  | .beq => .ok (.beq (fieldA w) (fieldB w) (fieldF16 w))
  | .bne => .ok (.bne (fieldA w) (fieldB w) (fieldF16 w))
  | .bevn => whenZero (fieldFunc5 w) (.bevn (fieldA w) (fieldImmI w))
  | .bodd => whenZero (fieldFunc5 w) (.bodd (fieldA w) (fieldImmI w))
  | .swb => whenZero (w.extractLsb' 6 21) (.swb (fieldA w))
  | .rswb => whenZero (w.extractLsb' 6 21) (.rswb (fieldA w))
  | .vspecial => withFunction (fieldF16 w) fun f => vspecialInstr f (fieldA w) (fieldB w)
  | .vexch => whenZero (fieldF16 w) (.vexch (fieldA w) (fieldB w))
  | .vimm => withFunction ((fieldFunc5 w).zeroExtend 16) fun f => vimmInstr f (fieldA w) (fieldImmI w)
  | .vmexch => .ok (.vmexch (fieldA w) (fieldB w) (fieldF16 w))
  | .vdel => whenZero (w.extractLsb' 6 21) (.vdel (fieldA w))
  | .vmdel => whenZero (fieldA w) (.vmdel (fieldB w) (fieldF16 w))
  | .vcswap => whenZero (fieldFunc11 w) (.vcswap (fieldA w) (fieldB w) (fieldC w))
  | .vcswapi => .ok (.vcswapi (fieldA w) (fieldB w) (fieldF16 w))

/-- The decoder's verdict on a word (R117, R119): the instruction with its operand fields, or why the
word is `ILLEGAL`. It is total, and it reads the opcode before any other field (R112). -/
def decode (w : Word) : Except Illegal Instr :=
  match decodeOpcode (fieldOpcode w) with
  | some opc => decodeClass opc w
  | none => .error .unassignedOpcode

/-! ### The decoder's output record (R111) -/

/-- The four layouts (R82 to R85). -/
inductive Layout where
  | R | I | R3 | B
  deriving DecidableEq, Repr

/-- The record of R111. Its component `op` carries the instruction with its operand fields, or the reason
it is `ILLEGAL`; the step uses `op` alone. -/
structure Decoded where
  layout : Layout
  opcode : BitVec 6
  funcValid : Bool
  func : BitVec 16
  immFlag : Bool
  vec : Bool
  ra : BitVec 5
  rb : BitVec 5
  rc : BitVec 5
  imm : Word
  op : Except Illegal Instr
  deriving DecidableEq, Repr

/-- Layout selection, by the opcode alone (R112). -/
def layoutOf (op : BitVec 6) : Layout :=
  if op = 0x03#6 ∨ op = 0x23#6 ∨ op = 0x16#6 ∨ op = 0x17#6 then .I
  else if op = 0x07#6 ∨ op = 0x27#6 then .R3
  else if 0x10#6 ≤ op ∧ op ≤ 0x15#6 then .B
  else .R

/-- `func` and `func_valid` together: the function field of the opcodes that use one (R114). -/
def functionField (w : Word) : Option (BitVec 16) :=
  match decodeOpcode (fieldOpcode w) with
  | some .special | some .vspecial => some (fieldF16 w)
  | some .imm | some .vimm => some ((fieldFunc5 w).zeroExtend 16)
  | some .cswap | some .vcswap => some ((fieldFunc11 w).zeroExtend 16)
  | _ => none

/-- `imm_flag` and `imm` together: the 16-bit immediate field of the opcodes that carry one (R115). -/
def immediateField (w : Word) : Option Imm16 :=
  match decodeOpcode (fieldOpcode w) with
  | some .imm | some .vimm | some .bevn | some .bodd => some (fieldImmI w)
  | some .mexch | some .vmexch | some .mdel | some .vmdel | some .cswapi | some .vcswapi
  | some .blt | some .bltu | some .bge | some .bgeu | some .beq | some .bne => some (fieldF16 w)
  | _ => none

/-- `Decode(w)` as the record of R111, component by component (R112, R114 to R117, R119). -/
def decodeRecord (w : Word) : Decoded :=
  let layout := layoutOf (fieldOpcode w)
  { layout := layout
    opcode := fieldOpcode w
    funcValid := (functionField w).isSome
    func := (functionField w).getD 0
    immFlag := (immediateField w).isSome
    vec := w.getLsbD 5
    ra := fieldA w
    rb := if layout = .I then 0 else fieldB w
    rc := if layout = .R3 then fieldC w else 0
    imm := (match immediateField w with | some v => sext32 v | none => 0)
    op := decode w }

/-! ### The encoder (R97) -/

/-- `encR(op, rd, rs, f16)` (R82, R97). -/
def encR (op : BitVec 6) (rd rs : BitVec 5) (f16 : BitVec 16) : Word :=
  (rd.zeroExtend 32 <<< 27) ||| (rs.zeroExtend 32 <<< 22) ||| (f16.zeroExtend 32 <<< 6) ||| op.zeroExtend 32

/-- `encI(op, rd, imm16, func5)` (R83, R97). -/
def encI (op : BitVec 6) (rd : BitVec 5) (imm16 : BitVec 16) (func5 : BitVec 5) : Word :=
  (rd.zeroExtend 32 <<< 27) ||| (imm16.zeroExtend 32 <<< 11) ||| (func5.zeroExtend 32 <<< 6) |||
    op.zeroExtend 32

/-- `encR3(op, ra, rb, rc, func11)` (R84, R97). -/
def encR3 (op : BitVec 6) (ra rb rc : BitVec 5) (func11 : BitVec 11) : Word :=
  (ra.zeroExtend 32 <<< 27) ||| (rb.zeroExtend 32 <<< 22) ||| (rc.zeroExtend 32 <<< 17) |||
    (func11.zeroExtend 32 <<< 6) ||| op.zeroExtend 32

/-- `encB(op, ra, rb, imm16)` (R85, R97). -/
def encB (op : BitVec 6) (ra rb : BitVec 5) (imm16 : BitVec 16) : Word :=
  (ra.zeroExtend 32 <<< 27) ||| (rb.zeroExtend 32 <<< 22) ||| (imm16.zeroExtend 32 <<< 6) |||
    op.zeroExtend 32

/-- The one word of an instruction, from the encoding each instruction's rule gives (R88, R89, R91). -/
def encode (i : Instr) : Word :=
  match i with
  | .halt => encR 0x00#6 0 0 0
  | .xor rd rs => encR 0x01#6 rd rs 0x0000#16
  | .neg rd => encR 0x01#6 rd 0 0x0001#16
  | .add rd rs => encR 0x01#6 rd rs 0x0002#16
  | .sub rd rs => encR 0x01#6 rd rs 0x0003#16
  | .mul rd rs => encR 0x01#6 rd rs 0x0004#16
  | .div rd rs => encR 0x01#6 rd rs 0x0005#16
  | .rr rd rs => encR 0x01#6 rd rs 0x0006#16
  | .rl rd rs => encR 0x01#6 rd rs 0x0007#16
  | .fadd rd rs => encR 0x01#6 rd rs 0x0008#16
  | .fsub rd rs => encR 0x01#6 rd rs 0x0009#16
  | .fmul rd rs => encR 0x01#6 rd rs 0x000A#16
  | .fdiv rd rs => encR 0x01#6 rd rs 0x000B#16
  | .exch rd rs => encR 0x02#6 rd rs 0
  | .xori rd imm => encI 0x03#6 rd imm 0x00#5
  | .addi rd imm => encI 0x03#6 rd imm 0x02#5
  | .subi rd imm => encI 0x03#6 rd imm 0x03#5
  | .muli rd imm => encI 0x03#6 rd imm 0x04#5
  | .divi rd imm => encI 0x03#6 rd imm 0x05#5
  | .rri rd imm => encI 0x03#6 rd imm 0x06#5
  | .rli rd imm => encI 0x03#6 rd imm 0x07#5
  | .faddi rd imm => encI 0x03#6 rd imm 0x08#5
  | .fsubi rd imm => encI 0x03#6 rd imm 0x09#5
  | .fmuli rd imm => encI 0x03#6 rd imm 0x0A#5
  | .fdivi rd imm => encI 0x03#6 rd imm 0x0B#5
  | .mexch rd rs off => encR 0x04#6 rd rs off
  | .del rd => encR 0x05#6 rd 0 0
  | .mdel rs off => encR 0x06#6 0 rs off
  | .cswap ra rb rc => encR3 0x07#6 ra rb rc 0
  | .cswapi ra rb imm => encR 0x08#6 ra rb imm
  | .blt ra rb off => encB 0x10#6 ra rb off
  | .bltu ra rb off => encB 0x11#6 ra rb off
  | .bge ra rb off => encB 0x12#6 ra rb off
  | .bgeu ra rb off => encB 0x13#6 ra rb off
  | .beq ra rb off => encB 0x14#6 ra rb off
  | .bne ra rb off => encB 0x15#6 ra rb off
  | .bevn rd off => encI 0x16#6 rd off 0
  | .bodd rd off => encI 0x17#6 rd off 0
  | .swb rd => encR 0x18#6 rd 0 0
  | .rswb rd => encR 0x19#6 rd 0 0
  | .vxor vd vs => encR 0x21#6 vd vs 0x0000#16
  | .vneg vd => encR 0x21#6 vd 0 0x0001#16
  | .vadd vd vs => encR 0x21#6 vd vs 0x0002#16
  | .vsub vd vs => encR 0x21#6 vd vs 0x0003#16
  | .vmul vd vs => encR 0x21#6 vd vs 0x0004#16
  | .vdiv vd vs => encR 0x21#6 vd vs 0x0005#16
  | .vrr vd vs => encR 0x21#6 vd vs 0x0006#16
  | .vrl vd vs => encR 0x21#6 vd vs 0x0007#16
  | .vfadd vd vs => encR 0x21#6 vd vs 0x0008#16
  | .vfsub vd vs => encR 0x21#6 vd vs 0x0009#16
  | .vfmul vd vs => encR 0x21#6 vd vs 0x000A#16
  | .vfdiv vd vs => encR 0x21#6 vd vs 0x000B#16
  | .vexch vd vs => encR 0x22#6 vd vs 0
  | .vxori vd imm => encI 0x23#6 vd imm 0x00#5
  | .vaddi vd imm => encI 0x23#6 vd imm 0x02#5
  | .vsubi vd imm => encI 0x23#6 vd imm 0x03#5
  | .vmuli vd imm => encI 0x23#6 vd imm 0x04#5
  | .vdivi vd imm => encI 0x23#6 vd imm 0x05#5
  | .vrri vd imm => encI 0x23#6 vd imm 0x06#5
  | .vrli vd imm => encI 0x23#6 vd imm 0x07#5
  | .vfaddi vd imm => encI 0x23#6 vd imm 0x08#5
  | .vfsubi vd imm => encI 0x23#6 vd imm 0x09#5
  | .vfmuli vd imm => encI 0x23#6 vd imm 0x0A#5
  | .vfdivi vd imm => encI 0x23#6 vd imm 0x0B#5
  | .vmexch vd rs off => encR 0x24#6 vd rs off
  | .vdel vd => encR 0x25#6 vd 0 0
  | .vmdel rs off => encR 0x26#6 0 rs off
  | .vcswap va vb vc => encR3 0x27#6 va vb vc 0
  | .vcswapi va vb imm => encR 0x28#6 va vb imm

/-! ### The host's reading of an opcode-table row -/

/-- The instruction the decoder reads from a word whose low `nbits` bits are those of `w` and whose other
bits are zero. An instruction is one 32-bit word and memory holds whole words, so bit 0 of the table's
number is bit 0 of the word fetched (R62, R80). -/
def tableWord (nbits w : Nat) : Word := BitVec.ofNat 32 (w % 2 ^ nbits)

/-- What the decoder reads from a row's word, `none` where it refuses. -/
def decodeTableWord (nbits w : Nat) : Option Instr :=
  match decode (tableWord nbits w) with
  | .ok i => some i
  | .error _ => none

end Sys2Proof
end

