-- ==== Sys2Proof/Config.lean ====
section
/-! DEFINITION. The one free parameter of the core, `MB`, and the sizes that follow from it
(spec/00_scope.md R6 to R8). -/

namespace Sys2Proof

/-- The configuration of one core: its megabyte budget `MB` (R6). It is fixed by Init and never
changes (R43, log entry 2). -/
structure Config where
  mb : Nat
  deriving DecidableEq, Repr

/-- `MB` ranges over the integers 1 to 8589 (R7). -/
def Config.legal (c : Config) : Bool := decide (1 ≤ c.mb) && decide (c.mb ≤ 8589)

/-- `W = 250_000 * MB`, the number of memory words (R6). -/
def Config.words (c : Config) : Nat := 250000 * c.mb

/-- `G_SIZE = W / 8 = 31_250 * MB`, the capacity of the garbage stack in words (R6). -/
def Config.gSize (c : Config) : Nat := 31250 * c.mb

/-- `G_BASE = 7 * W / 8 = 218_750 * MB`, the first word of the garbage region (R6). -/
def Config.gBase (c : Config) : Nat := 218750 * c.mb

/-- Lanes of a vector register: the vector length is fixed at 32 (R24). -/
abbrev Lane := Fin 32

end Sys2Proof
end

