-- ==== Sys2Proof/Machine/State.lean ====
section
/-! DEFINITION. The architectural state of the iris core (spec/10_state.md, spec/60_exceptions.md R300) and
its value after reset (spec/70_reset_and_hazards.md R332). State is plain data. -/

namespace Sys2Proof.Machine

/-- What a memory word that no entry lists reads as: the zero fill of reset (R40). -/
abbrev unlistedWord : Word := 0#32

/-- The memory `mem[0 .. W-1]` (R37): one word per index, R62 forbids a byte layout (log entry 1). It is
sparse and canonical: indices strictly rise and no listed word equals `unlistedWord`, so that equal memories
are equal data (`Memory.wf`). -/
structure Memory where
  cells : List (Nat × Word)
  deriving DecidableEq, Repr

/-- The canonical form holds. -/
def Memory.wf (m : Memory) : Bool :=
  decide (m.cells.Pairwise fun c d => c.1 < d.1) && m.cells.all fun c => decide (c.2 ≠ unlistedWord)

/-- Every listed index is a memory index `0 .. W-1` (R37). -/
def Memory.within (m : Memory) (words : Nat) : Bool := m.cells.all fun c => decide (c.1 < words)

/-- `dir`, the direction bit (R32). -/
inductive Direction where
  | forward
  | backward
  deriving DecidableEq, Repr

/-- The six error kinds (R300). -/
inductive ErrorKind where
  | programTooLarge
  | garbageOverflow
  | garbageUnderflow
  | addressOutOfBounds
  | illegalInstruction
  | arithmeticFault
  deriving DecidableEq, Repr

/-- `status`, the run status (R33): running, halted, or error with its cause. -/
inductive Status where
  | running
  | halted
  | error (kind : ErrorKind)
  deriving DecidableEq, Repr

/-- The whole state of the machine (R43). -/
structure State where
  /-- The parameter `MB`: a launch input that no step changes (R6, R43; log entry 2). -/
  cfg : Config
  /-- The scalar register file (R20). -/
  x : Vector Word 32
  /-- The vector register file: 32 registers of 32 lanes (R24). -/
  v : Vector (Vector Word 32) 32
  /-- The program counter, a word index (R27). -/
  pc : Word
  /-- The branch register: the pending signed jump delta (R30). -/
  br : Word
  /-- The direction bit (R32). -/
  dir : Direction
  /-- The run status (R33). -/
  status : Status
  /-- The garbage-stack pointer: how many values the garbage stack holds (R34). -/
  gsp : Nat
  /-- The memory, the garbage stack in its last eighth (R37, R41). -/
  mem : Memory
  deriving DecidableEq, Repr

/-- Why a step has no next state. An error of the machine is no fault here: it is a state (R304). -/
inductive Fault where
  /-- Raised by `step` on a halted machine, which has no transition (R288). Safe: the spec gives the
  machine nothing to do there. -/
  | halted
  /-- Raised by `step` on a machine whose run ended in an error of this kind (R306). Safe, likewise. -/
  | terminated (kind : ErrorKind)
  deriving DecidableEq, Repr

/-- What the model refuses. -/
inductive Refusal where
  /-- An instruction that has no meaning in the model. No arm of `exec` answers with it. Safe. -/
  | notModelled (mnemonic : String)
  /-- Raised by `init` alone: `MB` outside 1 .. 8589 is no configuration of this hardware (R7, U11 of
  93_implementation_defined.md). Safe. -/
  | megabytesOutOfRange
  deriving DecidableEq, Repr

/-- The scalar file at reset: `x[0] = 0`, `x[1] = -1`, the others 0 (R23). -/
def resetX : Vector Word 32 := (Vector.replicate 32 0#32).set 1 0xFFFFFFFF#32

/-- The vector file at reset: every lane 0 (R26). -/
def resetV : Vector (Vector Word 32) 32 := Vector.replicate 32 (Vector.replicate 32 0#32)

/-- The machine right after a successful Init with an empty program (R332): `MB` is 1 (log entry 2). -/
def State.reset : State :=
  { cfg := { mb := 1 }
    x := resetX
    v := resetV
    pc := 0#32
    br := 0#32
    dir := .forward
    status := .running
    gsp := 0
    mem := { cells := [] } }

end Sys2Proof.Machine
end

