-- ==== Sys2Proof/Machine/Ops.lean ====
section
/-! DEFINITION. The shared operations: memory words and bounds, the garbage stack (spec/20_memory.md), raising
an error (spec/60_exceptions.md R304), the loop over lanes, and the sequencer's fetch and program-counter update
(spec/47_sequencer.md R281 to R286). -/

namespace Sys2Proof.Machine

/-! ### Codes of the control state -/

/-- `dir ^ 1` (R252). -/
def Direction.flip : Direction → Direction
  | .forward => .backward
  | .backward => .forward

/-- The bit: "0 = forward, 1 = backward" (R32). -/
def Direction.bit : Direction → BitVec 1
  | .forward => 0
  | .backward => 1

/-- The error codes of R300. -/
def ErrorKind.code : ErrorKind → BitVec 3
  | .programTooLarge => 1
  | .garbageOverflow => 2
  | .garbageUnderflow => 3
  | .addressOutOfBounds => 4
  | .illegalInstruction => 5
  | .arithmeticFault => 6

/-- `status.state` (R33): the value 3 never occurs. -/
def Status.stateCode : Status → BitVec 2
  | .running => 0
  | .halted => 1
  | .error _ => 2

/-- `status.cause` (R33, R300): the error code, 0 unless the state is error. -/
def Status.causeCode : Status → BitVec 3
  | .error k => k.code
  | _ => 0

/-! ### One word of memory -/

/-- The word listed for an index, or what an unlisted index reads as. -/
def cellsRead : List (Nat × Word) → Nat → Word
  | [], _ => unlistedWord
  | (b, u) :: rest, a => if a = b then u else cellsRead rest a

/-- Put `w` at index `a` and keep the canonical form: writing the value an unlisted index reads as removes
the entry. -/
def cellsWrite : List (Nat × Word) → Nat → Word → List (Nat × Word)
  | [], a, w => if w = unlistedWord then [] else [(a, w)]
  | (b, u) :: rest, a, w =>
    if a < b then (if w = unlistedWord then (b, u) :: rest else (a, w) :: (b, u) :: rest)
    else if a = b then (if w = unlistedWord then rest else (a, w) :: rest)
    else (b, u) :: cellsWrite rest a w

/-- `mem[a]` (R37). -/
def Memory.read (m : Memory) (a : Nat) : Word := cellsRead m.cells a

/-- `mem[a] <- w` (R37). -/
def Memory.write (m : Memory) (a : Nat) (w : Word) : Memory := { cells := cellsWrite m.cells a w }

/-! ### Raising an error -/

/-- `raise K` (R15, R304): `status` becomes error with kind `K` and every other piece of state keeps the
value it had when the step began. Every error is terminal; there is no handler, no saved state and no return
from it (R306). -/
def raise (k : ErrorKind) (s : State) : Host.Outcome State Fault Refusal :=
  .next { s with status := .error k }

/-- The end of an instruction body that began in `s`: its result, or the error it raised, taken in `s` itself
so that nothing the body had done before remains (R304: errors are precise). -/
def commit (s : State) (r : Except ErrorKind State) : Host.Outcome State Fault Refusal :=
  match r with
  | .ok t => .next t
  | .error k => raise k s

/-! ### Bounds and capacity checks -/

/-- The `n` words from index `ea` on are all in `0 .. W-1`, else `AddressOutOfBounds` (R52, R61, R305). The
garbage region is in bounds (R53). -/
def requireInBounds (ea : Int) (n : Nat) (s : State) : Except ErrorKind Unit :=
  if ea < 0 ∨ (s.cfg.words : Int) < ea + n then .error .addressOutOfBounds else .ok ()

/-- There is room for `n` more values on the garbage stack, else `GarbageOverflow` (R302). -/
def requireRoom (n : Nat) (s : State) : Except ErrorKind Unit :=
  if s.cfg.gSize < s.gsp + n then .error .garbageOverflow else .ok ()

/-- The garbage stack holds at least `n` values, else `GarbageUnderflow` (R303). -/
def requireHeld (n : Nat) (s : State) : Except ErrorKind Unit :=
  if s.gsp < n then .error .garbageUnderflow else .ok ()

/-! ### The four primitives of the memory manager (R50) -/

/-- `MemRead(a, 1)` (R14, R52). -/
def memRead (a : Int) (s : State) : Except ErrorKind Word := do
  requireInBounds a 1 s
  pure (s.mem.read a.toNat)

/-- `MemWrite(a, 1, w)` (R14, R52). -/
def memWrite (a : Int) (w : Word) (s : State) : Except ErrorKind State := do
  requireInBounds a 1 s
  pure { s with mem := s.mem.write a.toNat w }

/-- The index of garbage slot `k`, counted from 0 for the oldest value: `W - 1 - k` (R56). -/
def slotIndex (c : Config) (k : Nat) : Nat := c.words - 1 - k

/-- `PushGarbage(w)` (R58): the store uses the old `gsp` and the increment follows. -/
def pushGarbage (w : Word) (s : State) : Except ErrorKind State := do
  requireRoom 1 s
  pure { s with mem := s.mem.write (slotIndex s.cfg s.gsp) w, gsp := s.gsp + 1 }

/-- `PopGarbage()` (R59): the decrement comes first, the load uses the new `gsp`, the vacated slot is
cleared. -/
def popGarbage (s : State) : Except ErrorKind (Word × State) := do
  requireHeld 1 s
  let slot := slotIndex s.cfg (s.gsp - 1)
  pure (s.mem.read slot, { s with mem := s.mem.write slot 0#32, gsp := s.gsp - 1 })

/-! ### The loop over lanes -/

/-- Lanes 0, 1, ..., 31 (R273). -/
def lanesUp : List Lane := List.finRange 32

/-- Lanes 31, 30, ..., 0 (R273). -/
def lanesDown : List Lane := lanesUp.reverse

/-- `for l in ls: body(l)`: each lane sees the effect of the lanes before it (R13); an error ends the
loop. -/
def forLanes (body : Lane → State → Except ErrorKind State) : List Lane → State → Except ErrorKind State
  | [], s => .ok s
  | l :: ls, s => do
    let t ← body l s
    forLanes body ls t

/-! ### The sequencer -/

/-- Fetch (R281): the word at `pc`, or `AddressOutOfBounds` when `u(pc) >= W`. -/
def fetch (s : State) : Except ErrorKind Word := memRead s.pc.toNat s

/-- Fetch and decode (R281, R282): an illegal word raises `IllegalInstruction` in either direction. -/
def fetchInstr (s : State) : Except ErrorKind Instr := do
  let w ← fetch s
  match decode w with
  | .ok i => pure i
  | .error _ => .error .illegalInstruction

/-- The program-counter update (R284), with `br` and `dir` as the body left them: by the branch register
when it is not zero, else by one word in the current direction, modulo 2^32. -/
def advance (s : State) : State :=
  if s.br ≠ 0#32 then { s with pc := s.pc + s.br, br := 0#32 }
  else
    match s.dir with
    | .forward => { s with pc := s.pc + 1#32 }
    | .backward => { s with pc := s.pc - 1#32 }

/-- The check after each step (R285). -/
def checkGarbage (s : State) : State :=
  if s.cfg.gSize < s.gsp then { s with status := .error .garbageOverflow } else s

/-- What the sequencer does after the body (R283 to R286): a body that halted or raised ends the step with
`pc` and `br` as they are; any other is followed by the update and the check. -/
def afterBody (s : State) : State :=
  match s.status with
  | .running => checkGarbage (advance s)
  | _ => s

/-- The end of the step, on whatever the body answered. -/
def finishStep (o : Host.Outcome State Fault Refusal) : Host.Outcome State Fault Refusal :=
  match o with
  | .next s => .next (afterBody s)
  | .fault r => .fault r
  | .refused r => .refused r

end Sys2Proof.Machine
end

