-- ==== Sys2Proof/Machine/Operands.lean ====
section
/-! DEFINITION. The operand forms: scalar registers, lanes of vector registers, immediates and effective
addresses. -/

namespace Sys2Proof.Machine

/-- The register a 5-bit field names (R86). -/
def regIndex (r : BitVec 5) : Fin 32 := ⟨r.toNat, r.isLt⟩

/-- Read `x[r]` (R20). No register is hard-wired (R21). -/
def State.getX (s : State) (r : XReg) : Word := s.x[regIndex r]

/-- `x[r] <- w` (R20). -/
def State.setX (s : State) (r : XReg) (w : Word) : State :=
  { s with x := s.x.set (regIndex r).val w (regIndex r).isLt }

/-- Read lane `l` of `v[r]` (R24). -/
def State.getLane (s : State) (r : VReg) (l : Lane) : Word := (s.v[regIndex r])[l]

/-- `v[r][l] <- w` (R24). -/
def State.setLane (s : State) (r : VReg) (l : Lane) (w : Word) : State :=
  { s with
    v := s.v.set (regIndex r).val ((s.v[regIndex r]).set l.val w l.isLt) (regIndex r).isLt }

/-- `EA = s(x[rs]) + s(sext_32(imm))`, an unbounded integer (R51). -/
def effectiveAddress (rs : XReg) (off : Imm16) (s : State) : Int :=
  (s.getX rs).toInt + (sext32 off).toInt

/-- The index of the word that lane `l` of a vector access uses: `EA + l` (R61). -/
def laneAddress (ea : Int) (l : Lane) : Int := ea + (l.val : Int)

end Sys2Proof.Machine
end

