-- ==== Sys2Proof/Machine/Flags.lean ====
section
/-! DEFINITION. The conditions of the branches. The machine has no flags and no condition codes (R35): a
comparison is made inside the branch and leaves no trace but `br`. -/

namespace Sys2Proof.Machine

/-- `a <s b` (R12, R243). -/
def condLt (a b : Word) : Bool := decide (a.toInt < b.toInt)

/-- `a <u b` (R12, R244). -/
def condLtu (a b : Word) : Bool := decide (a.toNat < b.toNat)

/-- `a >=s b` (R12, R245). -/
def condGe (a b : Word) : Bool := decide (b.toInt ≤ a.toInt)

/-- `a >=u b` (R12, R246). -/
def condGeu (a b : Word) : Bool := decide (b.toNat ≤ a.toNat)

/-- `a == b`, all 32 bits equal (R247). -/
def condEq (a b : Word) : Bool := decide (a = b)

/-- `a != b` (R248). -/
def condNe (a b : Word) : Bool := decide (a ≠ b)

/-- Bit 0 is 0: the value is even (R249). -/
def condEven (a : Word) : Bool := !a.getLsbD 0

/-- Bit 0 is 1: the value is odd (R250). -/
def condOdd (a : Word) : Bool := a.getLsbD 0

end Sys2Proof.Machine
end

