-- ==== Sys2Proof/Machine/Control.lean ====
section
/-! DEFINITION. The control-transfer instructions (spec/44_control.md): branches, `SWB`, `RSWB` and `HALT`. None
writes `pc`; the sequencer turns a non-zero `br` into a change of `pc` at the end of the step (R284). -/

namespace Sys2Proof.Machine

/-- The branch template (R240): when the condition holds the offset is added to `br` forward and subtracted from it
backward; when it does not, nothing is written. -/
def branch (cond : Bool) (off : Imm16) (s : State) : Host.Outcome State Fault Refusal :=
  match cond, s.dir with
  | true, .forward => .next { s with br := s.br + sext32 off }
  | true, .backward => .next { s with br := s.br - sext32 off }
  | false, _ => .next s

/-- `(x[rd], br) <- (br, x[rd])` (R251). -/
def swapBranchRegister (rd : XReg) (s : State) : State :=
  { s.setX rd s.br with br := s.getX rd }

/-- `BLT ra, rb, off` (R243). -/
def execBlt (ra rb : XReg) (off : Imm16) (s : State) : Host.Outcome State Fault Refusal :=
  branch (condLt (s.getX ra) (s.getX rb)) off s

/-- `BLTU ra, rb, off` (R244). -/
def execBltu (ra rb : XReg) (off : Imm16) (s : State) : Host.Outcome State Fault Refusal :=
  branch (condLtu (s.getX ra) (s.getX rb)) off s

/-- `BGE ra, rb, off` (R245). -/
def execBge (ra rb : XReg) (off : Imm16) (s : State) : Host.Outcome State Fault Refusal :=
  branch (condGe (s.getX ra) (s.getX rb)) off s

/-- `BGEU ra, rb, off` (R246). -/
def execBgeu (ra rb : XReg) (off : Imm16) (s : State) : Host.Outcome State Fault Refusal :=
  branch (condGeu (s.getX ra) (s.getX rb)) off s

/-- `BEQ ra, rb, off` (R247). -/
def execBeq (ra rb : XReg) (off : Imm16) (s : State) : Host.Outcome State Fault Refusal :=
  branch (condEq (s.getX ra) (s.getX rb)) off s

/-- `BNE ra, rb, off` (R248). -/
def execBne (ra rb : XReg) (off : Imm16) (s : State) : Host.Outcome State Fault Refusal :=
  branch (condNe (s.getX ra) (s.getX rb)) off s

/-- `BEVN rd, off` (R249). -/
def execBevn (rd : XReg) (off : Imm16) (s : State) : Host.Outcome State Fault Refusal :=
  branch (condEven (s.getX rd)) off s

/-- `BODD rd, off` (R250). -/
def execBodd (rd : XReg) (off : Imm16) (s : State) : Host.Outcome State Fault Refusal :=
  branch (condOdd (s.getX rd)) off s

/-- `SWB rd` (R251), the same in both directions. -/
def execSwb (rd : XReg) (s : State) : Host.Outcome State Fault Refusal :=
  .next (swapBranchRegister rd s)

/-- `RSWB rd` (R252): the same exchange, and the direction bit flips. -/
def execRswb (rd : XReg) (s : State) : Host.Outcome State Fault Refusal :=
  .next { swapBranchRegister rd s with dir := s.dir.flip }

/-- `HALT` (R253), the same in both directions: `status.state <- halted` and nothing else changes. -/
def execHalt (s : State) : Host.Outcome State Fault Refusal :=
  .next { s with status := .halted }

end Sys2Proof.Machine
end

