-- ==== Sys2Proof/Machine/Delete.lean ====
section
/-! DEFINITION. The delete instructions (spec/46_delete.md): forward, a value moves to the garbage stack; backward,
the most recent value comes back. All checks of an instruction come before its first write, the address first
(R270, R309). -/

namespace Sys2Proof.Machine

/-- `DEL rd` (R271). -/
def execDel (rd : XReg) (s : State) : Host.Outcome State Fault Refusal :=
  match s.dir with
  | .forward => commit s do
    let s1 ← pushGarbage (s.getX rd) s
    pure (s1.setX rd 0#32)
  | .backward => commit s do
    let (t, s1) ← popGarbage s
    pure (s1.setX rd t)

/-- `MDEL rs, off` (R272). -/
def execMdel (rs : XReg) (off : Imm16) (s : State) : Host.Outcome State Fault Refusal :=
  let ea := effectiveAddress rs off s
  match s.dir with
  | .forward => commit s do
    requireInBounds ea 1 s
    requireRoom 1 s
    let t ← memRead ea s
    let s1 ← memWrite ea 0#32 s
    pushGarbage t s1
  | .backward => commit s do
    requireInBounds ea 1 s
    requireHeld 1 s
    let (t, s1) ← popGarbage s
    memWrite ea t s1

/-- `VDEL vd` (R273): the push visits the lanes upward and the pop downward, so that lane `l` and its slot
correspond. -/
def execVdel (vd : VReg) (s : State) : Host.Outcome State Fault Refusal :=
  match s.dir with
  | .forward => commit s do
    requireRoom 32 s
    forLanes (fun l s0 => do
      let s1 ← pushGarbage (s0.getLane vd l) s0
      pure (s1.setLane vd l 0#32)) lanesUp s
  | .backward => commit s do
    requireHeld 32 s
    forLanes (fun l s0 => do
      let (t, s1) ← popGarbage s0
      pure (s1.setLane vd l t)) lanesDown s

/-- `VMDEL rs, off` (R274): a block of 32 memory words; no vector register is touched. The accesses are made in
the order written, which shows when the block overlaps the slots used. -/
def execVmdel (rs : XReg) (off : Imm16) (s : State) : Host.Outcome State Fault Refusal :=
  let ea := effectiveAddress rs off s
  match s.dir with
  | .forward => commit s do
    requireInBounds ea 32 s
    requireRoom 32 s
    forLanes (fun l s0 => do
      let t ← memRead (laneAddress ea l) s0
      let s1 ← memWrite (laneAddress ea l) 0#32 s0
      pushGarbage t s1) lanesUp s
  | .backward => commit s do
    requireInBounds ea 32 s
    requireHeld 32 s
    forLanes (fun l s0 => do
      let (t, s1) ← popGarbage s0
      memWrite (laneAddress ea l) t s1) lanesDown s

end Sys2Proof.Machine
end

