-- ==== Sys2Proof/Machine/Exchange.lean ====
section
/-! DEFINITION. The exchange instructions (spec/45_exchange.md): `EXCH`, `VEXCH`, `MEXCH` and `VMEXCH`. Each has
one body for both directions (R260). -/

namespace Sys2Proof.Machine

/-- `EXCH rd, rs` (R261): `(x[rd], x[rs]) <- (x[rs], x[rd])`. -/
def execExch (rd rs : XReg) (s : State) : Host.Outcome State Fault Refusal :=
  .next ((s.setX rd (s.getX rs)).setX rs (s.getX rd))

/-- `VEXCH vd, vs` (R262): the two registers exchange all 32 lanes, lane `l` with lane `l`. -/
def execVexch (vd vs : VReg) (s : State) : Host.Outcome State Fault Refusal :=
  commit s (forLanes (fun l t =>
    .ok ((t.setLane vd l (s.getLane vs l)).setLane vs l (s.getLane vd l))) lanesUp s)

/-- `MEXCH rd, rs, off` (R263): the old `x[rd]` is stored, and the base is read before `x[rd]` is written. -/
def execMexch (rd rs : XReg) (off : Imm16) (s : State) : Host.Outcome State Fault Refusal :=
  commit s do
    let ea := effectiveAddress rs off s
    let t ← memRead ea s
    let s1 ← memWrite ea (s.getX rd) s
    pure (s1.setX rd t)

/-- `VMEXCH vd, rs, off` (R264): all 32 addresses are checked before any access, then lane `l` is exchanged
with `mem[EA + l]`. -/
def execVmexch (vd : VReg) (rs : XReg) (off : Imm16) (s : State) : Host.Outcome State Fault Refusal :=
  commit s do
    let ea := effectiveAddress rs off s
    requireInBounds ea 32 s
    forLanes (fun l s0 => do
      let t ← memRead (laneAddress ea l) s0
      let s1 ← memWrite (laneAddress ea l) (s0.getLane vd l) s0
      pure (s1.setLane vd l t)) lanesUp s

end Sys2Proof.Machine
end

