-- ==== Sys2Proof/Machine/Binary32.lean ====
section
/-! DEFINITION. IEEE 754 binary32 as the float functions use it (spec/41_function_library.md R142 to R146): 24
significand bits, round to nearest with ties to even. A value exists only inside a float function; registers
hold integers (R142). -/

namespace Sys2Proof.Machine

/-- A finite value `(-1)^neg * sig * 2^exp`. -/
structure FloatVal where
  neg : Bool
  sig : Nat
  exp : Int
  deriving DecidableEq, Repr

/-- A binary32 datum. NaN payloads are never observable (R146), so there is one NaN. -/
inductive Binary32 where
  | nan
  | inf (neg : Bool)
  | fin (v : FloatVal)
  deriving DecidableEq, Repr

/-- `(n / d) / 2^e` as a fraction of natural numbers. -/
def scaleDown (n d : Nat) (e : Int) : Nat × Nat :=
  if 0 ≤ e then (n, d * 2 ^ e.toNat) else (n * 2 ^ (-e).toNat, d)

/-- The integer nearest to `n / d`, ties to the even one. -/
def roundHalfEven (n d : Nat) : Nat :=
  let q := n / d
  let r := n % d
  if 2 * r < d then q else if d < 2 * r then q + 1 else if q % 2 = 0 then q else q + 1

/-- `floor(log2 (n / d))` for positive `n` and `d`. -/
def log2Ratio (n d : Nat) : Int :=
  let k : Int := (n.log2 : Int) - (d.log2 : Int)
  let p := scaleDown n d k
  if p.2 ≤ p.1 then k else k - 1

/-- The binary32 zero of a sign. -/
def floatZero (neg : Bool) : Binary32 := .fin { neg := neg, sig := 0, exp := -149 }

/-- The binary32 datum nearest to `(-1)^neg * n / d`, ties to the even significand: 24 significand bits,
no exponent below that of the subnormals, infinity when the rounded magnitude reaches `2^128`. `d` is
positive. -/
def roundToBinary32 (neg : Bool) (n d : Nat) : Binary32 :=
  if n = 0 then floatZero neg
  else
    let e := max (log2Ratio n d - 23) (-149)
    let p := scaleDown n d e
    let q := roundHalfEven p.1 p.2
    if 104 < e ∨ (e = 104 ∧ q = 2 ^ 24) then .inf neg
    else if q = 2 ^ 24 then .fin { neg := neg, sig := 2 ^ 23, exp := e + 1 }
    else .fin { neg := neg, sig := q, exp := e }

/-- Round `(-1)^neg * (n / d) * 2^e`. -/
def roundScaled (neg : Bool) (n d : Nat) (e : Int) : Binary32 :=
  let p := scaleDown n d (-e)
  roundToBinary32 neg p.1 p.2

/-- `i2f(w)`: the binary32 value nearest to the integer `s(w)`, ties to even (R143). -/
def i2f (w : Word) : Binary32 := roundToBinary32 (decide (w.toInt < 0)) w.toInt.natAbs 1

/-- The magnitude with its fraction discarded. -/
def truncMagnitude (v : FloatVal) : Nat :=
  if 0 ≤ v.exp then v.sig * 2 ^ v.exp.toNat else v.sig / 2 ^ (-v.exp).toNat

/-- The value rounded toward zero to an integer. -/
def truncToInt (v : FloatVal) : Int :=
  if v.neg then -(truncMagnitude v : Int) else (truncMagnitude v : Int)

/-- `f2i(f)`: truncation toward zero; `ArithmeticFault` for a NaN, an infinity, or an integer outside
`-2^31 .. 2^31 - 1` (R144). -/
def f2i : Binary32 → Except ErrorKind Word
  | .nan => .error .arithmeticFault
  | .inf _ => .error .arithmeticFault
  | .fin v =>
    if truncToInt v < -2147483648 ∨ 2147483647 < truncToInt v then .error .arithmeticFault
    else .ok (wrap32 (truncToInt v))

/-- Change of sign. -/
def floatNegate : Binary32 → Binary32
  | .nan => .nan
  | .inf neg => .inf !neg
  | .fin v => .fin { v with neg := !v.neg }

/-- The significand with its sign. -/
def signedSig (v : FloatVal) : Int := if v.neg then -(v.sig : Int) else (v.sig : Int)

/-- The rounded exact sum of two finite values. -/
def addFinite (a b : FloatVal) : Binary32 :=
  let e := min a.exp b.exp
  let m := signedSig a * 2 ^ (a.exp - e).toNat + signedSig b * 2 ^ (b.exp - e).toNat
  if m = 0 then floatZero (a.neg && b.neg) else roundScaled (decide (m < 0)) m.natAbs 1 e

/-- `(+)` (R145). -/
def floatAdd : Binary32 → Binary32 → Binary32
  | .fin a, .fin b => addFinite a b
  | .inf a, .fin _ => .inf a
  | .fin _, .inf b => .inf b
  | .inf a, .inf b => if a = b then .inf a else .nan
  | .nan, _ => .nan
  | _, .nan => .nan

/-- `(-)` (R145). -/
def floatSub (a b : Binary32) : Binary32 := floatAdd a (floatNegate b)

/-- `(*)` (R145). -/
def floatMul : Binary32 → Binary32 → Binary32
  | .fin a, .fin b => roundScaled (a.neg != b.neg) (a.sig * b.sig) 1 (a.exp + b.exp)
  | .inf a, .fin b => if b.sig = 0 then .nan else .inf (a != b.neg)
  | .fin a, .inf b => if a.sig = 0 then .nan else .inf (a.neg != b)
  | .inf a, .inf b => .inf (a != b)
  | .nan, _ => .nan
  | _, .nan => .nan

/-- `(/)` (R145, R146: a zero divisor gives an infinity, and a NaN when the dividend is zero too). -/
def floatDiv : Binary32 → Binary32 → Binary32
  | .fin a, .fin b =>
    if b.sig = 0 then (if a.sig = 0 then .nan else .inf (a.neg != b.neg))
    else roundScaled (a.neg != b.neg) a.sig b.sig (a.exp - b.exp)
  | .inf a, .fin b => .inf (a != b.neg)
  | .fin a, .inf b => floatZero (a.neg != b)
  | .inf _, .inf _ => .nan
  | .nan, _ => .nan
  | _, .nan => .nan

end Sys2Proof.Machine
end

