-- ==== Sys2Proof/Machine/FunctionLibrary.lean ====
section
/-! DEFINITION. The Function Library (spec/41_function_library.md): the twelve functions on words, the
conditional swap, and the inverse map of the backward mode. -/

namespace Sys2Proof.Machine

/-- `fn_xor(a, b)` (R133). -/
def fnXor (a b : Word) : Word := a ^^^ b

/-- `fn_neg(a) = wrap32(0 - s(a))` (R134). -/
def fnNeg (a : Word) : Word := wrap32 (0 - a.toInt)

/-- `fn_add(a, b) = wrap32(u(a) + u(b))` (R135). -/
def fnAdd (a b : Word) : Word := a + b

/-- `fn_sub(a, b) = wrap32(u(a) - u(b))` (R136). -/
def fnSub (a b : Word) : Word := a - b

/-- `fn_mul(a, b) = wrap32(s(a) * s(b))` (R137). -/
def fnMul (a b : Word) : Word := wrap32 (a.toInt * b.toInt)

/-- `fn_div(a, b)` (R138): signed, truncated toward zero; `ArithmeticFault` for a zero divisor and for
`-2^31 / -1`. -/
def fnDiv (a b : Word) : Except ErrorKind Word :=
  if b.toInt = 0 then .error .arithmeticFault
  else if a.toInt = -2147483648 ∧ b.toInt = -1 then .error .arithmeticFault
  else .ok (wrap32 (a.toInt.tdiv b.toInt))

/-- The rotation count: the low five bits of the second operand (R140). -/
def rotateCount (n : Word) : Nat := n.toNat % 32

/-- `fn_rr(a, n)`, rotate right (R140). -/
def fnRr (a n : Word) : Word := a.rotateRight (rotateCount n)

/-- `fn_rl(a, n)`, rotate left (R140). -/
def fnRl (a n : Word) : Word := a.rotateLeft (rotateCount n)

/-- `fn_fadd(a, b)` (R145). -/
def fnFadd (a b : Word) : Except ErrorKind Word := f2i (floatAdd (i2f a) (i2f b))

/-- `fn_fsub(a, b)` (R145). -/
def fnFsub (a b : Word) : Except ErrorKind Word := f2i (floatSub (i2f a) (i2f b))

/-- `fn_fmul(a, b)` (R145). -/
def fnFmul (a b : Word) : Except ErrorKind Word := f2i (floatMul (i2f a) (i2f b))

/-- `fn_fdiv(a, b)` (R145). -/
def fnFdiv (a b : Word) : Except ErrorKind Word := f2i (floatDiv (i2f a) (i2f b))

/-- `fn_cswap(a, b, m)` (R141): the bits of `a` and `b` are exchanged where `m` is 1. -/
def fnCswap (a b m : Word) : Word × Word :=
  let t := (a ^^^ b) &&& m
  (a ^^^ t, b ^^^ t)

/-- `fn_f(a, b)` by the function's name (R130); negate ignores `b`. -/
def applyFn (f : Fn) (a b : Word) : Except ErrorKind Word :=
  match f with
  | .xor => .ok (fnXor a b)
  | .neg => .ok (fnNeg a)
  | .add => .ok (fnAdd a b)
  | .sub => .ok (fnSub a b)
  | .mul => .ok (fnMul a b)
  | .div => fnDiv a b
  | .rr => .ok (fnRr a b)
  | .rl => .ok (fnRl a b)
  | .fadd => fnFadd a b
  | .fsub => fnFsub a b
  | .fmul => fnFmul a b
  | .fdiv => fnFdiv a b

/-- `inv`, the function the backward mode substitutes (R132). -/
def invFn : Fn → Fn
  | .xor => .xor
  | .neg => .neg
  | .add => .sub
  | .sub => .add
  | .mul => .div
  | .div => .mul
  | .rr => .rl
  | .rl => .rr
  | .fadd => .fsub
  | .fsub => .fadd
  | .fmul => .fdiv
  | .fdiv => .fmul

/-- The function an instruction of function `f` performs in direction `d` (R160, R153). -/
def fnInDirection (d : Direction) (f : Fn) : Fn :=
  match d with
  | .forward => f
  | .backward => invFn f

end Sys2Proof.Machine
end

