-- ==== Sys2Proof/Machine/ScalarArith.lean ====
section
/-! DEFINITION. The scalar arithmetic instructions (spec/42_scalar_arith.md): `SPECIAL`, `IMM`, `CSWAP` and
`CSWAPI`. Each function is performed as it stands when `dir` is forward and replaced by its paired inverse when
it is backward (R160, R173). -/

namespace Sys2Proof.Machine

/-- `x[rd] <- fn(x[rd], b)`, with the function the direction selects; a function that faults leaves `x[rd]`
unwritten (R160, R173). Both operands are read before the write, so a register named twice follows the
formula (R187). -/
def scalarFn (f : Fn) (rd : XReg) (b : Word) (s : State) : Host.Outcome State Fault Refusal :=
  commit s do
    let r ← applyFn (fnInDirection s.dir f) (s.getX rd) b
    pure (s.setX rd r)

/-- The conditional swap of two scalar registers under mask `m` (R185): all reads come before the writes, and the
direction does not matter. -/
def scalarCswap (ra rb : XReg) (m : Word) (s : State) : Host.Outcome State Fault Refusal :=
  let p := fnCswap (s.getX ra) (s.getX rb) m
  .next ((s.setX ra p.1).setX rb p.2)

/-- `XOR rd, rs` (R161). -/
def execXor (rd rs : XReg) (s : State) : Host.Outcome State Fault Refusal :=
  scalarFn .xor rd (s.getX rs) s

/-- `NEG rd` (R162). -/
def execNeg (rd : XReg) (s : State) : Host.Outcome State Fault Refusal :=
  scalarFn .neg rd 0#32 s

/-- `ADD rd, rs` (R163). -/
def execAdd (rd rs : XReg) (s : State) : Host.Outcome State Fault Refusal :=
  scalarFn .add rd (s.getX rs) s

/-- `SUB rd, rs` (R164). -/
def execSub (rd rs : XReg) (s : State) : Host.Outcome State Fault Refusal :=
  scalarFn .sub rd (s.getX rs) s

/-- `MUL rd, rs` (R165). -/
def execMul (rd rs : XReg) (s : State) : Host.Outcome State Fault Refusal :=
  scalarFn .mul rd (s.getX rs) s

/-- `DIV rd, rs` (R166). -/
def execDiv (rd rs : XReg) (s : State) : Host.Outcome State Fault Refusal :=
  scalarFn .div rd (s.getX rs) s

/-- `RR rd, rs` (R167). -/
def execRr (rd rs : XReg) (s : State) : Host.Outcome State Fault Refusal :=
  scalarFn .rr rd (s.getX rs) s

/-- `RL rd, rs` (R168). -/
def execRl (rd rs : XReg) (s : State) : Host.Outcome State Fault Refusal :=
  scalarFn .rl rd (s.getX rs) s

/-- `FADD rd, rs` (R169). -/
def execFadd (rd rs : XReg) (s : State) : Host.Outcome State Fault Refusal :=
  scalarFn .fadd rd (s.getX rs) s

/-- `FSUB rd, rs` (R170). -/
def execFsub (rd rs : XReg) (s : State) : Host.Outcome State Fault Refusal :=
  scalarFn .fsub rd (s.getX rs) s

/-- `FMUL rd, rs` (R171). -/
def execFmul (rd rs : XReg) (s : State) : Host.Outcome State Fault Refusal :=
  scalarFn .fmul rd (s.getX rs) s

/-- `FDIV rd, rs` (R172). -/
def execFdiv (rd rs : XReg) (s : State) : Host.Outcome State Fault Refusal :=
  scalarFn .fdiv rd (s.getX rs) s

/-- `XORI rd, imm` (R174). -/
def execXori (rd : XReg) (imm : Imm16) (s : State) : Host.Outcome State Fault Refusal :=
  scalarFn .xor rd (sext32 imm) s

/-- `ADDI rd, imm` (R175). -/
def execAddi (rd : XReg) (imm : Imm16) (s : State) : Host.Outcome State Fault Refusal :=
  scalarFn .add rd (sext32 imm) s

/-- `SUBI rd, imm` (R176). -/
def execSubi (rd : XReg) (imm : Imm16) (s : State) : Host.Outcome State Fault Refusal :=
  scalarFn .sub rd (sext32 imm) s

/-- `MULI rd, imm` (R177). -/
def execMuli (rd : XReg) (imm : Imm16) (s : State) : Host.Outcome State Fault Refusal :=
  scalarFn .mul rd (sext32 imm) s

/-- `DIVI rd, imm` (R178). -/
def execDivi (rd : XReg) (imm : Imm16) (s : State) : Host.Outcome State Fault Refusal :=
  scalarFn .div rd (sext32 imm) s

/-- `RRI rd, imm` (R179). -/
def execRri (rd : XReg) (imm : Imm16) (s : State) : Host.Outcome State Fault Refusal :=
  scalarFn .rr rd (sext32 imm) s

/-- `RLI rd, imm` (R180). -/
def execRli (rd : XReg) (imm : Imm16) (s : State) : Host.Outcome State Fault Refusal :=
  scalarFn .rl rd (sext32 imm) s

/-- `FADDI rd, imm` (R181). -/
def execFaddi (rd : XReg) (imm : Imm16) (s : State) : Host.Outcome State Fault Refusal :=
  scalarFn .fadd rd (sext32 imm) s

/-- `FSUBI rd, imm` (R182). -/
def execFsubi (rd : XReg) (imm : Imm16) (s : State) : Host.Outcome State Fault Refusal :=
  scalarFn .fsub rd (sext32 imm) s

/-- `FMULI rd, imm` (R183). -/
def execFmuli (rd : XReg) (imm : Imm16) (s : State) : Host.Outcome State Fault Refusal :=
  scalarFn .fmul rd (sext32 imm) s

/-- `FDIVI rd, imm` (R184). -/
def execFdivi (rd : XReg) (imm : Imm16) (s : State) : Host.Outcome State Fault Refusal :=
  scalarFn .fdiv rd (sext32 imm) s

/-- `CSWAP ra, rb, rc` (R185). -/
def execCswap (ra rb rc : XReg) (s : State) : Host.Outcome State Fault Refusal :=
  scalarCswap ra rb (s.getX rc) s

/-- `CSWAPI ra, rb, imm` (R186). -/
def execCswapi (ra rb : XReg) (imm : Imm16) (s : State) : Host.Outcome State Fault Refusal :=
  scalarCswap ra rb (sext32 imm) s

end Sys2Proof.Machine
end

