-- ==== Sys2Proof/Machine/VectorArith.lean ====
section
/-! DEFINITION. The vector arithmetic instructions (spec/43_vector_arith.md): `VSPECIAL`, `VIMM`, `VCSWAP` and
`VCSWAPI`, each the lane-wise copy of the scalar instruction without the `V`. -/

namespace Sys2Proof.Machine

/-- `for every l: v[vd][l] <- fn(v[vd][l], b[l])`, with the function the direction selects (R200, R201). Every
operand is a lane of the state before the instruction; one faulting lane faults the instruction and no lane is
written (R202). -/
def vectorFn (f : Fn) (vd : VReg) (b : Lane → Word) (s : State) : Host.Outcome State Fault Refusal :=
  commit s (forLanes (fun l t => do
    let r ← applyFn (fnInDirection s.dir f) (s.getLane vd l) (b l)
    pure (t.setLane vd l r)) lanesUp s)

/-- The conditional swap of two vector registers, lane `l` under mask `m l` (R227): all lanes are read before any
is written, and the direction does not matter. -/
def vectorCswap (va vb : VReg) (m : Lane → Word) (s : State) : Host.Outcome State Fault Refusal :=
  commit s (forLanes (fun l t =>
    let p := fnCswap (s.getLane va l) (s.getLane vb l) (m l)
    .ok ((t.setLane va l p.1).setLane vb l p.2)) lanesUp s)

/-- `VXOR vd, vs` (R204). -/
def execVxor (vd vs : VReg) (s : State) : Host.Outcome State Fault Refusal :=
  vectorFn .xor vd (s.getLane vs) s

/-- `VNEG vd` (R205). -/
def execVneg (vd : VReg) (s : State) : Host.Outcome State Fault Refusal :=
  vectorFn .neg vd (fun _ => 0#32) s

/-- `VADD vd, vs` (R206). -/
def execVadd (vd vs : VReg) (s : State) : Host.Outcome State Fault Refusal :=
  vectorFn .add vd (s.getLane vs) s

/-- `VSUB vd, vs` (R207). -/
def execVsub (vd vs : VReg) (s : State) : Host.Outcome State Fault Refusal :=
  vectorFn .sub vd (s.getLane vs) s

/-- `VMUL vd, vs` (R208). -/
def execVmul (vd vs : VReg) (s : State) : Host.Outcome State Fault Refusal :=
  vectorFn .mul vd (s.getLane vs) s

/-- `VDIV vd, vs` (R209). -/
def execVdiv (vd vs : VReg) (s : State) : Host.Outcome State Fault Refusal :=
  vectorFn .div vd (s.getLane vs) s

/-- `VRR vd, vs` (R210). -/
def execVrr (vd vs : VReg) (s : State) : Host.Outcome State Fault Refusal :=
  vectorFn .rr vd (s.getLane vs) s

/-- `VRL vd, vs` (R211). -/
def execVrl (vd vs : VReg) (s : State) : Host.Outcome State Fault Refusal :=
  vectorFn .rl vd (s.getLane vs) s

/-- `VFADD vd, vs` (R212). -/
def execVfadd (vd vs : VReg) (s : State) : Host.Outcome State Fault Refusal :=
  vectorFn .fadd vd (s.getLane vs) s

/-- `VFSUB vd, vs` (R213). -/
def execVfsub (vd vs : VReg) (s : State) : Host.Outcome State Fault Refusal :=
  vectorFn .fsub vd (s.getLane vs) s

/-- `VFMUL vd, vs` (R214). -/
def execVfmul (vd vs : VReg) (s : State) : Host.Outcome State Fault Refusal :=
  vectorFn .fmul vd (s.getLane vs) s

/-- `VFDIV vd, vs` (R215). -/
def execVfdiv (vd vs : VReg) (s : State) : Host.Outcome State Fault Refusal :=
  vectorFn .fdiv vd (s.getLane vs) s

/-- `VXORI vd, imm` (R216). -/
def execVxori (vd : VReg) (imm : Imm16) (s : State) : Host.Outcome State Fault Refusal :=
  vectorFn .xor vd (fun _ => sext32 imm) s

/-- `VADDI vd, imm` (R217). -/
def execVaddi (vd : VReg) (imm : Imm16) (s : State) : Host.Outcome State Fault Refusal :=
  vectorFn .add vd (fun _ => sext32 imm) s

/-- `VSUBI vd, imm` (R218). -/
def execVsubi (vd : VReg) (imm : Imm16) (s : State) : Host.Outcome State Fault Refusal :=
  vectorFn .sub vd (fun _ => sext32 imm) s

/-- `VMULI vd, imm` (R219). -/
def execVmuli (vd : VReg) (imm : Imm16) (s : State) : Host.Outcome State Fault Refusal :=
  vectorFn .mul vd (fun _ => sext32 imm) s

/-- `VDIVI vd, imm` (R220). -/
def execVdivi (vd : VReg) (imm : Imm16) (s : State) : Host.Outcome State Fault Refusal :=
  vectorFn .div vd (fun _ => sext32 imm) s

/-- `VRRI vd, imm` (R221). -/
def execVrri (vd : VReg) (imm : Imm16) (s : State) : Host.Outcome State Fault Refusal :=
  vectorFn .rr vd (fun _ => sext32 imm) s

/-- `VRLI vd, imm` (R222). -/
def execVrli (vd : VReg) (imm : Imm16) (s : State) : Host.Outcome State Fault Refusal :=
  vectorFn .rl vd (fun _ => sext32 imm) s

/-- `VFADDI vd, imm` (R223). -/
def execVfaddi (vd : VReg) (imm : Imm16) (s : State) : Host.Outcome State Fault Refusal :=
  vectorFn .fadd vd (fun _ => sext32 imm) s

/-- `VFSUBI vd, imm` (R224). -/
def execVfsubi (vd : VReg) (imm : Imm16) (s : State) : Host.Outcome State Fault Refusal :=
  vectorFn .fsub vd (fun _ => sext32 imm) s

/-- `VFMULI vd, imm` (R225). -/
def execVfmuli (vd : VReg) (imm : Imm16) (s : State) : Host.Outcome State Fault Refusal :=
  vectorFn .fmul vd (fun _ => sext32 imm) s

/-- `VFDIVI vd, imm` (R226). -/
def execVfdivi (vd : VReg) (imm : Imm16) (s : State) : Host.Outcome State Fault Refusal :=
  vectorFn .fdiv vd (fun _ => sext32 imm) s

/-- `VCSWAP va, vb, vc` (R227). -/
def execVcswap (va vb vc : VReg) (s : State) : Host.Outcome State Fault Refusal :=
  vectorCswap va vb (s.getLane vc) s

/-- `VCSWAPI va, vb, imm` (R228). -/
def execVcswapi (va vb : VReg) (imm : Imm16) (s : State) : Host.Outcome State Fault Refusal :=
  vectorCswap va vb (fun _ => sext32 imm) s

end Sys2Proof.Machine
end

