-- ==== Sys2Proof/Machine/Dispatch.lean ====
section
/-! DEFINITION. The dispatch of spec/47_sequencer.md R283: one arm per instruction, each a direct call of its meaning.
A meaning reads `dir` and performs the forward or the backward body. -/

namespace Sys2Proof.Machine

def exec (i : Instr) (s : State) : Host.Outcome State Fault Refusal :=
  match i with
  | .halt => Sys2Proof.Machine.execHalt s
  | .xor rd rs => Sys2Proof.Machine.execXor rd rs s
  | .neg rd => Sys2Proof.Machine.execNeg rd s
  | .add rd rs => Sys2Proof.Machine.execAdd rd rs s
  | .sub rd rs => Sys2Proof.Machine.execSub rd rs s
  | .mul rd rs => Sys2Proof.Machine.execMul rd rs s
  | .div rd rs => Sys2Proof.Machine.execDiv rd rs s
  | .rr rd rs => Sys2Proof.Machine.execRr rd rs s
  | .rl rd rs => Sys2Proof.Machine.execRl rd rs s
  | .fadd rd rs => Sys2Proof.Machine.execFadd rd rs s
  | .fsub rd rs => Sys2Proof.Machine.execFsub rd rs s
  | .fmul rd rs => Sys2Proof.Machine.execFmul rd rs s
  | .fdiv rd rs => Sys2Proof.Machine.execFdiv rd rs s
  | .exch rd rs => Sys2Proof.Machine.execExch rd rs s
  | .xori rd imm => Sys2Proof.Machine.execXori rd imm s
  | .addi rd imm => Sys2Proof.Machine.execAddi rd imm s
  | .subi rd imm => Sys2Proof.Machine.execSubi rd imm s
  | .muli rd imm => Sys2Proof.Machine.execMuli rd imm s
  | .divi rd imm => Sys2Proof.Machine.execDivi rd imm s
  | .rri rd imm => Sys2Proof.Machine.execRri rd imm s
  | .rli rd imm => Sys2Proof.Machine.execRli rd imm s
  | .faddi rd imm => Sys2Proof.Machine.execFaddi rd imm s
  | .fsubi rd imm => Sys2Proof.Machine.execFsubi rd imm s
  | .fmuli rd imm => Sys2Proof.Machine.execFmuli rd imm s
  | .fdivi rd imm => Sys2Proof.Machine.execFdivi rd imm s
  | .mexch rd rs off => Sys2Proof.Machine.execMexch rd rs off s
  | .del rd => Sys2Proof.Machine.execDel rd s
  | .mdel rs off => Sys2Proof.Machine.execMdel rs off s
  | .cswap ra rb rc => Sys2Proof.Machine.execCswap ra rb rc s
  | .cswapi ra rb imm => Sys2Proof.Machine.execCswapi ra rb imm s
  | .blt ra rb off => Sys2Proof.Machine.execBlt ra rb off s
  | .bltu ra rb off => Sys2Proof.Machine.execBltu ra rb off s
  | .bge ra rb off => Sys2Proof.Machine.execBge ra rb off s
  | .bgeu ra rb off => Sys2Proof.Machine.execBgeu ra rb off s
  | .beq ra rb off => Sys2Proof.Machine.execBeq ra rb off s
  | .bne ra rb off => Sys2Proof.Machine.execBne ra rb off s
  | .bevn rd off => Sys2Proof.Machine.execBevn rd off s
  | .bodd rd off => Sys2Proof.Machine.execBodd rd off s
  | .swb rd => Sys2Proof.Machine.execSwb rd s
  | .rswb rd => Sys2Proof.Machine.execRswb rd s
  | .vxor vd vs => Sys2Proof.Machine.execVxor vd vs s
  | .vneg vd => Sys2Proof.Machine.execVneg vd s
  | .vadd vd vs => Sys2Proof.Machine.execVadd vd vs s
  | .vsub vd vs => Sys2Proof.Machine.execVsub vd vs s
  | .vmul vd vs => Sys2Proof.Machine.execVmul vd vs s
  | .vdiv vd vs => Sys2Proof.Machine.execVdiv vd vs s
  | .vrr vd vs => Sys2Proof.Machine.execVrr vd vs s
  | .vrl vd vs => Sys2Proof.Machine.execVrl vd vs s
  | .vfadd vd vs => Sys2Proof.Machine.execVfadd vd vs s
  | .vfsub vd vs => Sys2Proof.Machine.execVfsub vd vs s
  | .vfmul vd vs => Sys2Proof.Machine.execVfmul vd vs s
  | .vfdiv vd vs => Sys2Proof.Machine.execVfdiv vd vs s
  | .vexch vd vs => Sys2Proof.Machine.execVexch vd vs s
  | .vxori vd imm => Sys2Proof.Machine.execVxori vd imm s
  | .vaddi vd imm => Sys2Proof.Machine.execVaddi vd imm s
  | .vsubi vd imm => Sys2Proof.Machine.execVsubi vd imm s
  | .vmuli vd imm => Sys2Proof.Machine.execVmuli vd imm s
  | .vdivi vd imm => Sys2Proof.Machine.execVdivi vd imm s
  | .vrri vd imm => Sys2Proof.Machine.execVrri vd imm s
  | .vrli vd imm => Sys2Proof.Machine.execVrli vd imm s
  | .vfaddi vd imm => Sys2Proof.Machine.execVfaddi vd imm s
  | .vfsubi vd imm => Sys2Proof.Machine.execVfsubi vd imm s
  | .vfmuli vd imm => Sys2Proof.Machine.execVfmuli vd imm s
  | .vfdivi vd imm => Sys2Proof.Machine.execVfdivi vd imm s
  | .vmexch vd rs off => Sys2Proof.Machine.execVmexch vd rs off s
  | .vdel vd => Sys2Proof.Machine.execVdel vd s
  | .vmdel rs off => Sys2Proof.Machine.execVmdel rs off s
  | .vcswap va vb vc => Sys2Proof.Machine.execVcswap va vb vc s
  | .vcswapi va vb imm => Sys2Proof.Machine.execVcswapi va vb imm s

end Sys2Proof.Machine
end

