-- ==== Sys2Proof/Machine/Step.lean ====
section
/-! DEFINITION. One step (spec/47_sequencer.md R286), and the host's placing of a word where the step fetches. -/

namespace Sys2Proof.Machine

/-- `Step(S)` (R286): fetch, decode, the instruction's body, the sequencer's update. A fetch or decode error is
raised in the state before the step. A halted machine and one in error have no transition (R288, R306). -/
def step (s : State) : Host.Outcome State Fault Refusal :=
  match s.status with
  | .halted => .fault .halted
  | .error k => .fault (.terminated k)
  | .running =>
    match fetchInstr s with
    | .ok i => finishStep (exec i s)
    | .error k => raise k s

/-- `s` with a table row's word in the memory word at `pc` (R281). It stands for the load that Init does
(log entry 6). -/
def State.withFetchWord (s : State) (nbits w : Nat) : State :=
  { s with mem := s.mem.write s.pc.toNat (tableWord nbits w) }

end Sys2Proof.Machine
end

