-- ==== Sys2Proof/Machine/HostInterface.lean ====
section
/-! DEFINITION. The host interface (spec/47_sequencer.md R287 to R294): Init, Run and ReadOut. -/

namespace Sys2Proof.Machine

/-- The words of the program image from index `a` on, written into memory (R40). -/
def loadImage : List Word → Nat → Memory → Memory
  | [], _, m => m
  | w :: ws, a, m => loadImage ws (a + 1) (m.write a w)

/-- `Init(program, P, MB)` (R290), with `P` the length of the program: the reset state with the image at index 0
(R332). A program that is too large gives `status = error(ProgramTooLarge)` (R301), with every other field as at
reset (log entry 4); an `MB` that R7 excludes is refused. -/
def init (program : List Word) (mb : Nat) : Host.Outcome State Fault Refusal :=
  let cfg : Config := { mb := mb }
  if cfg.legal then
    if cfg.gBase < program.length then raise .programTooLarge { State.reset with cfg := cfg }
    else .next { State.reset with cfg := cfg, mem := loadImage program 0 { cells := [] } }
  else .refused .megabytesOutOfRange

/-- `Run` (R287, R291) under a step budget, which is the executor's and no state of the machine (R294): steps are
applied while the status is running; at the end of the run the state stays (R288). -/
def runFor : Nat → State → Host.Outcome State Fault Refusal
  | 0, s => .next s
  | n + 1, s =>
    match s.status with
    | .running =>
      match step s with
      | .next t => runFor n t
      | .fault r => .fault r
      | .refused r => .refused r
    | _ => .next s

/-- What the host receives at the end of a run (R292): the status codes and the memory image; no image when
Init failed (R301). -/
structure ReadOut where
  stateCode : BitVec 2
  causeCode : BitVec 3
  mem : Option Memory
  deriving DecidableEq, Repr

/-- `ReadOut` (R292): nothing while the machine runs, for no partial result is exposed. -/
def readOut (s : State) : Option ReadOut :=
  match s.status with
  | .running => none
  | .error .programTooLarge =>
    some { stateCode := s.status.stateCode, causeCode := s.status.causeCode, mem := none }
  | _ => some { stateCode := s.status.stateCode, causeCode := s.status.causeCode, mem := some s.mem }

end Sys2Proof.Machine
end

