-- ==== Sys2Proof/Safety.lean ====
section
/-! DEFINITION. The terms in which the claims are stated: the invariant of a step boundary, the tables of
spec/10_state.md R43 and spec/60_exceptions.md R300, the opcode table, the values of binary32 data, the abstract
garbage stack, and which instructions undo themselves. -/

namespace Sys2Proof

/-! ### Instructions by opcode, function and name -/

/-- The opcode of an instruction (R88, R89). -/
def Instr.opcode (i : Instr) : Opcode :=
  match i with
  | .halt => .halt
  | .xor _ _ => .special
  | .neg _ => .special
  | .add _ _ => .special
  | .sub _ _ => .special
  | .mul _ _ => .special
  | .div _ _ => .special
  | .rr _ _ => .special
  | .rl _ _ => .special
  | .fadd _ _ => .special
  | .fsub _ _ => .special
  | .fmul _ _ => .special
  | .fdiv _ _ => .special
  | .exch _ _ => .exch
  | .xori _ _ => .imm
  | .addi _ _ => .imm
  | .subi _ _ => .imm
  | .muli _ _ => .imm
  | .divi _ _ => .imm
  | .rri _ _ => .imm
  | .rli _ _ => .imm
  | .faddi _ _ => .imm
  | .fsubi _ _ => .imm
  | .fmuli _ _ => .imm
  | .fdivi _ _ => .imm
  | .mexch _ _ _ => .mexch
  | .del _ => .del
  | .mdel _ _ => .mdel
  | .cswap _ _ _ => .cswap
  | .cswapi _ _ _ => .cswapi
  | .blt _ _ _ => .blt
  | .bltu _ _ _ => .bltu
  | .bge _ _ _ => .bge
  | .bgeu _ _ _ => .bgeu
  | .beq _ _ _ => .beq
  | .bne _ _ _ => .bne
  | .bevn _ _ => .bevn
  | .bodd _ _ => .bodd
  | .swb _ => .swb
  | .rswb _ => .rswb
  | .vxor _ _ => .vspecial
  | .vneg _ => .vspecial
  | .vadd _ _ => .vspecial
  | .vsub _ _ => .vspecial
  | .vmul _ _ => .vspecial
  | .vdiv _ _ => .vspecial
  | .vrr _ _ => .vspecial
  | .vrl _ _ => .vspecial
  | .vfadd _ _ => .vspecial
  | .vfsub _ _ => .vspecial
  | .vfmul _ _ => .vspecial
  | .vfdiv _ _ => .vspecial
  | .vexch _ _ => .vexch
  | .vxori _ _ => .vimm
  | .vaddi _ _ => .vimm
  | .vsubi _ _ => .vimm
  | .vmuli _ _ => .vimm
  | .vdivi _ _ => .vimm
  | .vrri _ _ => .vimm
  | .vrli _ _ => .vimm
  | .vfaddi _ _ => .vimm
  | .vfsubi _ _ => .vimm
  | .vfmuli _ _ => .vimm
  | .vfdivi _ _ => .vimm
  | .vmexch _ _ _ => .vmexch
  | .vdel _ => .vdel
  | .vmdel _ _ => .vmdel
  | .vcswap _ _ _ => .vcswap
  | .vcswapi _ _ _ => .vcswapi

/-- The library function an instruction of a fall-through opcode performs (R89). -/
def Instr.function (i : Instr) : Option Fn :=
  match i with
  | .xor _ _ | .vxor _ _ | .xori _ _ | .vxori _ _ => some .xor
  | .neg _ | .vneg _ => some .neg
  | .add _ _ | .vadd _ _ | .addi _ _ | .vaddi _ _ => some .add
  | .sub _ _ | .vsub _ _ | .subi _ _ | .vsubi _ _ => some .sub
  | .mul _ _ | .vmul _ _ | .muli _ _ | .vmuli _ _ => some .mul
  | .div _ _ | .vdiv _ _ | .divi _ _ | .vdivi _ _ => some .div
  | .rr _ _ | .vrr _ _ | .rri _ _ | .vrri _ _ => some .rr
  | .rl _ _ | .vrl _ _ | .rli _ _ | .vrli _ _ => some .rl
  | .fadd _ _ | .vfadd _ _ | .faddi _ _ | .vfaddi _ _ => some .fadd
  | .fsub _ _ | .vfsub _ _ | .fsubi _ _ | .vfsubi _ _ => some .fsub
  | .fmul _ _ | .vfmul _ _ | .fmuli _ _ | .vfmuli _ _ => some .fmul
  | .fdiv _ _ | .vfdiv _ _ | .fdivi _ _ | .vfdivi _ _ => some .fdiv
  | _ => none

/-- The mnemonic of an instruction (R88, R89). -/
def Instr.mnemonic (i : Instr) : String :=
  match i with
  | .halt => "HALT"
  | .xor _ _ => "XOR"
  | .neg _ => "NEG"
  | .add _ _ => "ADD"
  | .sub _ _ => "SUB"
  | .mul _ _ => "MUL"
  | .div _ _ => "DIV"
  | .rr _ _ => "RR"
  | .rl _ _ => "RL"
  | .fadd _ _ => "FADD"
  | .fsub _ _ => "FSUB"
  | .fmul _ _ => "FMUL"
  | .fdiv _ _ => "FDIV"
  | .exch _ _ => "EXCH"
  | .xori _ _ => "XORI"
  | .addi _ _ => "ADDI"
  | .subi _ _ => "SUBI"
  | .muli _ _ => "MULI"
  | .divi _ _ => "DIVI"
  | .rri _ _ => "RRI"
  | .rli _ _ => "RLI"
  | .faddi _ _ => "FADDI"
  | .fsubi _ _ => "FSUBI"
  | .fmuli _ _ => "FMULI"
  | .fdivi _ _ => "FDIVI"
  | .mexch _ _ _ => "MEXCH"
  | .del _ => "DEL"
  | .mdel _ _ => "MDEL"
  | .cswap _ _ _ => "CSWAP"
  | .cswapi _ _ _ => "CSWAPI"
  | .blt _ _ _ => "BLT"
  | .bltu _ _ _ => "BLTU"
  | .bge _ _ _ => "BGE"
  | .bgeu _ _ _ => "BGEU"
  | .beq _ _ _ => "BEQ"
  | .bne _ _ _ => "BNE"
  | .bevn _ _ => "BEVN"
  | .bodd _ _ => "BODD"
  | .swb _ => "SWB"
  | .rswb _ => "RSWB"
  | .vxor _ _ => "VXOR"
  | .vneg _ => "VNEG"
  | .vadd _ _ => "VADD"
  | .vsub _ _ => "VSUB"
  | .vmul _ _ => "VMUL"
  | .vdiv _ _ => "VDIV"
  | .vrr _ _ => "VRR"
  | .vrl _ _ => "VRL"
  | .vfadd _ _ => "VFADD"
  | .vfsub _ _ => "VFSUB"
  | .vfmul _ _ => "VFMUL"
  | .vfdiv _ _ => "VFDIV"
  | .vexch _ _ => "VEXCH"
  | .vxori _ _ => "VXORI"
  | .vaddi _ _ => "VADDI"
  | .vsubi _ _ => "VSUBI"
  | .vmuli _ _ => "VMULI"
  | .vdivi _ _ => "VDIVI"
  | .vrri _ _ => "VRRI"
  | .vrli _ _ => "VRLI"
  | .vfaddi _ _ => "VFADDI"
  | .vfsubi _ _ => "VFSUBI"
  | .vfmuli _ _ => "VFMULI"
  | .vfdivi _ _ => "VFDIVI"
  | .vmexch _ _ _ => "VMEXCH"
  | .vdel _ => "VDEL"
  | .vmdel _ _ => "VMDEL"
  | .vcswap _ _ _ => "VCSWAP"
  | .vcswapi _ _ _ => "VCSWAPI"

/-- One row of spec/opcode_table.json: the words of the instruction are those `w` with `w & mask = bits`. -/
structure OpcodeRow where
  mnemonic : String
  mask : Word
  bits : Word
  deriving DecidableEq, Repr

/-- The rows of the scalar opcodes (R96). -/
def scalarRows : List OpcodeRow :=
  [⟨"HALT", 0xFFFFFFFF#32, 0x00000000#32⟩,
   ⟨"XOR", 0x003FFFFF#32, 0x00000001#32⟩,
   ⟨"NEG", 0x07FFFFFF#32, 0x00000041#32⟩,
   ⟨"ADD", 0x003FFFFF#32, 0x00000081#32⟩,
   ⟨"SUB", 0x003FFFFF#32, 0x000000C1#32⟩,
   ⟨"MUL", 0x003FFFFF#32, 0x00000101#32⟩,
   ⟨"DIV", 0x003FFFFF#32, 0x00000141#32⟩,
   ⟨"RR", 0x003FFFFF#32, 0x00000181#32⟩,
   ⟨"RL", 0x003FFFFF#32, 0x000001C1#32⟩,
   ⟨"FADD", 0x003FFFFF#32, 0x00000201#32⟩,
   ⟨"FSUB", 0x003FFFFF#32, 0x00000241#32⟩,
   ⟨"FMUL", 0x003FFFFF#32, 0x00000281#32⟩,
   ⟨"FDIV", 0x003FFFFF#32, 0x000002C1#32⟩,
   ⟨"EXCH", 0x003FFFFF#32, 0x00000002#32⟩,
   ⟨"XORI", 0x000007FF#32, 0x00000003#32⟩,
   ⟨"ADDI", 0x000007FF#32, 0x00000083#32⟩,
   ⟨"SUBI", 0x000007FF#32, 0x000000C3#32⟩,
   ⟨"MULI", 0x000007FF#32, 0x00000103#32⟩,
   ⟨"DIVI", 0x000007FF#32, 0x00000143#32⟩,
   ⟨"RRI", 0x000007FF#32, 0x00000183#32⟩,
   ⟨"RLI", 0x000007FF#32, 0x000001C3#32⟩,
   ⟨"FADDI", 0x000007FF#32, 0x00000203#32⟩,
   ⟨"FSUBI", 0x000007FF#32, 0x00000243#32⟩,
   ⟨"FMULI", 0x000007FF#32, 0x00000283#32⟩,
   ⟨"FDIVI", 0x000007FF#32, 0x000002C3#32⟩,
   ⟨"MEXCH", 0x0000003F#32, 0x00000004#32⟩,
   ⟨"DEL", 0x07FFFFFF#32, 0x00000005#32⟩,
   ⟨"MDEL", 0xF800003F#32, 0x00000006#32⟩,
   ⟨"CSWAP", 0x0001FFFF#32, 0x00000007#32⟩,
   ⟨"CSWAPI", 0x0000003F#32, 0x00000008#32⟩,
   ⟨"BLT", 0x0000003F#32, 0x00000010#32⟩,
   ⟨"BLTU", 0x0000003F#32, 0x00000011#32⟩,
   ⟨"BGE", 0x0000003F#32, 0x00000012#32⟩,
   ⟨"BGEU", 0x0000003F#32, 0x00000013#32⟩,
   ⟨"BEQ", 0x0000003F#32, 0x00000014#32⟩,
   ⟨"BNE", 0x0000003F#32, 0x00000015#32⟩,
   ⟨"BEVN", 0x000007FF#32, 0x00000016#32⟩,
   ⟨"BODD", 0x000007FF#32, 0x00000017#32⟩,
   ⟨"SWB", 0x07FFFFFF#32, 0x00000018#32⟩,
   ⟨"RSWB", 0x07FFFFFF#32, 0x00000019#32⟩]

/-- The rows of the vector opcodes (R96). -/
def vectorRows : List OpcodeRow :=
  [⟨"VXOR", 0x003FFFFF#32, 0x00000021#32⟩,
   ⟨"VNEG", 0x07FFFFFF#32, 0x00000061#32⟩,
   ⟨"VADD", 0x003FFFFF#32, 0x000000A1#32⟩,
   ⟨"VSUB", 0x003FFFFF#32, 0x000000E1#32⟩,
   ⟨"VMUL", 0x003FFFFF#32, 0x00000121#32⟩,
   ⟨"VDIV", 0x003FFFFF#32, 0x00000161#32⟩,
   ⟨"VRR", 0x003FFFFF#32, 0x000001A1#32⟩,
   ⟨"VRL", 0x003FFFFF#32, 0x000001E1#32⟩,
   ⟨"VFADD", 0x003FFFFF#32, 0x00000221#32⟩,
   ⟨"VFSUB", 0x003FFFFF#32, 0x00000261#32⟩,
   ⟨"VFMUL", 0x003FFFFF#32, 0x000002A1#32⟩,
   ⟨"VFDIV", 0x003FFFFF#32, 0x000002E1#32⟩,
   ⟨"VEXCH", 0x003FFFFF#32, 0x00000022#32⟩,
   ⟨"VXORI", 0x000007FF#32, 0x00000023#32⟩,
   ⟨"VADDI", 0x000007FF#32, 0x000000A3#32⟩,
   ⟨"VSUBI", 0x000007FF#32, 0x000000E3#32⟩,
   ⟨"VMULI", 0x000007FF#32, 0x00000123#32⟩,
   ⟨"VDIVI", 0x000007FF#32, 0x00000163#32⟩,
   ⟨"VRRI", 0x000007FF#32, 0x000001A3#32⟩,
   ⟨"VRLI", 0x000007FF#32, 0x000001E3#32⟩,
   ⟨"VFADDI", 0x000007FF#32, 0x00000223#32⟩,
   ⟨"VFSUBI", 0x000007FF#32, 0x00000263#32⟩,
   ⟨"VFMULI", 0x000007FF#32, 0x000002A3#32⟩,
   ⟨"VFDIVI", 0x000007FF#32, 0x000002E3#32⟩,
   ⟨"VMEXCH", 0x0000003F#32, 0x00000024#32⟩,
   ⟨"VDEL", 0x07FFFFFF#32, 0x00000025#32⟩,
   ⟨"VMDEL", 0xF800003F#32, 0x00000026#32⟩,
   ⟨"VCSWAP", 0x0001FFFF#32, 0x00000027#32⟩,
   ⟨"VCSWAPI", 0x0000003F#32, 0x00000028#32⟩]

/-- The 69 rows (R96, R118). -/
def opcodeRows : List OpcodeRow := scalarRows ++ vectorRows

/-- The instruction's word is `w`, the decoder reads it back, and `w` matches the row's mask and bits. -/
def Encodes (i : Instr) (w mask bits : Word) : Prop :=
  encode i = w ∧ decode w = .ok i ∧ w &&& mask = bits

/-! ### Who writes what, who raises what -/

/-- The opcodes that R43 lists as writing the scalar file. -/
def Opcode.writesX (o : Opcode) : Bool :=
  o ∈ [.special, .imm, .cswap, .cswapi, .exch, .mexch, .del, .swb, .rswb]

/-- The opcodes that R43 lists as writing the vector file; R25 lists the same as reading it. -/
def Opcode.usesV (o : Opcode) : Bool :=
  o ∈ [.vspecial, .vimm, .vcswap, .vcswapi, .vexch, .vmexch, .vdel]

/-- The opcodes that R43 lists as writing memory; R39 lists the same as reaching it. -/
def Opcode.usesMem (o : Opcode) : Bool :=
  o ∈ [.mexch, .vmexch, .del, .mdel, .vdel, .vmdel]

/-- The opcodes that R43 lists as writing `gsp`. -/
def Opcode.usesGsp (o : Opcode) : Bool :=
  o ∈ [.del, .mdel, .vdel, .vmdel]

/-- The opcodes that R43 lists as writing `br`. -/
def Opcode.writesBr (o : Opcode) : Bool :=
  o ∈ [.blt, .bltu, .bge, .bgeu, .beq, .bne, .bevn, .bodd, .swb, .rswb]

/-- The opcodes that form an address from a base register (R51). -/
def Opcode.usesBase (o : Opcode) : Bool :=
  o ∈ [.mexch, .vmexch, .mdel, .vmdel]

/-- The opcodes that read or write a scalar register (R22). -/
def Opcode.usesX (o : Opcode) : Bool := o.writesX || o.writesBr || o.usesBase

namespace Machine

/-- One of two things, by the direction bit (R16). -/
def Direction.pick {α : Type} (d : Direction) (forward backward : α) : α :=
  match d with
  | .forward => forward
  | .backward => backward

/-- The functions whose result may not exist (R130). -/
def Fn.canFault (f : Fn) : Bool := f ∈ [.div, .fadd, .fsub, .fmul, .fdiv]

/-- Which instruction can raise which kind, in a direction (R300, columns "raised by"; R308). -/
def mayRaise (d : Direction) (i : Instr) (k : ErrorKind) : Bool :=
  match k with
  | .garbageOverflow => i.opcode.usesGsp && decide (d = .forward)
  | .garbageUnderflow => i.opcode.usesGsp && decide (d = .backward)
  | .addressOutOfBounds => i.opcode.usesBase
  | .arithmeticFault =>
    match i.function with
    | some f => Fn.canFault (fnInDirection d f)
    | none => false
  | .programTooLarge => false
  | .illegalInstruction => false

/-! ### The invariant of a step boundary -/

/-- What holds at reset and after every step: `MB` is legal (R7), memory is canonical and inside `0 .. W-1` (R37),
`0 <= gsp <= G_SIZE` (R57) and `br = 0` (R31). -/
def State.Inv (s : State) : Prop :=
  s.cfg.legal = true ∧ s.mem.wf = true ∧ s.mem.within s.cfg.words = true ∧ s.gsp ≤ s.cfg.gSize ∧ s.br = 0#32

/-- The run has ended (R288). -/
def State.ended (s : State) : Prop := s.status ≠ .running

/-! ### Integer division -/

/-- The two cases in which an integer division has no result (R138). -/
def noQuotient (a b : Word) : Prop := b = 0#32 ∨ (a = 0x80000000#32 ∧ b = 0xFFFFFFFF#32)

/-! ### Rotation by the shift form of R140 -/

/-- `(a >> k) | (a << (32 - k))`. -/
def shiftRight (a : Word) (k : Nat) : Word := (a >>> k) ||| (a <<< (32 - k))

/-- `(a << k) | (a >> (32 - k))`. -/
def shiftLeft (a : Word) (k : Nat) : Word := (a <<< k) ||| (a >>> (32 - k))

/-! ### The values of binary32 data -/

/-- The rational number a finite datum stands for. -/
def FloatVal.value (v : FloatVal) : ℚ := (signedSig v : ℚ) * (2 : ℚ) ^ v.exp

/-- A finite binary32 datum: 24 significand bits, the leading one set unless the exponent is the least (R142). -/
def FloatVal.isDatum (v : FloatVal) : Prop :=
  v.sig < 2 ^ 24 ∧ -149 ≤ v.exp ∧ v.exp ≤ 104 ∧ (2 ^ 23 ≤ v.sig ∨ v.exp = -149)

/-- `v` is the finite datum nearest to `q`, the one with the even significand when two are equally near. -/
def NearestEven (q : ℚ) (v : FloatVal) : Prop :=
  v.isDatum ∧ ∀ u : FloatVal, u.isDatum →
    |v.value - q| ≤ |u.value - q| ∧
      (|u.value - q| = |v.value - q| → u.value = v.value ∨ v.sig % 2 = 0)

/-- The integer that discarding the fraction of `q` leaves (R144). -/
def truncateQ (q : ℚ) : Int := if 0 ≤ q then ⌊q⌋ else ⌈q⌉

/-- The integer is a signed 32-bit value (R144). -/
def fitsWord (t : Int) : Prop := -2147483648 ≤ t ∧ t ≤ 2147483647

/-- A scalar float instruction on `rd` with second operand `b`: the binary32 result of the direction's operation,
its fraction discarded, goes to `x[rd]`, or faults when it does not fit (R144, R145, R160). -/
def ScalarFloat (i : Instr) (rd : XReg) (b : Word) (forward backward : Binary32 → Binary32 → Binary32)
    (s : State) : Prop :=
  ∀ r : FloatVal, s.dir.pick forward backward (i2f (s.getX rd)) (i2f b) = .fin r →
    (fitsWord (truncateQ r.value) →
      exec i s = .next { s with x := s.x.set rd.toNat (wrap32 (truncateQ r.value)) rd.isLt }) ∧
    (¬ fitsWord (truncateQ r.value) → exec i s = .next { s with status := .error .arithmeticFault })

/-- A vector float instruction, lane by lane; one faulting lane faults the instruction and no lane is written
(R200 to R202). -/
def VectorFloat (i : Instr) (vd : VReg) (b : Lane → Word) (forward backward : Binary32 → Binary32 → Binary32)
    (s : State) : Prop :=
  ∀ r : Lane → FloatVal, (∀ l, s.dir.pick forward backward (i2f (s.getLane vd l)) (i2f (b l)) = .fin (r l)) →
    ((∀ l, fitsWord (truncateQ (r l).value)) →
      exec i s = .next { s with
        v := s.v.set vd.toNat (Vector.ofFn fun l : Lane => wrap32 (truncateQ (r l).value)) vd.isLt }) ∧
    ((∃ l, ¬ fitsWord (truncateQ (r l).value)) → exec i s = .next { s with status := .error .arithmeticFault })

/-! ### Branches -/

/-- A branch whose condition holds accumulates its offset, added forward and subtracted backward; one whose condition
does not hold writes nothing (R240). -/
def BranchesWhen (i : Instr) (cond : Prop) (off : Imm16) (s : State) : Prop :=
  (cond → exec i s = .next { s with
    br := s.dir.pick (s.br + off.signExtend 32) (s.br - off.signExtend 32) }) ∧
  (¬ cond → exec i s = .next s)

/-- The offset and the condition of a branch, `none` for any other instruction (R243 to R250). -/
def branchCase (i : Instr) (s : State) : Option (Imm16 × Bool) :=
  match i with
  | .blt ra rb off => some (off, decide ((s.getX ra).toInt < (s.getX rb).toInt))
  | .bltu ra rb off => some (off, decide ((s.getX ra).toNat < (s.getX rb).toNat))
  | .bge ra rb off => some (off, decide ((s.getX ra).toInt ≥ (s.getX rb).toInt))
  | .bgeu ra rb off => some (off, decide ((s.getX ra).toNat ≥ (s.getX rb).toNat))
  | .beq ra rb off => some (off, decide (s.getX ra = s.getX rb))
  | .bne ra rb off => some (off, decide (s.getX ra ≠ s.getX rb))
  | .bevn rd off => some (off, decide ((s.getX rd).toNat % 2 = 0))
  | .bodd rd off => some (off, decide ((s.getX rd).toNat % 2 = 1))
  | _ => none

/-- `s` runs and its next step fetches the instruction `i` (R281, R282). -/
def Fetches (s : State) (i : Instr) : Prop :=
  s.status = .running ∧ s.pc.toNat < s.cfg.words ∧ decode (s.mem.read s.pc.toNat) = .ok i

/-! ### The abstract garbage stack -/

/-- The values held, the newest first (R56). -/
def State.held (s : State) : List Word :=
  ((List.range s.gsp).map fun k => s.mem.read (slotIndex s.cfg k)).reverse

/-- A call of one of the two garbage-stack primitives. -/
inductive StackOp where
  | push (w : Word)
  | pop
  deriving DecidableEq, Repr

/-- A sequence of calls on the machine: the values popped, in order, and the state after. -/
def stackRun : List StackOp → State → Except ErrorKind (List Word × State)
  | [], s => .ok ([], s)
  | .push w :: ops, s => do
    let t ← pushGarbage w s
    stackRun ops t
  | .pop :: ops, s => do
    let (w, t) ← popGarbage s
    let (ws, u) ← stackRun ops t
    pure (w :: ws, u)

/-- The same sequence on a list, the newest value first; `none` when it underflows. -/
def listRun : List StackOp → List Word → Option (List Word × List Word)
  | [], st => some ([], st)
  | .push w :: ops, st => listRun ops (w :: st)
  | .pop :: _, [] => none
  | .pop :: ops, w :: st =>
    match listRun ops st with
    | some (ws, st') => some (w :: ws, st')
    | none => none

/-- No push of the sequence meets a full stack, from `n` values held and with `cap` slots (R58). -/
def roomForPushes (cap : Nat) : List StackOp → Nat → Bool
  | [], _ => true
  | .push _ :: ops, n => decide (n < cap) && roomForPushes cap ops (n + 1)
  | .pop :: ops, n => roomForPushes cap ops (n - 1)

/-! ### The block operations on memory as a function from index to word (R67) -/

/-- `t <- mem[a]; mem[a] <- 0; mem[b] <- t`, in this order. -/
def moveWord (a b : Nat) (f : Nat → Word) : Nat → Word :=
  Function.update (Function.update f a 0#32) b (f a)

/-- The memory after the moves of the lanes `ls`, in their order, lane `l` from `src l` to `dst l`. -/
def moveLanes (src dst : Lane → Nat) (ls : List Lane) (f : Nat → Word) : Nat → Word :=
  ls.foldl (fun g l => moveWord (src l) (dst l) g) f

/-! ### Instructions that undo themselves -/

/-- Instructions whose second execution restores the state, both directions alike: the involutions (R150) and the
exchanges (R260), no second operand or base register being written (R187, R263). -/
def selfInverse (i : Instr) : Bool :=
  match i with
  | .xor rd rs => decide (rd ≠ rs)
  | .vxor vd vs => decide (vd ≠ vs)
  | .neg _ | .vneg _ | .xori _ _ | .vxori _ _ => true
  | .cswap ra rb rc => decide (rc ≠ ra) && decide (rc ≠ rb)
  | .vcswap va vb vc => decide (vc ≠ va) && decide (vc ≠ vb)
  | .cswapi _ _ _ | .vcswapi _ _ _ => true
  | .exch _ _ | .vexch _ _ | .vmexch _ _ _ => true
  | .mexch rd rs _ => decide (rd ≠ rs)
  | .swb _ | .rswb _ => true
  | _ => false

/-- Instructions whose backward body undoes their forward body and the other way round, for all operands: add and
subtract, the rotates (R151), the branches on the branch register (R240), the second operand unwritten (R187). -/
def pairInverse (i : Instr) : Bool :=
  match i with
  | .add rd rs | .sub rd rs | .rr rd rs | .rl rd rs => decide (rd ≠ rs)
  | .vadd vd vs | .vsub vd vs | .vrr vd vs | .vrl vd vs => decide (vd ≠ vs)
  | .addi _ _ | .subi _ _ | .rri _ _ | .rli _ _ => true
  | .vaddi _ _ | .vsubi _ _ | .vrri _ _ | .vrli _ _ => true
  | .blt _ _ _ | .bltu _ _ _ | .bge _ _ _ | .bgeu _ _ _ | .beq _ _ _ | .bne _ _ _ => true
  | .bevn _ _ | .bodd _ _ => true
  | _ => false

/-- The source of a delete is memory outside the slots it pushes to, `n` words from `ea` (R336). -/
def blockAvoidsSlots (ea : Int) (n : Nat) (s : State) : Prop :=
  ∀ j < n, ∀ k < n, ea + (j : Int) ≠ (slotIndex s.cfg (s.gsp + k) : Int)

/-- How many values a delete moves (R270). -/
def deleteSize (i : Instr) : Nat :=
  match i with
  | .del _ | .mdel _ _ => 1
  | .vdel _ | .vmdel _ _ => 32
  | _ => 0

/-- The source of a delete is none of the slots it uses (R336); a register never is one. -/
def sourceAvoidsSlots (i : Instr) (s : State) : Prop :=
  match i with
  | .mdel rs off => blockAvoidsSlots (effectiveAddress rs off s) 1 s
  | .vmdel rs off => blockAvoidsSlots (effectiveAddress rs off s) 32 s
  | _ => True

end Machine

end Sys2Proof
end

