-- ==== Sys2Proof/Certificates/Slice0/Obligations.lean ====
section
/-! DEFINITION. The statements for the provers, in the order of OBLIGATIONS.json. A result is stated as the whole next
state: what the record update does not name is unchanged. -/

open Sys2Proof Sys2Proof.Machine

/-- The sizes that follow from MB, and its range. (R6, R7) -/
def Obligations.ConfigurationSizes : Prop :=
  ∀ c : Config,
    (c.legal = true ↔ 1 ≤ c.mb ∧ c.mb ≤ 8589) ∧
    (c.legal = true ↔ 1 ≤ c.mb ∧ c.words ≤ 2 ^ 31 - 1) ∧
    c.words = c.mb * 1000000 / 4 ∧ c.words * 4 = c.mb * 1000000 ∧
    c.gSize = c.words / 8 ∧ c.gSize * 8 = c.words ∧
    c.gBase = c.words - c.gSize ∧ c.gBase = 7 * c.words / 8

/-- The four encoders place their fields as R97 writes them. (R97) -/
def Obligations.EncodersShiftAndOr : Prop :=
  (∀ (op : BitVec 6) (rd rs : BitVec 5) (f16 : BitVec 16),
    (encR op rd rs f16).toNat = (rd.toNat <<< 27) ||| (rs.toNat <<< 22) ||| (f16.toNat <<< 6) ||| op.toNat) ∧
  (∀ (op : BitVec 6) (rd : BitVec 5) (imm16 : BitVec 16) (func5 : BitVec 5),
    (encI op rd imm16 func5).toNat =
      (rd.toNat <<< 27) ||| (imm16.toNat <<< 11) ||| (func5.toNat <<< 6) ||| op.toNat) ∧
  (∀ (op : BitVec 6) (ra rb rc : BitVec 5) (func11 : BitVec 11),
    (encR3 op ra rb rc func11).toNat =
      (ra.toNat <<< 27) ||| (rb.toNat <<< 22) ||| (rc.toNat <<< 17) ||| (func11.toNat <<< 6) ||| op.toNat) ∧
  (∀ (op : BitVec 6) (ra rb : BitVec 5) (imm16 : BitVec 16),
    (encB op ra rb imm16).toNat =
      (ra.toNat <<< 27) ||| (rb.toNat <<< 22) ||| (imm16.toNat <<< 6) ||| op.toNat) ∧
  encode (.addi 5 7) = 0x28003883#32

/-- The decoder reads every encoded instruction back. -/
def Obligations.EncodedInstructionDecodesBack : Prop :=
  ∀ i : Instr, decode (encode i) = .ok i

/-- A word the decoder accepts is the encoding of the instruction it gives. -/
def Obligations.DecodedWordReencodes : Prop :=
  ∀ (w : Word) (i : Instr), decode w = .ok i → encode i = w

/-- The illegal words are exactly those of R93, and executing one raises IllegalInstruction. (R93) -/
def Obligations.IllegalWordsExactlyAsListed : Prop :=
  (∀ w : Word, illegalWord w = true ↔ ∃ e, decode w = .error e) ∧
  (∀ s : State, s.status = .running → s.pc.toNat < s.cfg.words →
    illegalWord (s.mem.read s.pc.toNat) = true →
    step s = .next { s with status := .error .illegalInstruction })

/-- Every word is illegal or exactly one of the 69 instructions, and the opcode table says which. (R118) -/
def Obligations.MatchAndMaskSelectOneInstruction : Prop :=
  opcodeRows.length = 69 ∧
  (∀ (w : Word) (r : OpcodeRow), r ∈ opcodeRows →
    (w &&& r.mask = r.bits ↔ ∃ i, decode w = .ok i ∧ i.mnemonic = r.mnemonic)) ∧
  (∀ (w : Word) (r q : OpcodeRow), r ∈ opcodeRows → q ∈ opcodeRows →
    w &&& r.mask = r.bits → w &&& q.mask = q.bits → r = q) ∧
  (∀ w : Word, (∃ e, decode w = .error e) ∨ ∃ r ∈ opcodeRows, w &&& r.mask = r.bits) ∧
  (∀ i : Instr, illegalWord (encode i) = false ∧ decode (encode i) = .ok i)

/-- The worked decodes of R120, and one written word of each remaining family. (R120) -/
def Obligations.WorkedDecodes : Prop :=
  (decodeRecord 0x28003883#32 =
    { layout := .I, opcode := 0x03#6, funcValid := true, func := 2, immFlag := true, vec := false,
      ra := 5, rb := 0, rc := 0, imm := 7#32, op := .ok (.addi 5 7) }) ∧
  (decodeRecord 0x190000A1#32 =
    { layout := .R, opcode := 0x21#6, funcValid := true, func := 2, immFlag := false, vec := true,
      ra := 3, rb := 4, rc := 0, imm := 0#32, op := .ok (.vadd 3 4) }) ∧
  decode 0x00000000#32 = .ok .halt ∧
  decode 0x00000040#32 = .error .reservedField ∧
  decode 0x0000003F#32 = .error .unassignedOpcode ∧
  decode 0x190A0007#32 = .ok (.cswap 3 4 5) ∧
  decode 0x193FFFC8#32 = .ok (.cswapi 3 4 0xFFFF) ∧
  decode 0x10FFFF92#32 = .ok (.bge 2 3 0xFFFE) ∧
  decode 0x17FFE817#32 = .ok (.bodd 2 0xFFFD) ∧
  decode 0x10000019#32 = .ok (.rswb 2) ∧
  decode 0x293FFF84#32 = .ok (.mexch 5 4 0xFFFE) ∧
  decode 0x01000086#32 = .ok (.mdel 4 2) ∧
  decode 0x100028A3#32 = .ok (.vaddi 2 5) ∧
  decode 0x010000A6#32 = .ok (.vmdel 4 2)

/-- imm_flag is set exactly for the opcodes of R115, and imm is the sign-extended field. (R115) -/
def Obligations.ImmediateFlagAndValue : Prop :=
  ∀ w : Word,
    ((decodeRecord w).immFlag = true ↔
      w.extractLsb' 0 6 ∈ ([0x03, 0x23, 0x04, 0x24, 0x06, 0x26, 0x08, 0x28,
        0x10, 0x11, 0x12, 0x13, 0x14, 0x15, 0x16, 0x17] : List (BitVec 6))) ∧
    (w.extractLsb' 0 6 ∈ ([0x03, 0x23, 0x16, 0x17] : List (BitVec 6)) →
      (decodeRecord w).imm = (w.extractLsb' 11 16).signExtend 32) ∧
    (w.extractLsb' 0 6 ∈ ([0x04, 0x24, 0x06, 0x26, 0x08, 0x28, 0x10, 0x11, 0x12, 0x13, 0x14, 0x15] :
        List (BitVec 6)) →
      (decodeRecord w).imm = (w.extractLsb' 6 16).signExtend 32) ∧
    ((decodeRecord w).immFlag = false → (decodeRecord w).imm = 0#32)

/-- Xor, negate, add, subtract and multiply modulo 2^32. (R133, R134, R135, R136, R137) -/
def Obligations.IntegerFunctionsWrap : Prop :=
  ∀ a b : Word,
    (applyFn .xor a b = .ok (fnXor a b) ∧ (∀ i < 32, (fnXor a b).getLsbD i = (a.getLsbD i ^^ b.getLsbD i)) ∧
      fnXor (fnXor a b) b = a ∧ fnXor a a = 0#32) ∧
    (applyFn .neg a b = .ok (fnNeg a) ∧ fnNeg a = wrap32 (0 - a.toInt) ∧ fnNeg a = ~~~a + 1#32 ∧
      (fnNeg a = a ↔ a = 0#32 ∨ a = 0x80000000#32) ∧ fnNeg (fnNeg a) = a) ∧
    (applyFn .add a b = .ok (fnAdd a b) ∧ fnAdd a b = wrap32 ((a.toNat : Int) + b.toNat) ∧
      fnAdd a b = wrap32 (a.toInt + b.toInt)) ∧
    (applyFn .sub a b = .ok (fnSub a b) ∧ fnSub a b = wrap32 ((a.toNat : Int) - b.toNat) ∧
      fnSub a b = wrap32 (a.toInt - b.toInt) ∧
      fnSub (fnAdd a b) b = a ∧ fnAdd (fnSub a b) b = a) ∧
    (applyFn .mul a b = .ok (fnMul a b) ∧ fnMul a b = wrap32 (a.toInt * b.toInt) ∧
      fnMul a b = wrap32 ((a.toNat : Int) * b.toNat) ∧ fnMul a 0#32 = 0#32)

/-- Signed division truncates toward zero and faults in its two corner cases. (R138) -/
def Obligations.DivisionTruncatesTowardZero : Prop :=
  ∀ a b : Word,
    (b.toInt = 0 → fnDiv a b = .error .arithmeticFault) ∧
    (a.toInt = -2147483648 → b.toInt = -1 → fnDiv a b = .error .arithmeticFault) ∧
    (b.toInt ≠ 0 → ¬ (a.toInt = -2147483648 ∧ b.toInt = -1) →
      ∃ q : Int, fnDiv a b = .ok (wrap32 q) ∧ q.natAbs = a.toInt.natAbs / b.toInt.natAbs ∧
        (q < 0 ↔ ((a.toInt < 0 ∧ 0 < b.toInt) ∨ (0 < a.toInt ∧ b.toInt < 0)) ∧ q.natAbs ≠ 0) ∧
        ∀ r, fnDiv a b = .ok r → r.toInt = q)

/-- The rotates move every bit by the low five bits of the count. (R140) -/
def Obligations.RotatesMoveEveryBit : Prop :=
  ∀ a n : Word,
    ((n &&& 31#32).toNat = n.toNat % 32 ∧ ((n.toNat % 32 : Nat) : Int) = n.toInt % 32) ∧
    applyFn .rr a n = .ok (fnRr a n) ∧ applyFn .rl a n = .ok (fnRl a n) ∧
    (∀ i < 32, (fnRr a n).getLsbD i = a.getLsbD ((i + n.toNat % 32) % 32)) ∧
    (∀ i < 32, (fnRl a n).getLsbD ((i + n.toNat % 32) % 32) = a.getLsbD i) ∧
    fnRr a n = shiftRight a (n.toNat % 32) ∧ fnRl a n = shiftLeft a (n.toNat % 32) ∧
    fnRl (fnRr a n) n = a ∧ fnRr (fnRl a n) n = a

/-- The conditional swap exchanges the bits under the mask; the involutions are self-inverse. (R141, R150) -/
def Obligations.ConditionalSwapAndInvolutions : Prop :=
  ∀ a b m : Word,
    (fnCswap a b m = (a ^^^ ((a ^^^ b) &&& m), b ^^^ ((a ^^^ b) &&& m))) ∧
    (∀ i < 32, (fnCswap a b m).1.getLsbD i = (if m.getLsbD i then b.getLsbD i else a.getLsbD i) ∧
      (fnCswap a b m).2.getLsbD i = (if m.getLsbD i then a.getLsbD i else b.getLsbD i)) ∧
    fnCswap a b 0xFFFFFFFF#32 = (b, a) ∧ fnCswap a b 0#32 = (a, b) ∧
    fnCswap (fnCswap a b m).1 (fnCswap a b m).2 m = (a, b) ∧
    fnXor (fnXor a b) b = a ∧ fnNeg (fnNeg a) = a

/-- The inverse map of the backward mode, by name and by function code. (R132) -/
def Obligations.BackwardInverseMap : Prop :=
  (invFn .xor = .xor ∧ invFn .neg = .neg ∧ invFn .add = .sub ∧ invFn .sub = .add ∧ invFn .mul = .div ∧
    invFn .div = .mul ∧ invFn .rr = .rl ∧ invFn .rl = .rr ∧ invFn .fadd = .fsub ∧ invFn .fsub = .fadd ∧
    invFn .fmul = .fdiv ∧ invFn .fdiv = .fmul) ∧
  (∀ c f, decodeFunction c = some f →
    decodeFunction (if c.toNat < 2 then c else c ^^^ 1#16) = some (invFn f)) ∧
  (∀ f, fnInDirection .forward f = f ∧ fnInDirection .backward f = invFn f) ∧
  (∀ (ra rb rc : XReg) (s t : State), exec (.cswap ra rb rc) s = .next t →
    exec (.cswap ra rb rc) { s with dir := s.dir.flip } = .next { t with dir := s.dir.flip })

/-- When the paired integer functions undo each other. (R151) -/
def Obligations.PairedIntegerInverses : Prop :=
  ∀ a b : Word,
    (fnSub (fnAdd a b) b = a ∧ fnAdd (fnSub a b) b = a ∧ fnRl (fnRr a b) b = a ∧ fnRr (fnRl a b) b = a) ∧
    (b.toInt ≠ 0 → fitsWord (a.toInt * b.toInt) → fnDiv (fnMul a b) b = .ok a) ∧
    (a.toInt = -2147483648 → b.toInt = -1 → fnDiv (fnMul a b) b ≠ .ok a) ∧
    (∀ q, fnDiv a b = .ok q → (fnMul q b = a ↔ b.toInt ∣ a.toInt))

/-- i2f rounds an integer to the nearest binary32 value, ties to even. (R143) -/
def Obligations.IntegersConvertToNearestBinary32 : Prop :=
  (∀ w : Word, ∃ r : FloatVal, i2f w = .fin r ∧ NearestEven (w.toInt : ℚ) r ∧
    (w.toInt.natAbs ≤ 2 ^ 24 → r.value = (w.toInt : ℚ))) ∧
  i2f 0#32 = .fin { neg := false, sig := 0, exp := -149 }

/-- f2i discards the fraction, and faults when there is no integer result. (R144) -/
def Obligations.FloatsConvertBackByTruncation : Prop :=
  f2i .nan = .error .arithmeticFault ∧
  (∀ n, f2i (.inf n) = .error .arithmeticFault) ∧
  (∀ r : FloatVal,
    (fitsWord (truncateQ r.value) → f2i (.fin r) = .ok (wrap32 (truncateQ r.value))) ∧
    (¬ fitsWord (truncateQ r.value) → f2i (.fin r) = .error .arithmeticFault)) ∧
  (∀ (r : FloatVal) (w : Word), r.isDatum → f2i (.fin r) = .ok w → w.toInt ≤ 2147483520)

/-- The float functions convert, perform one correctly rounded binary32 operation, and truncate back. (R145, R146) -/
def Obligations.FloatOperationsRoundOnce : Prop :=
  ∀ a b : Word,
    (∃ x y r : FloatVal, i2f a = .fin x ∧ i2f b = .fin y ∧ floatAdd (.fin x) (.fin y) = .fin r ∧
      NearestEven (x.value + y.value) r ∧ fnFadd a b = f2i (.fin r) ∧ |x.value + y.value| ≤ 2 ^ 32 ∧
      (r.sig = 0 ∨ 2 ^ 23 ≤ r.sig) ∧ (fnFadd a b = .error .arithmeticFault ↔ ¬ fitsWord (truncateQ r.value))) ∧
    (∃ x y r : FloatVal, i2f a = .fin x ∧ i2f b = .fin y ∧ floatSub (.fin x) (.fin y) = .fin r ∧
      NearestEven (x.value - y.value) r ∧ fnFsub a b = f2i (.fin r) ∧ |x.value - y.value| ≤ 2 ^ 32 ∧
      (r.sig = 0 ∨ 2 ^ 23 ≤ r.sig) ∧ (fnFsub a b = .error .arithmeticFault ↔ ¬ fitsWord (truncateQ r.value))) ∧
    (∃ x y r : FloatVal, i2f a = .fin x ∧ i2f b = .fin y ∧ floatMul (.fin x) (.fin y) = .fin r ∧
      NearestEven (x.value * y.value) r ∧ fnFmul a b = f2i (.fin r) ∧ |x.value * y.value| ≤ 2 ^ 62 ∧
      (r.sig = 0 ∨ 2 ^ 23 ≤ r.sig) ∧ (fnFmul a b = .error .arithmeticFault ↔ ¬ fitsWord (truncateQ r.value))) ∧
    (b ≠ 0#32 → ∃ x y r : FloatVal, i2f a = .fin x ∧ i2f b = .fin y ∧ floatDiv (.fin x) (.fin y) = .fin r ∧
      NearestEven (x.value / y.value) r ∧ fnFdiv a b = f2i (.fin r) ∧
      (x.value / y.value ≠ 0 → (2 : ℚ) ^ (-31 : Int) ≤ |x.value / y.value|) ∧
      (r.sig = 0 ∨ 2 ^ 23 ≤ r.sig) ∧ (fnFdiv a b = .error .arithmeticFault ↔ ¬ fitsWord (truncateQ r.value))) ∧
    fnFdiv a b = f2i (floatDiv (i2f a) (i2f b)) ∧ fnFdiv a 0#32 = .error .arithmeticFault ∧
    (a ≠ 0#32 → ∃ n, floatDiv (i2f a) (i2f 0#32) = .inf n) ∧ floatDiv (i2f 0#32) (i2f 0#32) = .nan ∧
    f2i .nan = .error .arithmeticFault ∧ (∀ n, f2i (.inf n) = .error .arithmeticFault) ∧
    (∀ n, f2i (floatZero n) = .ok 0#32) ∧
    fnFadd 0x7FFFFFFF#32 0#32 = .error .arithmeticFault ∧ fnFmul 65536#32 65536#32 = .error .arithmeticFault

/-- The float pairs are exact within magnitude 2^24. (R152) -/
def Obligations.FloatPairsInvertWithinBounds : Prop :=
  ∀ a b : Word, a.toInt.natAbs ≤ 2 ^ 24 → b.toInt.natAbs ≤ 2 ^ 24 →
    ((a.toInt + b.toInt).natAbs ≤ 2 ^ 24 → fnFadd a b = .ok (a + b) ∧ fnFsub (a + b) b = .ok a) ∧
    (b.toInt ≠ 0 → (a.toInt * b.toInt).natAbs ≤ 2 ^ 24 →
      fnFmul a b = .ok (a * b) ∧ fnFdiv (a * b) b = .ok a)

/-- XOR, NEG, ADD, SUB, RR, RL: encoding, result in both directions, and frame. (R161, R162, R163, R164, R167, R168) -/
def Obligations.ScalarRegisterInteger : Prop :=
  ∀ (rd : XReg) (rs : XReg) (s : State),
    (Encodes (.xor rd rs) (encR 0x01#6 rd rs 0x0000#16) 0x003FFFFF#32 0x00000001#32 ∧
      exec (.xor rd rs) s = .next { s with
        x := s.x.set rd.toNat
          (s.getX rd ^^^ s.getX rs) rd.isLt }) ∧
    (Encodes (.neg rd) (encR 0x01#6 rd 0 0x0001#16) 0x07FFFFFF#32 0x00000041#32 ∧
      exec (.neg rd) s = .next { s with
        x := s.x.set rd.toNat
          (wrap32 (0 - (s.getX rd).toInt)) rd.isLt }) ∧
    (Encodes (.add rd rs) (encR 0x01#6 rd rs 0x0002#16) 0x003FFFFF#32 0x00000081#32 ∧
      exec (.add rd rs) s = .next { s with
        x := s.x.set rd.toNat
          (s.dir.pick (wrap32 (((s.getX rd).toNat : Int) + (s.getX rs).toNat))
            (wrap32 (((s.getX rd).toNat : Int) - (s.getX rs).toNat))) rd.isLt }) ∧
    (Encodes (.sub rd rs) (encR 0x01#6 rd rs 0x0003#16) 0x003FFFFF#32 0x000000C1#32 ∧
      exec (.sub rd rs) s = .next { s with
        x := s.x.set rd.toNat
          (s.dir.pick (wrap32 (((s.getX rd).toNat : Int) - (s.getX rs).toNat))
            (wrap32 (((s.getX rd).toNat : Int) + (s.getX rs).toNat))) rd.isLt }) ∧
    (Encodes (.rr rd rs) (encR 0x01#6 rd rs 0x0006#16) 0x003FFFFF#32 0x00000181#32 ∧
      exec (.rr rd rs) s = .next { s with
        x := s.x.set rd.toNat
          (s.dir.pick (shiftRight (s.getX rd) ((s.getX rs).toNat % 32))
            (shiftLeft (s.getX rd) ((s.getX rs).toNat % 32))) rd.isLt }) ∧
    (Encodes (.rl rd rs) (encR 0x01#6 rd rs 0x0007#16) 0x003FFFFF#32 0x000001C1#32 ∧
      exec (.rl rd rs) s = .next { s with
        x := s.x.set rd.toNat
          (s.dir.pick (shiftLeft (s.getX rd) ((s.getX rs).toNat % 32))
            (shiftRight (s.getX rd) ((s.getX rs).toNat % 32))) rd.isLt })

/-- MUL and DIV: encoding, result, the exact fault condition, and frame. (R165, R166) -/
def Obligations.ScalarRegisterMultiplyDivide : Prop :=
  ∀ (rd : XReg) (rs : XReg) (s : State),
    (Encodes (.mul rd rs) (encR 0x01#6 rd rs 0x0004#16) 0x003FFFFF#32 0x00000101#32 ∧
      (s.dir = .forward → exec (.mul rd rs) s = .next { s with
        x := s.x.set rd.toNat
          (wrap32 ((s.getX rd).toInt * (s.getX rs).toInt)) rd.isLt }) ∧
      (s.dir = .backward → ¬ (noQuotient (s.getX rd) (s.getX rs)) →
        exec (.mul rd rs) s = .next { s with
        x := s.x.set rd.toNat
          (wrap32 ((s.getX rd).toInt.tdiv (s.getX rs).toInt)) rd.isLt }) ∧
      (s.dir = .backward → (noQuotient (s.getX rd) (s.getX rs)) → exec (.mul rd rs) s = .next { s with status := .error .arithmeticFault })) ∧
    (Encodes (.div rd rs) (encR 0x01#6 rd rs 0x0005#16) 0x003FFFFF#32 0x00000141#32 ∧
      (s.dir = .backward → exec (.div rd rs) s = .next { s with
        x := s.x.set rd.toNat
          (wrap32 ((s.getX rd).toInt * (s.getX rs).toInt)) rd.isLt }) ∧
      (s.dir = .forward → ¬ (noQuotient (s.getX rd) (s.getX rs)) →
        exec (.div rd rs) s = .next { s with
        x := s.x.set rd.toNat
          (wrap32 ((s.getX rd).toInt.tdiv (s.getX rs).toInt)) rd.isLt }) ∧
      (s.dir = .forward → (noQuotient (s.getX rd) (s.getX rs)) → exec (.div rd rs) s = .next { s with status := .error .arithmeticFault }))

/-- XORI, ADDI, SUBI, RRI, RLI: encoding, result in both directions, and frame. (R174, R175, R176, R179, R180) -/
def Obligations.ScalarImmediateInteger : Prop :=
  ∀ (rd : XReg) (imm : Imm16) (s : State),
    (Encodes (.xori rd imm) (encI 0x03#6 rd imm 0x00#5) 0x000007FF#32 0x00000003#32 ∧
      exec (.xori rd imm) s = .next { s with
        x := s.x.set rd.toNat
          (s.getX rd ^^^ imm.signExtend 32) rd.isLt }) ∧
    (Encodes (.addi rd imm) (encI 0x03#6 rd imm 0x02#5) 0x000007FF#32 0x00000083#32 ∧
      exec (.addi rd imm) s = .next { s with
        x := s.x.set rd.toNat
          (s.dir.pick (wrap32 (((s.getX rd).toNat : Int) + (imm.signExtend 32).toNat))
            (wrap32 (((s.getX rd).toNat : Int) - (imm.signExtend 32).toNat))) rd.isLt }) ∧
    (Encodes (.subi rd imm) (encI 0x03#6 rd imm 0x03#5) 0x000007FF#32 0x000000C3#32 ∧
      exec (.subi rd imm) s = .next { s with
        x := s.x.set rd.toNat
          (s.dir.pick (wrap32 (((s.getX rd).toNat : Int) - (imm.signExtend 32).toNat))
            (wrap32 (((s.getX rd).toNat : Int) + (imm.signExtend 32).toNat))) rd.isLt }) ∧
    (Encodes (.rri rd imm) (encI 0x03#6 rd imm 0x06#5) 0x000007FF#32 0x00000183#32 ∧
      exec (.rri rd imm) s = .next { s with
        x := s.x.set rd.toNat
          (s.dir.pick (shiftRight (s.getX rd) ((imm.signExtend 32).toNat % 32))
            (shiftLeft (s.getX rd) ((imm.signExtend 32).toNat % 32))) rd.isLt }) ∧
    (Encodes (.rli rd imm) (encI 0x03#6 rd imm 0x07#5) 0x000007FF#32 0x000001C3#32 ∧
      exec (.rli rd imm) s = .next { s with
        x := s.x.set rd.toNat
          (s.dir.pick (shiftLeft (s.getX rd) ((imm.signExtend 32).toNat % 32))
            (shiftRight (s.getX rd) ((imm.signExtend 32).toNat % 32))) rd.isLt })

/-- MULI and DIVI: encoding, result, the exact fault condition, and frame. (R177, R178) -/
def Obligations.ScalarImmediateMultiplyDivide : Prop :=
  ∀ (rd : XReg) (imm : Imm16) (s : State),
    (Encodes (.muli rd imm) (encI 0x03#6 rd imm 0x04#5) 0x000007FF#32 0x00000103#32 ∧
      (s.dir = .forward → exec (.muli rd imm) s = .next { s with
        x := s.x.set rd.toNat
          (wrap32 ((s.getX rd).toInt * (imm.signExtend 32).toInt)) rd.isLt }) ∧
      (s.dir = .backward → ¬ (imm = 0#16 ∨ (imm = 0xFFFF#16 ∧ s.getX rd = 0x80000000#32)) →
        exec (.muli rd imm) s = .next { s with
        x := s.x.set rd.toNat
          (wrap32 ((s.getX rd).toInt.tdiv (imm.signExtend 32).toInt)) rd.isLt }) ∧
      (s.dir = .backward → (imm = 0#16 ∨ (imm = 0xFFFF#16 ∧ s.getX rd = 0x80000000#32)) → exec (.muli rd imm) s = .next { s with status := .error .arithmeticFault })) ∧
    (Encodes (.divi rd imm) (encI 0x03#6 rd imm 0x05#5) 0x000007FF#32 0x00000143#32 ∧
      (s.dir = .backward → exec (.divi rd imm) s = .next { s with
        x := s.x.set rd.toNat
          (wrap32 ((s.getX rd).toInt * (imm.signExtend 32).toInt)) rd.isLt }) ∧
      (s.dir = .forward → ¬ (imm = 0#16 ∨ (imm = 0xFFFF#16 ∧ s.getX rd = 0x80000000#32)) →
        exec (.divi rd imm) s = .next { s with
        x := s.x.set rd.toNat
          (wrap32 ((s.getX rd).toInt.tdiv (imm.signExtend 32).toInt)) rd.isLt }) ∧
      (s.dir = .forward → (imm = 0#16 ∨ (imm = 0xFFFF#16 ∧ s.getX rd = 0x80000000#32)) → exec (.divi rd imm) s = .next { s with status := .error .arithmeticFault }))

/-- The scalar float instructions: encoding, result, faults, and frame. (R169, R170, R171, R172, R181, R182, R183, R184) -/
def Obligations.ScalarFloatInstructions : Prop :=
  ∀ (rd : XReg) (rs : XReg) (imm : Imm16) (s : State),
    (Encodes (.fadd rd rs) (encR 0x01#6 rd rs 0x0008#16) 0x003FFFFF#32 0x00000201#32 ∧
      ScalarFloat (.fadd rd rs) rd (s.getX rs) floatAdd floatSub s) ∧
    (Encodes (.fsub rd rs) (encR 0x01#6 rd rs 0x0009#16) 0x003FFFFF#32 0x00000241#32 ∧
      ScalarFloat (.fsub rd rs) rd (s.getX rs) floatSub floatAdd s) ∧
    (Encodes (.fmul rd rs) (encR 0x01#6 rd rs 0x000A#16) 0x003FFFFF#32 0x00000281#32 ∧
      ScalarFloat (.fmul rd rs) rd (s.getX rs) floatMul floatDiv s ∧
      (s.dir = .backward → s.getX rs = 0#32 → exec (.fmul rd rs) s = .next { s with status := .error .arithmeticFault })) ∧
    (Encodes (.fdiv rd rs) (encR 0x01#6 rd rs 0x000B#16) 0x003FFFFF#32 0x000002C1#32 ∧
      ScalarFloat (.fdiv rd rs) rd (s.getX rs) floatDiv floatMul s ∧
      (s.dir = .forward → s.getX rs = 0#32 → exec (.fdiv rd rs) s = .next { s with status := .error .arithmeticFault })) ∧
    (Encodes (.faddi rd imm) (encI 0x03#6 rd imm 0x08#5) 0x000007FF#32 0x00000203#32 ∧
      ScalarFloat (.faddi rd imm) rd (imm.signExtend 32) floatAdd floatSub s) ∧
    (Encodes (.fsubi rd imm) (encI 0x03#6 rd imm 0x09#5) 0x000007FF#32 0x00000243#32 ∧
      ScalarFloat (.fsubi rd imm) rd (imm.signExtend 32) floatSub floatAdd s) ∧
    (Encodes (.fmuli rd imm) (encI 0x03#6 rd imm 0x0A#5) 0x000007FF#32 0x00000283#32 ∧
      ScalarFloat (.fmuli rd imm) rd (imm.signExtend 32) floatMul floatDiv s ∧
      (s.dir = .backward → imm = 0#16 → exec (.fmuli rd imm) s = .next { s with status := .error .arithmeticFault })) ∧
    (Encodes (.fdivi rd imm) (encI 0x03#6 rd imm 0x0B#5) 0x000007FF#32 0x000002C3#32 ∧
      ScalarFloat (.fdivi rd imm) rd (imm.signExtend 32) floatDiv floatMul s ∧
      (s.dir = .forward → imm = 0#16 → exec (.fdivi rd imm) s = .next { s with status := .error .arithmeticFault }))

/-- CSWAP and CSWAPI: encoding, result in both directions, and frame. (R185, R186) -/
def Obligations.ScalarConditionalSwap : Prop :=
  ∀ (ra : XReg) (rb : XReg) (rc : XReg) (imm : Imm16) (s : State),
    (Encodes (.cswap ra rb rc) (encR3 0x07#6 ra rb rc 0) 0x0001FFFF#32 0x00000007#32 ∧
      exec (.cswap ra rb rc) s = .next { s with
        x := (s.x.set ra.toNat
          (s.getX ra ^^^ ((s.getX ra ^^^ s.getX rb) &&& s.getX rc)) ra.isLt).set rb.toNat
          (s.getX rb ^^^ ((s.getX ra ^^^ s.getX rb) &&& s.getX rc)) rb.isLt }) ∧
    (Encodes (.cswapi ra rb imm) (encR 0x08#6 ra rb imm) 0x0000003F#32 0x00000008#32 ∧
      exec (.cswapi ra rb imm) s = .next { s with
        x := (s.x.set ra.toNat
          (s.getX ra ^^^ ((s.getX ra ^^^ s.getX rb) &&& imm.signExtend 32)) ra.isLt).set rb.toNat
          (s.getX rb ^^^ ((s.getX ra ^^^ s.getX rb) &&& imm.signExtend 32)) rb.isLt }) ∧
    exec (.cswapi ra rb 0xFFFF#16) s = exec (.exch ra rb) s ∧
    exec (.cswapi ra rb 0#16) s = .next s ∧
    exec (.cswapi ra ra imm) s = .next s ∧ exec (.cswap ra ra rc) s = .next s

/-- VXOR, VNEG, VADD, VSUB, VRR, VRL: encoding, every lane in both directions, and frame. (R204, R205, R206, R207, R210, R211) -/
def Obligations.VectorRegisterInteger : Prop :=
  ∀ (vd : VReg) (vs : VReg) (s : State),
    (Encodes (.vxor vd vs) (encR 0x21#6 vd vs 0x0000#16) 0x003FFFFF#32 0x00000021#32 ∧
      exec (.vxor vd vs) s = .next { s with
        v := s.v.set vd.toNat (Vector.ofFn fun l : Lane =>
          s.getLane vd l ^^^ s.getLane vs l) vd.isLt }) ∧
    (Encodes (.vneg vd) (encR 0x21#6 vd 0 0x0001#16) 0x07FFFFFF#32 0x00000061#32 ∧
      exec (.vneg vd) s = .next { s with
        v := s.v.set vd.toNat (Vector.ofFn fun l : Lane =>
          wrap32 (0 - (s.getLane vd l).toInt)) vd.isLt }) ∧
    (Encodes (.vadd vd vs) (encR 0x21#6 vd vs 0x0002#16) 0x003FFFFF#32 0x000000A1#32 ∧
      exec (.vadd vd vs) s = .next { s with
        v := s.v.set vd.toNat (Vector.ofFn fun l : Lane =>
          s.dir.pick (wrap32 (((s.getLane vd l).toNat : Int) + (s.getLane vs l).toNat))
            (wrap32 (((s.getLane vd l).toNat : Int) - (s.getLane vs l).toNat))) vd.isLt }) ∧
    (Encodes (.vsub vd vs) (encR 0x21#6 vd vs 0x0003#16) 0x003FFFFF#32 0x000000E1#32 ∧
      exec (.vsub vd vs) s = .next { s with
        v := s.v.set vd.toNat (Vector.ofFn fun l : Lane =>
          s.dir.pick (wrap32 (((s.getLane vd l).toNat : Int) - (s.getLane vs l).toNat))
            (wrap32 (((s.getLane vd l).toNat : Int) + (s.getLane vs l).toNat))) vd.isLt }) ∧
    (Encodes (.vrr vd vs) (encR 0x21#6 vd vs 0x0006#16) 0x003FFFFF#32 0x000001A1#32 ∧
      exec (.vrr vd vs) s = .next { s with
        v := s.v.set vd.toNat (Vector.ofFn fun l : Lane =>
          s.dir.pick (shiftRight (s.getLane vd l) ((s.getLane vs l).toNat % 32))
            (shiftLeft (s.getLane vd l) ((s.getLane vs l).toNat % 32))) vd.isLt }) ∧
    (Encodes (.vrl vd vs) (encR 0x21#6 vd vs 0x0007#16) 0x003FFFFF#32 0x000001E1#32 ∧
      exec (.vrl vd vs) s = .next { s with
        v := s.v.set vd.toNat (Vector.ofFn fun l : Lane =>
          s.dir.pick (shiftLeft (s.getLane vd l) ((s.getLane vs l).toNat % 32))
            (shiftRight (s.getLane vd l) ((s.getLane vs l).toNat % 32))) vd.isLt })

/-- VMUL and VDIV: encoding, every lane, the all-or-nothing fault, and frame. (R208, R209) -/
def Obligations.VectorRegisterMultiplyDivide : Prop :=
  ∀ (vd : VReg) (vs : VReg) (s : State),
    (Encodes (.vmul vd vs) (encR 0x21#6 vd vs 0x0004#16) 0x003FFFFF#32 0x00000121#32 ∧
      (s.dir = .forward → exec (.vmul vd vs) s = .next { s with
        v := s.v.set vd.toNat (Vector.ofFn fun l : Lane =>
          wrap32 ((s.getLane vd l).toInt * (s.getLane vs l).toInt)) vd.isLt }) ∧
      (s.dir = .backward → ¬ (∃ l : Lane, noQuotient (s.getLane vd l) (s.getLane vs l)) →
        exec (.vmul vd vs) s = .next { s with
        v := s.v.set vd.toNat (Vector.ofFn fun l : Lane =>
          wrap32 ((s.getLane vd l).toInt.tdiv (s.getLane vs l).toInt)) vd.isLt }) ∧
      (s.dir = .backward → (∃ l : Lane, noQuotient (s.getLane vd l) (s.getLane vs l)) → exec (.vmul vd vs) s = .next { s with status := .error .arithmeticFault })) ∧
    (Encodes (.vdiv vd vs) (encR 0x21#6 vd vs 0x0005#16) 0x003FFFFF#32 0x00000161#32 ∧
      (s.dir = .backward → exec (.vdiv vd vs) s = .next { s with
        v := s.v.set vd.toNat (Vector.ofFn fun l : Lane =>
          wrap32 ((s.getLane vd l).toInt * (s.getLane vs l).toInt)) vd.isLt }) ∧
      (s.dir = .forward → ¬ (∃ l : Lane, noQuotient (s.getLane vd l) (s.getLane vs l)) →
        exec (.vdiv vd vs) s = .next { s with
        v := s.v.set vd.toNat (Vector.ofFn fun l : Lane =>
          wrap32 ((s.getLane vd l).toInt.tdiv (s.getLane vs l).toInt)) vd.isLt }) ∧
      (s.dir = .forward → (∃ l : Lane, noQuotient (s.getLane vd l) (s.getLane vs l)) → exec (.vdiv vd vs) s = .next { s with status := .error .arithmeticFault }))

/-- VXORI, VADDI, VSUBI, VRRI, VRLI: encoding, every lane in both directions, and frame. (R216, R217, R218, R221, R222) -/
def Obligations.VectorImmediateInteger : Prop :=
  ∀ (vd : VReg) (imm : Imm16) (s : State),
    (Encodes (.vxori vd imm) (encI 0x23#6 vd imm 0x00#5) 0x000007FF#32 0x00000023#32 ∧
      exec (.vxori vd imm) s = .next { s with
        v := s.v.set vd.toNat (Vector.ofFn fun l : Lane =>
          s.getLane vd l ^^^ imm.signExtend 32) vd.isLt }) ∧
    (Encodes (.vaddi vd imm) (encI 0x23#6 vd imm 0x02#5) 0x000007FF#32 0x000000A3#32 ∧
      exec (.vaddi vd imm) s = .next { s with
        v := s.v.set vd.toNat (Vector.ofFn fun l : Lane =>
          s.dir.pick (wrap32 (((s.getLane vd l).toNat : Int) + (imm.signExtend 32).toNat))
            (wrap32 (((s.getLane vd l).toNat : Int) - (imm.signExtend 32).toNat))) vd.isLt }) ∧
    (Encodes (.vsubi vd imm) (encI 0x23#6 vd imm 0x03#5) 0x000007FF#32 0x000000E3#32 ∧
      exec (.vsubi vd imm) s = .next { s with
        v := s.v.set vd.toNat (Vector.ofFn fun l : Lane =>
          s.dir.pick (wrap32 (((s.getLane vd l).toNat : Int) - (imm.signExtend 32).toNat))
            (wrap32 (((s.getLane vd l).toNat : Int) + (imm.signExtend 32).toNat))) vd.isLt }) ∧
    (Encodes (.vrri vd imm) (encI 0x23#6 vd imm 0x06#5) 0x000007FF#32 0x000001A3#32 ∧
      exec (.vrri vd imm) s = .next { s with
        v := s.v.set vd.toNat (Vector.ofFn fun l : Lane =>
          s.dir.pick (shiftRight (s.getLane vd l) ((imm.signExtend 32).toNat % 32))
            (shiftLeft (s.getLane vd l) ((imm.signExtend 32).toNat % 32))) vd.isLt }) ∧
    (Encodes (.vrli vd imm) (encI 0x23#6 vd imm 0x07#5) 0x000007FF#32 0x000001E3#32 ∧
      exec (.vrli vd imm) s = .next { s with
        v := s.v.set vd.toNat (Vector.ofFn fun l : Lane =>
          s.dir.pick (shiftLeft (s.getLane vd l) ((imm.signExtend 32).toNat % 32))
            (shiftRight (s.getLane vd l) ((imm.signExtend 32).toNat % 32))) vd.isLt })

/-- VMULI and VDIVI: encoding, every lane, the all-or-nothing fault, and frame. (R219, R220) -/
def Obligations.VectorImmediateMultiplyDivide : Prop :=
  ∀ (vd : VReg) (imm : Imm16) (s : State),
    (Encodes (.vmuli vd imm) (encI 0x23#6 vd imm 0x04#5) 0x000007FF#32 0x00000123#32 ∧
      (s.dir = .forward → exec (.vmuli vd imm) s = .next { s with
        v := s.v.set vd.toNat (Vector.ofFn fun l : Lane =>
          wrap32 ((s.getLane vd l).toInt * (imm.signExtend 32).toInt)) vd.isLt }) ∧
      (s.dir = .backward → ¬ (imm = 0#16 ∨ (imm = 0xFFFF#16 ∧ ∃ l : Lane, s.getLane vd l = 0x80000000#32)) →
        exec (.vmuli vd imm) s = .next { s with
        v := s.v.set vd.toNat (Vector.ofFn fun l : Lane =>
          wrap32 ((s.getLane vd l).toInt.tdiv (imm.signExtend 32).toInt)) vd.isLt }) ∧
      (s.dir = .backward → (imm = 0#16 ∨ (imm = 0xFFFF#16 ∧ ∃ l : Lane, s.getLane vd l = 0x80000000#32)) → exec (.vmuli vd imm) s = .next { s with status := .error .arithmeticFault })) ∧
    (Encodes (.vdivi vd imm) (encI 0x23#6 vd imm 0x05#5) 0x000007FF#32 0x00000163#32 ∧
      (s.dir = .backward → exec (.vdivi vd imm) s = .next { s with
        v := s.v.set vd.toNat (Vector.ofFn fun l : Lane =>
          wrap32 ((s.getLane vd l).toInt * (imm.signExtend 32).toInt)) vd.isLt }) ∧
      (s.dir = .forward → ¬ (imm = 0#16 ∨ (imm = 0xFFFF#16 ∧ ∃ l : Lane, s.getLane vd l = 0x80000000#32)) →
        exec (.vdivi vd imm) s = .next { s with
        v := s.v.set vd.toNat (Vector.ofFn fun l : Lane =>
          wrap32 ((s.getLane vd l).toInt.tdiv (imm.signExtend 32).toInt)) vd.isLt }) ∧
      (s.dir = .forward → (imm = 0#16 ∨ (imm = 0xFFFF#16 ∧ ∃ l : Lane, s.getLane vd l = 0x80000000#32)) → exec (.vdivi vd imm) s = .next { s with status := .error .arithmeticFault }))

/-- The vector float instructions: encoding, every lane, the all-or-nothing fault, and frame. (R212, R213, R214, R215, R223, R224, R225, R226) -/
def Obligations.VectorFloatInstructions : Prop :=
  ∀ (vd : VReg) (vs : VReg) (imm : Imm16) (s : State),
    (Encodes (.vfadd vd vs) (encR 0x21#6 vd vs 0x0008#16) 0x003FFFFF#32 0x00000221#32 ∧
      VectorFloat (.vfadd vd vs) vd (s.getLane vs) floatAdd floatSub s) ∧
    (Encodes (.vfsub vd vs) (encR 0x21#6 vd vs 0x0009#16) 0x003FFFFF#32 0x00000261#32 ∧
      VectorFloat (.vfsub vd vs) vd (s.getLane vs) floatSub floatAdd s) ∧
    (Encodes (.vfmul vd vs) (encR 0x21#6 vd vs 0x000A#16) 0x003FFFFF#32 0x000002A1#32 ∧
      VectorFloat (.vfmul vd vs) vd (s.getLane vs) floatMul floatDiv s ∧
      (s.dir = .backward → (∃ l : Lane, s.getLane vs l = 0#32) → exec (.vfmul vd vs) s = .next { s with status := .error .arithmeticFault })) ∧
    (Encodes (.vfdiv vd vs) (encR 0x21#6 vd vs 0x000B#16) 0x003FFFFF#32 0x000002E1#32 ∧
      VectorFloat (.vfdiv vd vs) vd (s.getLane vs) floatDiv floatMul s ∧
      (s.dir = .forward → (∃ l : Lane, s.getLane vs l = 0#32) → exec (.vfdiv vd vs) s = .next { s with status := .error .arithmeticFault })) ∧
    (Encodes (.vfaddi vd imm) (encI 0x23#6 vd imm 0x08#5) 0x000007FF#32 0x00000223#32 ∧
      VectorFloat (.vfaddi vd imm) vd (fun _ => imm.signExtend 32) floatAdd floatSub s) ∧
    (Encodes (.vfsubi vd imm) (encI 0x23#6 vd imm 0x09#5) 0x000007FF#32 0x00000263#32 ∧
      VectorFloat (.vfsubi vd imm) vd (fun _ => imm.signExtend 32) floatSub floatAdd s) ∧
    (Encodes (.vfmuli vd imm) (encI 0x23#6 vd imm 0x0A#5) 0x000007FF#32 0x000002A3#32 ∧
      VectorFloat (.vfmuli vd imm) vd (fun _ => imm.signExtend 32) floatMul floatDiv s ∧
      (s.dir = .backward → imm = 0#16 → exec (.vfmuli vd imm) s = .next { s with status := .error .arithmeticFault })) ∧
    (Encodes (.vfdivi vd imm) (encI 0x23#6 vd imm 0x0B#5) 0x000007FF#32 0x000002E3#32 ∧
      VectorFloat (.vfdivi vd imm) vd (fun _ => imm.signExtend 32) floatDiv floatMul s ∧
      (s.dir = .forward → imm = 0#16 → exec (.vfdivi vd imm) s = .next { s with status := .error .arithmeticFault }))

/-- VCSWAP and VCSWAPI: encoding, every lane in both directions, and frame. (R227, R228) -/
def Obligations.VectorConditionalSwap : Prop :=
  ∀ (va : VReg) (vb : VReg) (vc : VReg) (imm : Imm16) (s : State),
    (Encodes (.vcswap va vb vc) (encR3 0x27#6 va vb vc 0) 0x0001FFFF#32 0x00000027#32 ∧
      exec (.vcswap va vb vc) s = .next { s with
        v := (s.v.set va.toNat (Vector.ofFn fun l : Lane =>
            s.getLane va l ^^^ ((s.getLane va l ^^^ s.getLane vb l) &&& s.getLane vc l)) va.isLt).set vb.toNat
          (Vector.ofFn fun l : Lane =>
            s.getLane vb l ^^^ ((s.getLane va l ^^^ s.getLane vb l) &&& s.getLane vc l)) vb.isLt }) ∧
    (Encodes (.vcswapi va vb imm) (encR 0x28#6 va vb imm) 0x0000003F#32 0x00000028#32 ∧
      exec (.vcswapi va vb imm) s = .next { s with
        v := (s.v.set va.toNat (Vector.ofFn fun l : Lane =>
            s.getLane va l ^^^ ((s.getLane va l ^^^ s.getLane vb l) &&& imm.signExtend 32)) va.isLt).set vb.toNat
          (Vector.ofFn fun l : Lane =>
            s.getLane vb l ^^^ ((s.getLane va l ^^^ s.getLane vb l) &&& imm.signExtend 32)) vb.isLt }) ∧
    exec (.vcswapi va vb 0xFFFF#16) s = exec (.vexch va vb) s ∧
    exec (.vcswap va va vc) s = .next s

/-- The eight branches: encoding, condition, accumulation into br in both directions, and frame. (R240, R243, R244, R245, R246, R247, R248, R249, R250) -/
def Obligations.BranchesAccumulateTheOffset : Prop :=
  ∀ (rd : XReg) (ra : XReg) (rb : XReg) (off : Imm16) (s : State),
    (Encodes (.blt ra rb off) (encB 0x10#6 ra rb off) 0x0000003F#32 0x00000010#32 ∧
      BranchesWhen (.blt ra rb off) ((s.getX ra).toInt < (s.getX rb).toInt) off s) ∧
    (Encodes (.bltu ra rb off) (encB 0x11#6 ra rb off) 0x0000003F#32 0x00000011#32 ∧
      BranchesWhen (.bltu ra rb off) ((s.getX ra).toNat < (s.getX rb).toNat) off s) ∧
    (Encodes (.bge ra rb off) (encB 0x12#6 ra rb off) 0x0000003F#32 0x00000012#32 ∧
      BranchesWhen (.bge ra rb off) ((s.getX ra).toInt ≥ (s.getX rb).toInt) off s) ∧
    (Encodes (.bgeu ra rb off) (encB 0x13#6 ra rb off) 0x0000003F#32 0x00000013#32 ∧
      BranchesWhen (.bgeu ra rb off) ((s.getX ra).toNat ≥ (s.getX rb).toNat) off s) ∧
    (Encodes (.beq ra rb off) (encB 0x14#6 ra rb off) 0x0000003F#32 0x00000014#32 ∧
      BranchesWhen (.beq ra rb off) (s.getX ra = s.getX rb) off s) ∧
    (Encodes (.bne ra rb off) (encB 0x15#6 ra rb off) 0x0000003F#32 0x00000015#32 ∧
      BranchesWhen (.bne ra rb off) (s.getX ra ≠ s.getX rb) off s) ∧
    (Encodes (.bevn rd off) (encI 0x16#6 rd off 0) 0x000007FF#32 0x00000016#32 ∧
      BranchesWhen (.bevn rd off) ((s.getX rd).toNat % 2 = 0) off s) ∧
    (Encodes (.bodd rd off) (encI 0x17#6 rd off 0) 0x000007FF#32 0x00000017#32 ∧
      BranchesWhen (.bodd rd off) ((s.getX rd).toNat % 2 = 1) off s)

/-- Where a step on a branch continues. (R241) -/
def Obligations.BranchTargets : Prop :=
  ∀ (s : State) (i : Instr) (off : Imm16) (taken : Bool),
    Fetches s i → s.br = 0#32 → s.gsp ≤ s.cfg.gSize → branchCase i s = some (off, taken) →
    ∃ t : State, step s = .next t ∧
      t = { s with pc :=
              if taken = true ∧ off ≠ 0#16 then
                s.dir.pick (wrap32 ((s.pc.toNat : Int) + off.toInt)) (wrap32 ((s.pc.toNat : Int) - off.toInt))
              else s.dir.pick (wrap32 ((s.pc.toNat : Int) + 1)) (wrap32 ((s.pc.toNat : Int) - 1)) } ∧
      (t.cfg.words ≤ t.pc.toNat → step t = .next { t with status := .error .addressOutOfBounds })

/-- SWB: encoding, exchange, and the step it makes. (R251) -/
def Obligations.BranchRegisterSwap : Prop :=
  (∀ (rd : XReg) (s : State), Encodes (.swb rd) (encR 0x18#6 rd 0 0) 0x07FFFFFF#32 0x00000018#32 ∧
    exec (.swb rd) s = .next { s with x := s.x.set rd.toNat s.br rd.isLt, br := s.getX rd }) ∧
  (∀ (rd : XReg) (s : State), Fetches s (.swb rd) → s.br = 0#32 → s.gsp ≤ s.cfg.gSize →
    step s = .next { s with
      x := s.x.set rd.toNat 0#32 rd.isLt
      pc := if s.getX rd = 0#32 then s.dir.pick (wrap32 ((s.pc.toNat : Int) + 1)) (wrap32 ((s.pc.toNat : Int) - 1))
        else wrap32 ((s.pc.toNat : Int) + (s.getX rd).toInt) })

/-- RSWB: encoding, exchange, direction flip, and the step it makes. (R252) -/
def Obligations.BranchRegisterSwapAndReverse : Prop :=
  (∀ (rd : XReg) (s : State), Encodes (.rswb rd) (encR 0x19#6 rd 0 0) 0x07FFFFFF#32 0x00000019#32 ∧
    exec (.rswb rd) s = .next { s with
      x := s.x.set rd.toNat s.br rd.isLt, br := s.getX rd, dir := s.dir.pick .backward .forward }) ∧
  (∀ (rd : XReg) (s : State), Fetches s (.rswb rd) → s.br = 0#32 → s.gsp ≤ s.cfg.gSize →
    step s = .next { s with
      x := s.x.set rd.toNat 0#32 rd.isLt
      dir := s.dir.pick .backward .forward
      pc := if s.getX rd = 0#32 then s.dir.pick (wrap32 ((s.pc.toNat : Int) - 1)) (wrap32 ((s.pc.toNat : Int) + 1))
        else wrap32 ((s.pc.toNat : Int) + (s.getX rd).toInt) })

/-- HALT: its only encoding, its effect, and the step it makes. (R253) -/
def Obligations.HaltStopsTheRun : Prop :=
  Encodes .halt 0x00000000#32 0xFFFFFFFF#32 0x00000000#32 ∧
  (∀ w, decode w = .ok .halt → w = 0#32) ∧
  (∀ s : State, exec .halt s = .next { s with status := .halted }) ∧
  (∀ s : State, Fetches s .halt → step s = .next { s with status := .halted }) ∧
  (∀ s t : State, s.status = .halted → step s ≠ .next t)

/-- EXCH and VEXCH: encoding, exchange in both directions, and frame. (R261, R262) -/
def Obligations.RegisterExchanges : Prop :=
  ∀ (rd rs : XReg) (vd vs : VReg) (s : State),
    (Encodes (.exch rd rs) (encR 0x02#6 rd rs 0) 0x003FFFFF#32 0x00000002#32 ∧
      exec (.exch rd rs) s = .next { s with
        x := (s.x.set rd.toNat (s.getX rs) rd.isLt).set rs.toNat (s.getX rd) rs.isLt } ∧
      exec (.exch rd rd) s = .next s) ∧
    (Encodes (.vexch vd vs) (encR 0x22#6 vd vs 0) 0x003FFFFF#32 0x00000022#32 ∧
      exec (.vexch vd vs) s = .next { s with
        v := (s.v.set vd.toNat (Vector.ofFn fun l : Lane => s.getLane vs l) vd.isLt).set vs.toNat
          (Vector.ofFn fun l : Lane => s.getLane vd l) vs.isLt } ∧
      exec (.vexch vd vd) s = .next s)

/-- MEXCH: encoding, exchange with the addressed word in both directions, fault, and frame. (R263) -/
def Obligations.MemoryExchange : Prop :=
  ∀ (rd rs : XReg) (off : Imm16) (s : State), s.mem.wf = true →
    Encodes (.mexch rd rs off) (encR 0x04#6 rd rs off) 0x0000003F#32 0x00000004#32 ∧
    (0 ≤ effectiveAddress rs off s → effectiveAddress rs off s < s.cfg.words →
      ∃ m : Memory, m.wf = true ∧
        exec (.mexch rd rs off) s = .next { s with
          x := s.x.set rd.toNat (s.mem.read (effectiveAddress rs off s).toNat) rd.isLt, mem := m } ∧
        ∀ a : Nat, m.read a = if a = (effectiveAddress rs off s).toNat then s.getX rd else s.mem.read a) ∧
    (effectiveAddress rs off s < 0 ∨ (s.cfg.words : Int) ≤ effectiveAddress rs off s →
      exec (.mexch rd rs off) s = .next { s with status := .error .addressOutOfBounds })

/-- VMEXCH: encoding, exchange with 32 words in both directions, fault, and frame. (R264) -/
def Obligations.VectorMemoryExchange : Prop :=
  ∀ (vd : VReg) (rs : XReg) (off : Imm16) (s : State), s.mem.wf = true →
    Encodes (.vmexch vd rs off) (encR 0x24#6 vd rs off) 0x0000003F#32 0x00000024#32 ∧
    (0 ≤ effectiveAddress rs off s → effectiveAddress rs off s + 31 < s.cfg.words →
      ∃ m : Memory, m.wf = true ∧
        exec (.vmexch vd rs off) s = .next { s with
          v := s.v.set vd.toNat
            (Vector.ofFn fun l : Lane => s.mem.read ((effectiveAddress rs off s).toNat + l.val)) vd.isLt
          mem := m } ∧
        (∀ l : Lane, m.read ((effectiveAddress rs off s).toNat + l.val) = s.getLane vd l) ∧
        (∀ a : Nat, (∀ l : Lane, a ≠ (effectiveAddress rs off s).toNat + l.val) → m.read a = s.mem.read a)) ∧
    (effectiveAddress rs off s < 0 ∨ (s.cfg.words : Int) ≤ effectiveAddress rs off s + 31 →
      exec (.vmexch vd rs off) s = .next { s with status := .error .addressOutOfBounds })

/-- DEL: encoding, push forward, pop backward, faults, and frame. (R271) -/
def Obligations.DeleteRegister : Prop :=
  ∀ (rd : XReg) (s : State), s.mem.wf = true →
    Encodes (.del rd) (encR 0x05#6 rd 0 0) 0x07FFFFFF#32 0x00000005#32 ∧
    (s.dir = .forward → s.gsp < s.cfg.gSize → ∃ m : Memory, m.wf = true ∧
      exec (.del rd) s = .next { s with x := s.x.set rd.toNat 0#32 rd.isLt, mem := m, gsp := s.gsp + 1 } ∧
      ∀ a : Nat, m.read a = if a = slotIndex s.cfg s.gsp then s.getX rd else s.mem.read a) ∧
    (s.dir = .forward → s.cfg.gSize ≤ s.gsp → exec (.del rd) s = .next { s with status := .error .garbageOverflow }) ∧
    (s.dir = .backward → 0 < s.gsp → ∃ m : Memory, m.wf = true ∧
      exec (.del rd) s = .next { s with
        x := s.x.set rd.toNat (s.mem.read (slotIndex s.cfg (s.gsp - 1))) rd.isLt, mem := m, gsp := s.gsp - 1 } ∧
      ∀ a : Nat, m.read a = if a = slotIndex s.cfg (s.gsp - 1) then 0#32 else s.mem.read a) ∧
    (s.dir = .backward → s.gsp = 0 → exec (.del rd) s = .next { s with status := .error .garbageUnderflow })

/-- MDEL: encoding, the two stores in order, the order of the faults, and frame. (R272) -/
def Obligations.DeleteMemory : Prop :=
  ∀ (rs : XReg) (off : Imm16) (s : State), s.mem.wf = true →
    Encodes (.mdel rs off) (encR 0x06#6 0 rs off) 0xF800003F#32 0x00000006#32 ∧
    (effectiveAddress rs off s < 0 ∨ (s.cfg.words : Int) ≤ effectiveAddress rs off s →
      exec (.mdel rs off) s = .next { s with status := .error .addressOutOfBounds }) ∧
    (0 ≤ effectiveAddress rs off s → effectiveAddress rs off s < s.cfg.words →
      (s.dir = .forward → s.cfg.gSize ≤ s.gsp → exec (.mdel rs off) s = .next { s with status := .error .garbageOverflow }) ∧
      (s.dir = .backward → s.gsp = 0 → exec (.mdel rs off) s = .next { s with status := .error .garbageUnderflow }) ∧
      (s.dir = .forward → s.gsp < s.cfg.gSize → ∃ m : Memory, m.wf = true ∧
        exec (.mdel rs off) s = .next { s with mem := m, gsp := s.gsp + 1 } ∧
        m.read = moveWord (effectiveAddress rs off s).toNat (slotIndex s.cfg s.gsp) s.mem.read) ∧
      (s.dir = .backward → 0 < s.gsp → ∃ m : Memory, m.wf = true ∧
        exec (.mdel rs off) s = .next { s with mem := m, gsp := s.gsp - 1 } ∧
        m.read = moveWord (slotIndex s.cfg (s.gsp - 1)) (effectiveAddress rs off s).toNat s.mem.read))

/-- VDEL: encoding, 32 pushes or pops lane for lane, faults, and frame. (R273) -/
def Obligations.DeleteVector : Prop :=
  ∀ (vd : VReg) (s : State), s.mem.wf = true → s.gsp ≤ s.cfg.gSize →
    Encodes (.vdel vd) (encR 0x25#6 vd 0 0) 0x07FFFFFF#32 0x00000025#32 ∧
    (s.dir = .forward → s.gsp + 32 ≤ s.cfg.gSize → ∃ m : Memory, m.wf = true ∧
      exec (.vdel vd) s = .next { s with
        v := s.v.set vd.toNat (Vector.replicate 32 0#32) vd.isLt, mem := m, gsp := s.gsp + 32 } ∧
      (∀ l : Lane, m.read (slotIndex s.cfg (s.gsp + l.val)) = s.getLane vd l) ∧
      (∀ a : Nat, (∀ l : Lane, a ≠ slotIndex s.cfg (s.gsp + l.val)) → m.read a = s.mem.read a)) ∧
    (s.dir = .forward → s.cfg.gSize < s.gsp + 32 → exec (.vdel vd) s = .next { s with status := .error .garbageOverflow }) ∧
    (s.dir = .backward → 32 ≤ s.gsp → ∃ m : Memory, m.wf = true ∧
      exec (.vdel vd) s = .next { s with
        v := s.v.set vd.toNat
          (Vector.ofFn fun l : Lane => s.mem.read (slotIndex s.cfg (s.gsp - 32 + l.val))) vd.isLt
        mem := m, gsp := s.gsp - 32 } ∧
      (∀ l : Lane, m.read (slotIndex s.cfg (s.gsp - 32 + l.val)) = 0#32) ∧
      (∀ a : Nat, (∀ l : Lane, a ≠ slotIndex s.cfg (s.gsp - 32 + l.val)) → m.read a = s.mem.read a)) ∧
    (s.dir = .backward → s.gsp < 32 → exec (.vdel vd) s = .next { s with status := .error .garbageUnderflow })

/-- VMDEL: encoding, 32 moves in order, the order of the faults, and frame. (R274) -/
def Obligations.DeleteVectorMemory : Prop :=
  ∀ (rs : XReg) (off : Imm16) (s : State), s.mem.wf = true → s.gsp ≤ s.cfg.gSize →
    Encodes (.vmdel rs off) (encR 0x26#6 0 rs off) 0xF800003F#32 0x00000026#32 ∧
    (effectiveAddress rs off s < 0 ∨ (s.cfg.words : Int) ≤ effectiveAddress rs off s + 31 →
      exec (.vmdel rs off) s = .next { s with status := .error .addressOutOfBounds }) ∧
    (0 ≤ effectiveAddress rs off s → effectiveAddress rs off s + 31 < s.cfg.words →
      (s.dir = .forward → s.cfg.gSize < s.gsp + 32 → exec (.vmdel rs off) s = .next { s with status := .error .garbageOverflow }) ∧
      (s.dir = .backward → s.gsp < 32 → exec (.vmdel rs off) s = .next { s with status := .error .garbageUnderflow }) ∧
      (s.dir = .forward → s.gsp + 32 ≤ s.cfg.gSize → ∃ m : Memory, m.wf = true ∧
        exec (.vmdel rs off) s = .next { s with mem := m, gsp := s.gsp + 32 } ∧
        m.read = moveLanes (fun l => (effectiveAddress rs off s).toNat + l.val)
          (fun l => slotIndex s.cfg (s.gsp + l.val)) (List.finRange 32) s.mem.read) ∧
      (s.dir = .backward → 32 ≤ s.gsp → ∃ m : Memory, m.wf = true ∧
        exec (.vmdel rs off) s = .next { s with mem := m, gsp := s.gsp - 32 } ∧
        m.read = moveLanes (fun l => slotIndex s.cfg (s.gsp - 32 + l.val))
          (fun l => (effectiveAddress rs off s).toNat + l.val) (List.finRange 32).reverse s.mem.read))

/-- The effective address, its range, and why wrapping it to 32 bits would not change an outcome. (R51) -/
def Obligations.EffectiveAddress : Prop :=
  ∀ (rs : XReg) (off : Imm16) (s : State),
    effectiveAddress rs off s = (s.getX rs).toInt + (off.signExtend 32).toInt ∧
    (off.signExtend 32).toInt = off.toInt ∧
    (-2 ^ 31 - 2 ^ 15 ≤ effectiveAddress rs off s ∧ effectiveAddress rs off s ≤ 2 ^ 31 - 1 + 2 ^ 15 - 1) ∧
    (s.cfg.legal = true →
      ((0 ≤ effectiveAddress rs off s ∧ effectiveAddress rs off s < s.cfg.words) ↔
        (0 ≤ (s.getX rs + off.signExtend 32).toInt ∧ (s.getX rs + off.signExtend 32).toInt < s.cfg.words)) ∧
      (0 ≤ effectiveAddress rs off s → effectiveAddress rs off s < s.cfg.words →
        (s.getX rs + off.signExtend 32).toInt = effectiveAddress rs off s))

/-- MemRead and MemWrite: bounds, value read, word written, every other word kept. (R52) -/
def Obligations.MemoryPrimitivesCheckBounds : Prop :=
  ∀ (a : Int) (s : State), s.mem.wf = true →
    (a < 0 ∨ (s.cfg.words : Int) ≤ a →
      memRead a s = .error .addressOutOfBounds ∧ ∀ w, memWrite a w s = .error .addressOutOfBounds) ∧
    (0 ≤ a → a < s.cfg.words →
      memRead a s = .ok (s.mem.read a.toNat) ∧
      ∀ w, ∃ m : Memory, memWrite a w s = .ok { s with mem := m } ∧ m.wf = true ∧
        (s.mem.within s.cfg.words = true → m.within s.cfg.words = true) ∧
        ∀ b : Nat, m.read b = if b = a.toNat then w else s.mem.read b)

/-- PushGarbage and PopGarbage: slot, pointer, clearing, errors. (R58, R59) -/
def Obligations.GarbagePushAndPop : Prop :=
  ∀ s : State, s.mem.wf = true →
    (∀ w, s.cfg.gSize ≤ s.gsp → pushGarbage w s = .error .garbageOverflow) ∧
    (∀ w, s.gsp < s.cfg.gSize →
      (s.cfg.gBase ≤ s.cfg.words - 1 - s.gsp ∧ s.cfg.words - 1 - s.gsp < s.cfg.words) ∧
      ∃ m : Memory, pushGarbage w s = .ok { s with mem := m, gsp := s.gsp + 1 } ∧ m.wf = true ∧
        ∀ a : Nat, m.read a = if a = s.cfg.words - 1 - s.gsp then w else s.mem.read a) ∧
    (s.gsp = 0 → popGarbage s = .error .garbageUnderflow) ∧
    (0 < s.gsp → ∃ m : Memory,
      popGarbage s = .ok (s.mem.read (s.cfg.words - 1 - (s.gsp - 1)), { s with mem := m, gsp := s.gsp - 1 }) ∧
      m.wf = true ∧ ∀ a : Nat, m.read a = if a = s.cfg.words - 1 - (s.gsp - 1) then 0#32 else s.mem.read a)

/-- Any sequence of pushes and pops behaves as a last-in first-out list. (R60) -/
def Obligations.GarbageStackIsLastInFirstOut : Prop :=
  ∀ (ops : List StackOp) (s : State), s.mem.wf = true → s.gsp ≤ s.cfg.gSize →
    (∀ (ws : List Word) (t : State), stackRun ops s = .ok (ws, t) → listRun ops s.held = some (ws, t.held)) ∧
    (∀ r : List Word × List Word, listRun ops s.held = some r → roomForPushes s.cfg.gSize ops s.gsp = true →
      ∃ (ws : List Word) (t : State), stackRun ops s = .ok (ws, t) ∧ r = (ws, t.held))

/-- One step: fetch, decode, the instruction, the program-counter update and the check after it. (R281, R282, R284, R285, R286) -/
def Obligations.StepRunsTheDecodedInstruction : Prop :=
  (∀ s : State, s.status = .running → s.cfg.words ≤ s.pc.toNat →
    step s = .next { s with status := .error .addressOutOfBounds }) ∧
  (∀ (s : State) (e : Illegal), s.status = .running → s.pc.toNat < s.cfg.words →
    decode (s.mem.read s.pc.toNat) = .error e → step s = .next { s with status := .error .illegalInstruction }) ∧
  (∀ (s t : State) (i : Instr), Fetches s i → exec i s = .next t → t.status ≠ .running → step s = .next t) ∧
  (∀ (s t : State) (i : Instr), Fetches s i → exec i s = .next t → t.status = .running →
    step s = .next { t with
      pc := if t.br ≠ 0#32 then wrap32 ((t.pc.toNat : Int) + t.br.toInt)
        else t.dir.pick (wrap32 ((t.pc.toNat : Int) + 1)) (wrap32 ((t.pc.toNat : Int) - 1))
      br := 0#32
      status := if t.cfg.gSize < t.gsp then .error .garbageOverflow else .running })

/-- Every instruction in every state, and every running step, answers a next state (47_sequencer.md sections 1, 2). That a
machine which has ended answers a fault of a name of its own is the model's choice (log entry 3). -/
def Obligations.EveryRunningStepAnswers : Prop :=
  (∀ (i : Instr) (s : State), ∃ t, exec i s = .next t) ∧
  (∀ s : State, s.status = .running → ∃ t, step s = .next t) ∧
  (∀ s : State, s.status = .halted → step s = .fault .halted) ∧
  (∀ (s : State) (k : ErrorKind), s.status = .error k → step s = .fault (.terminated k))

/-- A step that ends the run leaves every other piece of state as it was. (R304) -/
def Obligations.ErrorsArePrecise : Prop :=
  ∀ s t : State, s.status = .running → s.gsp ≤ s.cfg.gSize → step s = .next t → t.status ≠ .running →
    (decode (s.mem.read s.pc.toNat) = .ok .halt ∧ t = { s with status := .halted }) ∨
    ∃ k : ErrorKind, t = { s with status := .error k } ∧ t.status.stateCode = 2 ∧ t.status.causeCode = k.code

/-- The codes of the error kinds, and who can raise which. (R300) -/
def Obligations.ErrorKindsAndWhoRaisesThem : Prop :=
  (Status.causeCode .running = 0 ∧ Status.causeCode .halted = 0 ∧
    Status.causeCode (.error .programTooLarge) = 1 ∧ Status.causeCode (.error .garbageOverflow) = 2 ∧
    Status.causeCode (.error .garbageUnderflow) = 3 ∧ Status.causeCode (.error .addressOutOfBounds) = 4 ∧
    Status.causeCode (.error .illegalInstruction) = 5 ∧ Status.causeCode (.error .arithmeticFault) = 6) ∧
  (∀ (program : List Word) (mb : Nat) (t : State) (k : ErrorKind), init program mb = .next t →
    t.status = .error k → k = .programTooLarge ∧ t.cfg.gBase < program.length) ∧
  (∀ (i : Instr) (s t : State) (k : ErrorKind), s.status = .running → exec i s = .next t →
    t.status = .error k → mayRaise s.dir i k = true) ∧
  (∀ (s t : State) (k : ErrorKind), s.status = .running → s.gsp ≤ s.cfg.gSize → step s = .next t →
    t.status = .error k →
    (k = .addressOutOfBounds ∧ s.cfg.words ≤ s.pc.toNat) ∨
    (k = .illegalInstruction ∧ ∃ e, decode (s.mem.read s.pc.toNat) = .error e) ∨
    ∃ i, decode (s.mem.read s.pc.toNat) = .ok i ∧ mayRaise s.dir i k = true)

/-- Every step keeps the invariant of a step boundary. -/
def Obligations.InvariantKeptByStep : Prop :=
  ∀ s t : State, s.Inv → step s = .next t → t.Inv

/-- The reset state has the invariant and is what Init answers for the empty program. `MB = 1` and the empty program are
the model's choices (log entries 2 and 6). -/
def Obligations.ResetHasTheInvariant : Prop :=
  State.reset.Inv ∧ State.reset.status = .running ∧ init [] 1 = .next State.reset

/-- Init: the reset state with the program image, or ProgramTooLarge. (R331, R332) -/
def Obligations.InitLoadsTheProgramOrFails : Prop :=
  ∀ (program : List Word) (mb : Nat), Config.legal { mb := mb } = true →
    (program.length ≤ 218750 * mb →
      ∃ t : State, init program mb = .next t ∧ t.cfg.mb = mb ∧
        (∀ r : XReg, t.getX r = if r = 1 then 0xFFFFFFFF#32 else 0#32) ∧
        (∀ (r : VReg) (l : Lane), t.getLane r l = 0#32) ∧
        t.pc = 0#32 ∧ t.br = 0#32 ∧ t.dir = .forward ∧ t.gsp = 0 ∧ t.status = .running ∧
        t.status.stateCode = 0 ∧ t.status.causeCode = 0 ∧ t.mem.wf = true ∧
        (∀ a : Nat, t.mem.read a = program.getD a 0#32) ∧
        (program = [] → step t = .next { t with status := .halted })) ∧
    (218750 * mb < program.length →
      ∃ t : State, init program mb = .next t ∧ t.status = .error .programTooLarge ∧
        t.status.stateCode = 2 ∧ t.status.causeCode = 1 ∧ ∀ u, step t ≠ .next u)

/-- Which instructions can change which piece of state. -/
def Obligations.OnlyTheListedInstructionsWrite : Prop :=
  ∀ (i : Instr) (s t : State), exec i s = .next t →
    (t.x ≠ s.x → i.opcode.writesX = true) ∧
    (t.v ≠ s.v → i.opcode.usesV = true) ∧
    (t.mem ≠ s.mem → i.opcode.usesMem = true) ∧
    (t.gsp ≠ s.gsp → i.opcode.usesGsp = true) ∧
    (t.br ≠ s.br → i.opcode.writesBr = true) ∧
    (t.dir ≠ s.dir → i.opcode = .rswb) ∧
    t.pc = s.pc ∧ t.cfg = s.cfg ∧
    (t.status ≠ s.status →
      (i.opcode = .halt ∧ t = { s with status := .halted }) ∨ ∃ k : ErrorKind, t = { s with status := .error k })

/-- What an instruction does not touch it does not depend on. -/
def Obligations.InstructionsDependOnlyOnWhatTheyRead : Prop :=
  ∀ (i : Instr) (s t : State), exec i s = .next t →
    (i.opcode.usesX = false → ∀ x, exec i { s with x := x } = .next { t with x := x }) ∧
    (i.opcode.usesV = false → ∀ v, exec i { s with v := v } = .next { t with v := v }) ∧
    (i.opcode.usesMem = false → ∀ m, exec i { s with mem := m } = .next { t with mem := m }) ∧
    (i.opcode.usesGsp = false → ∀ g, exec i { s with gsp := g } = .next { t with gsp := g }) ∧
    (∀ p, exec i { s with pc := p } = .next { t with pc := p })

/-- The bodies of the exactly reversible instructions undo themselves. -/
def Obligations.ReversibleInstructionsUndo : Prop :=
  (∀ (i : Instr) (s t : State), selfInverse i = true → s.mem.wf = true → s.status = .running →
    exec i s = .next t → t.status = .running → exec i t = .next s) ∧
  (∀ (i : Instr) (s t : State), pairInverse i = true → exec i s = .next t →
    exec i { t with dir := s.dir.flip } = .next { s with dir := s.dir.flip })

/-- A delete executed forward and then backward restores the state bit for bit. -/
def Obligations.DeletesRoundTrip : Prop :=
  ∀ (i : Instr) (s t : State), i.opcode.usesGsp = true → s.mem.wf = true → s.dir = .forward →
    s.status = .running → sourceAvoidsSlots i s →
    (∀ k < deleteSize i, s.mem.read (slotIndex s.cfg (s.gsp + k)) = 0#32) →
    exec i s = .next t → t.status = .running →
    exec i { t with dir := .backward } = .next { s with dir := .backward }

/-- A pc that leaves memory by any delta does not wrap back into it. (R28) -/
def Obligations.ProgramCounterNeverWrapsBack : Prop :=
  (∀ (c : Config) (pc d : Word), c.legal = true → pc.toNat < c.words →
    ((wrap32 ((pc.toNat : Int) + d.toInt)).toNat < c.words ↔
      0 ≤ (pc.toNat : Int) + d.toInt ∧ (pc.toNat : Int) + d.toInt < c.words) ∧
    (0 ≤ (pc.toNat : Int) + d.toInt → (pc.toNat : Int) + d.toInt < c.words →
      ((wrap32 ((pc.toNat : Int) + d.toInt)).toNat : Int) = (pc.toNat : Int) + d.toInt)) ∧
  (∀ s : State, s.status = .running → s.cfg.words ≤ s.pc.toNat →
    step s = .next { s with status := .error .addressOutOfBounds }) ∧
  (∀ s : State, s.pc.toNat < s.cfg.words → fetch s = .ok (s.mem.read s.pc.toNat))

/-- A run that has ended stays ended, and the host reads its status and memory. -/
def Obligations.EndedRunStays : Prop :=
  (∀ (n : Nat) (s t : State), runFor n s = .next t → t.status ≠ .running →
    (∀ m, n ≤ m → runFor m s = .next t) ∧ (∀ u, step t ≠ .next u) ∧
    readOut t = some {
      stateCode := t.status.stateCode
      causeCode := t.status.causeCode
      mem := if t.status = .error .programTooLarge then none else some t.mem }) ∧
  (∀ s : State, s.status = .running → readOut s = none)
end

