-- ==== Sys2Proof/Laws/Binary32.lean ====
section
/-! SUPPORT. What rounding to binary32 gives, said once: the datum nearest to the exact rational, ties to even; and what
the conversions and the four operations answer (spec/41_function_library.md R143 to R146). -/

namespace Sys2Proof.Machine

/-! ### Scaling and rounding to an integer -/

theorem scaleDown_pos {n d : Nat} {e : Int} (hd : 0 < d) : 0 < (scaleDown n d e).2 := by
  unfold scaleDown
  split
  · positivity
  · exact hd

theorem zpow_toNat {e : Int} (h : 0 ≤ e) : (2 : ℚ) ^ e = 2 ^ e.toNat := by
  conv_lhs => rw [← Int.toNat_of_nonneg h]
  exact zpow_natCast ..

/-- The scaled fraction is the fraction over `2 ^ e`. -/
theorem scaleDown_value {n d : Nat} {e : Int} (hd : 0 < d) :
    ((scaleDown n d e).1 : ℚ) / (scaleDown n d e).2 = (n : ℚ) / d / 2 ^ e := by
  have h2 : (d : ℚ) ≠ 0 := by positivity
  unfold scaleDown
  split
  · rename_i h
    rw [zpow_toNat h]
    push_cast
    field_simp
  · rename_i h
    have h' : (2 : ℚ) ^ e = (2 ^ (-e).toNat)⁻¹ := by
      rw [← zpow_toNat (by omega), zpow_neg, inv_inv]
    rw [h']
    push_cast
    field_simp

/-- `roundHalfEven` is a nearest integer, at distance at most one half, and even at exactly one half. -/
theorem roundHalfEven_spec {n d : Nat} (hd : 0 < d) :
    |((roundHalfEven n d : Nat) : ℚ) - n / d| ≤ 1 / 2 ∧
      (|((roundHalfEven n d : Nat) : ℚ) - n / d| = 1 / 2 → roundHalfEven n d % 2 = 0) := by
  have hd' : (0 : ℚ) < d := by exact_mod_cast hd
  have hn : (n : ℚ) / d = (n / d : Nat) + ((n % d : Nat) : ℚ) / d := by
    have : ((d * (n / d) + n % d : Nat) : ℚ) = n := by rw [Nat.div_add_mod]
    rw [← this]
    push_cast
    field_simp
  have hlt : ((n % d : Nat) : ℚ) < d := by exact_mod_cast Nat.mod_lt n hd
  rw [hn]
  generalize hq : n / d = q
  generalize hr : n % d = r at *
  have hr0 : (0 : ℚ) ≤ (r : ℚ) / d := by positivity
  have hr1 : (r : ℚ) / d < 1 := by rw [div_lt_one hd']; exact hlt
  unfold roundHalfEven
  rw [hq, hr]
  dsimp only
  split
  · rename_i h
    have h' : (r : ℚ) / d < 1 / 2 := by
      rw [div_lt_div_iff₀ hd' (by norm_num)]
      have : ((2 * r : Nat) : ℚ) < d := by exact_mod_cast h
      push_cast at this
      linarith
    have e : |((q : Nat) : ℚ) - (q + (r : ℚ) / d)| = (r : ℚ) / d := by
      rw [sub_add_cancel_left, abs_neg, abs_of_nonneg hr0]
    rw [e]
    exact ⟨h'.le, fun h => absurd h h'.ne⟩
  · split
    · rename_i h
      have h' : 1 / 2 < (r : ℚ) / d := by
        rw [div_lt_div_iff₀ (by norm_num) hd']
        have : (d : ℚ) < ((2 * r : Nat) : ℚ) := by exact_mod_cast h
        push_cast at this
        linarith
      have e : |((q + 1 : Nat) : ℚ) - (q + (r : ℚ) / d)| = 1 - (r : ℚ) / d := by
        push_cast
        rw [show (q : ℚ) + 1 - (q + (r : ℚ) / d) = 1 - (r : ℚ) / d by ring, abs_of_nonneg (by linarith)]
      rw [e]
      exact ⟨by linarith, fun h => absurd h (by linarith)⟩
    · have h' : (r : ℚ) / d = 1 / 2 := by
        rw [div_eq_div_iff hd'.ne' (by norm_num)]
        have : 2 * r = d := by omega
        have : ((2 * r : Nat) : ℚ) = d := by exact_mod_cast this
        push_cast at this
        linarith
      rw [h']
      split
      · rename_i hev
        refine ⟨?_, fun _ => hev⟩
        rw [sub_add_cancel_left, abs_neg, abs_of_nonneg (by norm_num)]
      · rename_i hodd
        refine ⟨?_, fun _ => by omega⟩
        push_cast
        rw [show (q : ℚ) + 1 - (q + 1 / 2) = 1 / 2 by ring, abs_of_nonneg (by norm_num)]

/-- An integer within one half of `x` is as near to `x` as any integer; another integer is as near only at one
half. -/
theorem nearest_integer {x : ℚ} {m : Int} (h : |(m : ℚ) - x| ≤ 1 / 2) (k : Int) :
    |(m : ℚ) - x| ≤ |(k : ℚ) - x| ∧ (|(k : ℚ) - x| = |(m : ℚ) - x| → k = m ∨ |(m : ℚ) - x| = 1 / 2) := by
  by_cases hk : k = m
  · subst hk
    exact ⟨le_rfl, fun _ => .inl rfl⟩
  · have h1 : (1 : ℚ) ≤ |(k : ℚ) - m| := by
      have : 1 ≤ |k - m| := Int.one_le_abs (sub_ne_zero.mpr hk)
      exact_mod_cast this
    have h2 : |(k : ℚ) - m| ≤ |(k : ℚ) - x| + |(m : ℚ) - x| := by
      calc |(k : ℚ) - m| = |((k : ℚ) - x) - ((m : ℚ) - x)| := by congr 1; ring
        _ ≤ _ := abs_sub _ _
    exact ⟨by linarith, fun h => .inr (by linarith)⟩

/-! ### The exponent -/

theorem log2_bounds {n : Nat} (hn : n ≠ 0) : (2 : ℚ) ^ (n.log2 : Int) ≤ n ∧ (n : ℚ) < 2 ^ ((n.log2 : Int) + 1) := by
  constructor
  · rw [zpow_natCast]
    exact_mod_cast Nat.log2_self_le hn
  · rw [show ((n.log2 : Int) + 1) = ((n.log2 + 1 : Nat) : Int) by push_cast; rfl, zpow_natCast]
    exact_mod_cast Nat.lt_log2_self

/-- `log2Ratio` is the floor of the logarithm. -/
theorem log2Ratio_spec {n d : Nat} (hn : n ≠ 0) (hd : 0 < d) :
    (2 : ℚ) ^ log2Ratio n d ≤ (n : ℚ) / d ∧ (n : ℚ) / d < 2 ^ (log2Ratio n d + 1) := by
  have hd' : (0 : ℚ) < d := by exact_mod_cast hd
  obtain ⟨hn1, hn2⟩ := log2_bounds hn
  obtain ⟨hd1, hd2⟩ := log2_bounds hd.ne'
  have two : (0 : ℚ) < 2 := by norm_num
  set k : Int := (n.log2 : Int) - (d.log2 : Int) with hk
  have up : (n : ℚ) / d < 2 ^ (k + 1) := by
    rw [div_lt_iff₀ hd']
    calc (n : ℚ) < 2 ^ ((n.log2 : Int) + 1) := hn2
      _ = 2 ^ (k + 1) * 2 ^ (d.log2 : Int) := by rw [← zpow_add₀ two.ne']; congr 1; omega
      _ ≤ _ := by gcongr
  have down : (2 : ℚ) ^ (k - 1) ≤ (n : ℚ) / d := by
    rw [le_div_iff₀ hd']
    calc (2 : ℚ) ^ (k - 1) * d ≤ 2 ^ (k - 1) * 2 ^ ((d.log2 : Int) + 1) := by gcongr
      _ = 2 ^ (n.log2 : Int) := by rw [← zpow_add₀ two.ne']; congr 1; omega
      _ ≤ _ := hn1
  have hv := scaleDown_value (n := n) (d := d) (e := k) hd
  have hp := scaleDown_pos (n := n) (d := d) (e := k) hd
  have hp' : (0 : ℚ) < ((scaleDown n d k).2 : ℚ) := by exact_mod_cast hp
  have hz : (0 : ℚ) < 2 ^ k := by positivity
  unfold log2Ratio
  rw [← hk]
  dsimp only
  split
  · rename_i h
    refine ⟨?_, up⟩
    have : (1 : ℚ) ≤ (n : ℚ) / d / 2 ^ k := by
      rw [← hv, le_div_iff₀ hp', one_mul]
      exact_mod_cast h
    rwa [le_div_iff₀ hz, one_mul] at this
  · rename_i h
    refine ⟨down, ?_⟩
    have : (n : ℚ) / d / 2 ^ k < 1 := by
      rw [← hv, div_lt_iff₀ hp', one_mul]
      exact_mod_cast not_le.mp h
    rw [div_lt_iff₀ hz, one_mul] at this
    simpa using this

/-! ### Rounding -/

theorem signedSig_abs (v : FloatVal) : |signedSig v| = (v.sig : Int) := by
  unfold signedSig
  split <;> simp

/-- The rounded value is nearest among all numbers `k * 2 ^ f` with a 24-bit `k` and no exponent below that of the
subnormals. -/
theorem rounded_nearest {q : ℚ} {e : Int} {m : Nat} (hlow : e = -149 ∨ (2 : ℚ) ^ (e + 23) ≤ q)
    (hm : |(m : ℚ) - q / 2 ^ e| ≤ 1 / 2) (hev : |(m : ℚ) - q / 2 ^ e| = 1 / 2 → m % 2 = 0) (k f : Int)
    (hk : |k| < 2 ^ 24) (hf : -149 ≤ f) :
    |(m : ℚ) * 2 ^ e - q| ≤ |(k : ℚ) * 2 ^ f - q| ∧
      (|(k : ℚ) * 2 ^ f - q| = |(m : ℚ) * 2 ^ e - q| → (k : ℚ) * 2 ^ f = m * 2 ^ e ∨ m % 2 = 0) := by
  have hz : (0 : ℚ) < 2 ^ e := by positivity
  have two : (2 : ℚ) ≠ 0 := by norm_num
  have scale (x : ℚ) : |x * 2 ^ e - q| = |x - q / 2 ^ e| * 2 ^ e := by
    have : x * 2 ^ e - q = (x - q / 2 ^ e) * 2 ^ e := by field_simp
    rw [this, abs_mul, abs_of_pos hz]
  have hm' : |((m : Int) : ℚ) - q / 2 ^ e| ≤ 1 / 2 := by exact_mod_cast hm
  by_cases hfe : e ≤ f
  · have hi : (k : ℚ) * 2 ^ f = ((k * 2 ^ (f - e).toNat : Int) : ℚ) * 2 ^ e := by
      push_cast
      rw [mul_assoc, ← zpow_toNat (by omega), ← zpow_add₀ two]
      congr 2
      omega
    obtain ⟨h1, h2⟩ := nearest_integer hm' (k * 2 ^ (f - e).toNat)
    rw [hi, scale, scale]
    push_cast at h1 h2 ⊢
    refine ⟨by gcongr, fun h => ?_⟩
    rcases h2 (mul_right_cancel₀ hz.ne' h) with h | h
    · left
      have : ((k * 2 ^ (f - e).toNat : Int) : ℚ) = (m : Int) := by exact_mod_cast h
      push_cast at this
      rw [this]
    · exact .inr (hev h)
  · have hq : (2 : ℚ) ^ (e + 23) ≤ q := by
      rcases hlow with h | h
      · omega
      · exact h
    have h23 : (2 : ℚ) ^ (e + 23) = ((2 ^ 23 : Int) : ℚ) * 2 ^ e := by
      rw [zpow_add₀ two]
      norm_num
      ring
    have hlt : (k : ℚ) * 2 ^ f < 2 ^ (e + 23) := by
      calc (k : ℚ) * 2 ^ f ≤ |(k : ℚ)| * 2 ^ f := by gcongr; exact le_abs_self _
        _ < 2 ^ (24 : Int) * 2 ^ f := by
          have : ((|k| : Int) : ℚ) < ((2 ^ 24 : Int) : ℚ) := by exact_mod_cast hk
          have h' : |(k : ℚ)| < 2 ^ (24 : Int) := by
            push_cast at this
            exact this
          gcongr
        _ ≤ 2 ^ (24 : Int) * 2 ^ (e - 1) := by
          gcongr
          · norm_num
          · omega
        _ = 2 ^ (e + 23) := by rw [← zpow_add₀ two]; congr 1; omega
    obtain ⟨h1, -⟩ := nearest_integer hm' (2 ^ 23)
    have hle : |(m : ℚ) * 2 ^ e - q| ≤ |((2 ^ 23 : Int) : ℚ) * 2 ^ e - q| := by
      rw [scale, scale]
      push_cast at h1 ⊢
      gcongr
    rw [← h23, abs_of_nonpos (by linarith : (2 : ℚ) ^ (e + 23) - q ≤ 0)] at hle
    have hgt : |(m : ℚ) * 2 ^ e - q| < |(k : ℚ) * 2 ^ f - q| := by
      rw [abs_of_nonpos (by linarith : (k : ℚ) * 2 ^ f - q ≤ 0)]
      linarith
    exact ⟨hgt.le, fun h => absurd h hgt.ne'⟩

/-- Rounding a fraction that is no infinity gives the nearest datum, ties to even, of the sign asked for. -/
theorem roundToBinary32_nearest {n d : Nat} (neg : Bool) (hd : 0 < d) (hlim : (n : ℚ) / d < 2 ^ (100 : Int)) :
    ∃ v : FloatVal, roundToBinary32 neg n d = .fin v ∧
      NearestEven ((if neg then -1 else 1) * ((n : ℚ) / d)) v := by
  have two : (2 : ℚ) ≠ 0 := by norm_num
  have h1lt : (1 : ℚ) < 2 := by norm_num
  by_cases hn : n = 0
  · subst hn
    refine ⟨_, by simp [roundToBinary32, floatZero]; rfl, ⟨by norm_num, by norm_num, by norm_num, .inr rfl⟩, ?_⟩
    intro u _
    simp [FloatVal.value, signedSig]
  obtain ⟨hlo, hhi⟩ := log2Ratio_spec hn hd
  set q : ℚ := (n : ℚ) / d with hq
  set L := log2Ratio n d with hL
  have hL100 : L < 100 := by
    have : (2 : ℚ) ^ L < 2 ^ (100 : Int) := lt_of_le_of_lt hlo hlim
    exact (zpow_lt_zpow_iff_right₀ h1lt).mp this
  set e : Int := max (L - 23) (-149) with he
  have he149 : -149 ≤ e := le_max_right _ _
  have heL : L - 23 ≤ e := le_max_left _ _
  have he76 : e ≤ 76 := by omega
  have hz : (0 : ℚ) < 2 ^ e := by positivity
  have hp := scaleDown_pos (n := n) (d := d) (e := e) hd
  have hv := scaleDown_value (n := n) (d := d) (e := e) hd
  rw [← hq] at hv
  obtain ⟨hm, hev⟩ := roundHalfEven_spec (n := (scaleDown n d e).1) hp
  set m := roundHalfEven (scaleDown n d e).1 (scaleDown n d e).2 with hmdef
  rw [hv] at hm hev
  have hlow : e = -149 ∨ (2 : ℚ) ^ (e + 23) ≤ q := by
    rcases le_total (L - 23) (-149) with h | h
    · left; rw [he, max_eq_right h]
    · right
      have : e = L - 23 := by rw [he, max_eq_left h]
      rw [this, sub_add_cancel]
      exact hlo
  have hmax : m ≤ 2 ^ 24 := by
    have hx : q / 2 ^ e < 2 ^ (24 : Int) := by
      rw [div_lt_iff₀ hz, ← zpow_add₀ two]
      exact lt_of_lt_of_le hhi (zpow_le_zpow_right₀ h1lt.le (by omega))
    have hx' : q / 2 ^ e < 16777216 := by
      have : (2 : ℚ) ^ (24 : Int) = 16777216 := by norm_num
      rwa [this] at hx
    have : (m : ℚ) < 16777217 := by
      have := (abs_le.mp hm).2
      linarith
    have : m < 16777217 := by exact_mod_cast this
    omega
  have hmin : e = -149 ∨ 2 ^ 23 ≤ m := by
    rcases hlow with h | h
    · exact .inl h
    · right
      have hx : (8388608 : ℚ) ≤ q / 2 ^ e := by
        rw [le_div_iff₀ hz]
        have : (2 : ℚ) ^ (e + 23) = 8388608 * 2 ^ e := by rw [zpow_add₀ two]; norm_num; ring
        rwa [← this]
      have : (8388607 : ℚ) < m := by
        have := (abs_le.mp hm).1
        linarith
      have : 8388607 < m := by exact_mod_cast this
      omega
  -- the datum chosen, with its value
  have main (v : FloatVal) (hvneg : v.neg = neg) (hval : (v.sig : ℚ) * 2 ^ v.exp = m * 2 ^ e)
      (hdat : v.isDatum) (hpar : m % 2 = 0 → v.sig % 2 = 0) :
      NearestEven ((if neg then -1 else 1) * q) v := by
    refine ⟨hdat, fun u hu => ?_⟩
    have hku : |signedSig u| < 2 ^ 24 := by
      rw [signedSig_abs]
      exact_mod_cast hu.1
    have hvv : v.value = (if neg then -1 else 1) * ((m : ℚ) * 2 ^ e) := by
      unfold FloatVal.value signedSig
      rw [hvneg, ← hval]
      split <;> simp
    rw [hvv]
    cases neg with
    | false =>
      obtain ⟨h1, h2⟩ := rounded_nearest hlow hm hev (signedSig u) u.exp hku hu.2.1
      simp only [Bool.false_eq_true, if_false, one_mul]
      exact ⟨h1, fun h => (h2 h).imp id hpar⟩
    | true =>
      obtain ⟨h1, h2⟩ := rounded_nearest hlow hm hev (-signedSig u) u.exp (by rwa [abs_neg]) hu.2.1
      simp only [if_true]
      have flip (x y : ℚ) : |x - -1 * y| = |-x - y| := by rw [← abs_neg]; congr 1; ring
      have hu' : -u.value = ((-signedSig u : Int) : ℚ) * 2 ^ u.exp := by
        unfold FloatVal.value
        push_cast
        ring
      rw [flip, flip, hu']
      simp only [neg_mul, one_mul, neg_neg]
      simp only [Int.cast_neg, neg_mul] at h1 h2
      refine ⟨by simpa using h1, fun h => ?_⟩
      rcases h2 (by simpa using h) with h | h
      · left
        rw [show u.value = -(-u.value) by ring, hu']
        push_cast
        linarith
      · exact .inr (hpar h)
  have hunf : roundToBinary32 neg n d =
      if 104 < e ∨ (e = 104 ∧ m = 2 ^ 24) then .inf neg
      else if m = 2 ^ 24 then .fin { neg := neg, sig := 2 ^ 23, exp := e + 1 }
      else .fin { neg := neg, sig := m, exp := e } := by
    unfold roundToBinary32
    rw [if_neg hn]
  rw [hunf, if_neg (by omega)]
  by_cases hm24 : m = 2 ^ 24
  · rw [if_pos hm24]
    refine ⟨_, rfl, main _ rfl ?_ ⟨by norm_num, ?_, ?_, .inl le_rfl⟩ (fun _ => by norm_num)⟩
    · show ((2 ^ 23 : Nat) : ℚ) * 2 ^ (e + 1) = m * 2 ^ e
      rw [hm24, zpow_add₀ two]
      push_cast
      ring
    · show -149 ≤ e + 1
      omega
    · show e + 1 ≤ 104
      omega
  · rw [if_neg hm24]
    refine ⟨_, rfl, main _ rfl rfl ⟨?_, he149, ?_, ?_⟩ id⟩
    · show m < 2 ^ 24
      omega
    · show e ≤ 104
      omega
    · exact hmin.symm

/-! ### What a rounded value keeps -/

/-- A power of two in range is a datum of either sign. -/
theorem exists_datum_pow (neg : Bool) {k : Int} (h1 : -126 ≤ k) (h2 : k ≤ 127) :
    ∃ u : FloatVal, u.isDatum ∧ u.value = (if neg then -1 else 1) * 2 ^ k := by
  refine ⟨{ neg := neg, sig := 2 ^ 23, exp := k - 23 }, ⟨by norm_num, ?_, ?_, .inl le_rfl⟩, ?_⟩
  · show -149 ≤ k - 23
    omega
  · show k - 23 ≤ 104
    omega
  · have : (2 : ℚ) ^ k = 2 ^ 23 * 2 ^ (k - 23) := by
      rw [show k = 23 + (k - 23) by ring, zpow_add₀ (by norm_num)]
      norm_num
    rw [this]
    cases neg <;> norm_num [FloatVal.value, signedSig]

/-- The distance from `q` to the power of two of its sign. -/
theorem abs_sub_pow (q p : ℚ) : abs ((if q < 0 then -1 else 1) * p - q) = abs (p - |q|) := by
  split
  · rw [abs_of_neg ‹q < 0›, ← abs_neg]
    congr 1
    ring
  · rw [abs_of_nonneg (not_lt.mp ‹¬ q < 0›), one_mul]

theorem NearestEven.near_pow {q : ℚ} {v : FloatVal} (h : NearestEven q v) {k : Int} (h1 : -126 ≤ k) (h2 : k ≤ 127) :
    |v.value - q| ≤ abs (2 ^ k - |q|) := by
  obtain ⟨u, hu, hv⟩ := exists_datum_pow (decide (q < 0)) h1 h2
  have := (h.2 u hu).1
  rw [hv] at this
  simpa only [decide_eq_true_eq, abs_sub_pow] using this

/-- Rounding keeps an upper bound that is a power of two. -/
theorem NearestEven.abs_le_pow {q : ℚ} {v : FloatVal} (h : NearestEven q v) {k : Int} (h1 : -126 ≤ k) (h2 : k ≤ 127)
    (hq : |q| ≤ 2 ^ k) : |v.value| ≤ 2 ^ k := by
  have hd := h.near_pow h1 h2
  rw [abs_of_nonneg (show (0 : ℚ) ≤ 2 ^ k - |q| by linarith)] at hd
  have := abs_sub_abs_le_abs_sub v.value q
  linarith

/-- Rounding keeps a lower bound that is a power of two. -/
theorem NearestEven.pow_le_abs {q : ℚ} {v : FloatVal} (h : NearestEven q v) {k : Int} (h1 : -126 ≤ k) (h2 : k ≤ 127)
    (hq : 2 ^ k ≤ |q|) : 2 ^ k ≤ |v.value| := by
  have hd := h.near_pow h1 h2
  rw [abs_of_nonpos (show (2 : ℚ) ^ k - |q| ≤ 0 by linarith)] at hd
  have := abs_sub_abs_le_abs_sub q v.value
  rw [abs_sub_comm] at this
  linarith

theorem FloatVal.abs_value (v : FloatVal) : |v.value| = v.sig * 2 ^ v.exp := by
  unfold FloatVal.value
  rw [abs_mul, abs_of_pos (by positivity : (0 : ℚ) < 2 ^ v.exp), ← Int.cast_abs, signedSig_abs]
  norm_cast

theorem FloatVal.value_eq_zero_iff (v : FloatVal) : v.value = 0 ↔ v.sig = 0 := by
  rw [← abs_eq_zero, v.abs_value, mul_eq_zero, or_iff_left (by positivity), Nat.cast_eq_zero]

/-- Rounding 0 gives 0. -/
theorem NearestEven.sig_eq_zero {v : FloatVal} (h : NearestEven 0 v) : v.sig = 0 := by
  have hz : (floatZero false) = .fin { neg := false, sig := 0, exp := -149 } := rfl
  have := (h.2 { neg := false, sig := 0, exp := -149 } ⟨by norm_num, by norm_num, by norm_num, .inr rfl⟩).1
  rw [← v.value_eq_zero_iff]
  simpa [FloatVal.value, signedSig] using this

/-- What is 0 or far from the subnormals rounds to 0 or a normal number. -/
theorem NearestEven.normal {q : ℚ} {v : FloatVal} (h : NearestEven q v) (hq : q = 0 ∨ (2 : ℚ) ^ (-126 : Int) ≤ |q|) :
    v.sig = 0 ∨ 2 ^ 23 ≤ v.sig := by
  rcases hq with rfl | hq
  · exact .inl h.sig_eq_zero
  · right
    rcases h.1.2.2.2 with h23 | hexp
    · exact h23
    · have hv := h.pow_le_abs (by norm_num) (by norm_num) hq
      rw [v.abs_value, hexp, show (2 : ℚ) ^ (-126 : Int) = 2 ^ 23 * 2 ^ (-149 : Int) by
        rw [show (-126 : Int) = 23 + -149 by norm_num, zpow_add₀ (by norm_num)]; norm_num] at hv
      exact_mod_cast le_of_mul_le_mul_right hv (by positivity)

/-! ### The operations -/

theorem nearestEven_zero (neg : Bool) : NearestEven 0 { neg := neg, sig := 0, exp := -149 } := by
  refine ⟨⟨by norm_num, by norm_num, by norm_num, .inr rfl⟩, fun u _ => ?_⟩
  simp [FloatVal.value, signedSig]

theorem roundScaled_nearest {n d : Nat} {e : Int} (neg : Bool) (hd : 0 < d)
    (hlim : (n : ℚ) / d * 2 ^ e < 2 ^ (100 : Int)) :
    ∃ v : FloatVal, roundScaled neg n d e = .fin v ∧
      NearestEven ((if neg then -1 else 1) * ((n : ℚ) / d * 2 ^ e)) v := by
  have hv := scaleDown_value (n := n) (d := d) (e := -e) hd
  rw [zpow_neg, div_inv_eq_mul] at hv
  rw [← hv] at hlim ⊢
  exact roundToBinary32_nearest neg (scaleDown_pos hd) hlim

/-- An integer is rounded to the nearest datum (R143). -/
theorem i2f_nearest (w : Word) : ∃ r : FloatVal, i2f w = .fin r ∧ NearestEven (w.toInt : ℚ) r := by
  have h1 := BitVec.le_toInt w
  have h2 := BitVec.toInt_lt (x := w)
  norm_num at h1 h2
  have hb : (w.toInt.natAbs : ℚ) / (1 : Nat) < 2 ^ (100 : Int) := by
    have : w.toInt.natAbs ≤ 2147483648 := by omega
    have : (w.toInt.natAbs : ℚ) ≤ 2147483648 := by exact_mod_cast this
    norm_num
    rw [Nat.cast_natAbs] at this
    push_cast at this
    linarith
  obtain ⟨v, hv, hn⟩ := roundToBinary32_nearest (decide (w.toInt < 0)) Nat.one_pos hb
  refine ⟨v, hv, ?_⟩
  convert hn using 1
  rw [Nat.cast_natAbs]
  push_cast
  by_cases h : w.toInt < 0
  · simp [h, abs_of_neg (show (w.toInt : ℚ) < 0 by exact_mod_cast h)]
  · simp [h, abs_of_nonneg (show (0 : ℚ) ≤ w.toInt by exact_mod_cast not_lt.mp h)]

/-- The sum is rounded once (R145). -/
theorem floatAdd_nearest {a b : FloatVal} (hlim : |a.value + b.value| < 2 ^ (100 : Int)) :
    ∃ v : FloatVal, floatAdd (.fin a) (.fin b) = .fin v ∧ NearestEven (a.value + b.value) v := by
  have two : (2 : ℚ) ≠ 0 := by norm_num
  set e := min a.exp b.exp with he
  set m := signedSig a * 2 ^ (a.exp - e).toNat + signedSig b * 2 ^ (b.exp - e).toNat with hm
  have part (c : FloatVal) (hc : e ≤ c.exp) : c.value = (signedSig c * 2 ^ (c.exp - e).toNat : ℚ) * 2 ^ e := by
    unfold FloatVal.value
    rw [mul_assoc, ← zpow_toNat (by omega), ← zpow_add₀ two]
    congr 2
    ring
  have hsum : a.value + b.value = (m : ℚ) * 2 ^ e := by
    rw [part a (min_le_left _ _), part b (min_le_right _ _), hm]
    push_cast
    ring
  have hunf : floatAdd (.fin a) (.fin b) =
      if m = 0 then floatZero (a.neg && b.neg) else roundScaled (decide (m < 0)) m.natAbs 1 e := rfl
  rw [hsum] at hlim ⊢
  rw [hunf]
  by_cases h0 : m = 0
  · rw [if_pos h0, h0]
    refine ⟨_, rfl, ?_⟩
    simpa using nearestEven_zero _
  · rw [if_neg h0]
    have habs : ((m.natAbs : Nat) : ℚ) = |(m : ℚ)| := by rw [Nat.cast_natAbs]; push_cast; rfl
    rw [abs_mul, abs_of_pos (by positivity : (0 : ℚ) < 2 ^ e)] at hlim
    obtain ⟨v, hv, hn⟩ := roundScaled_nearest (n := m.natAbs) (d := 1) (e := e) (decide (m < 0)) Nat.one_pos
      (by rw [habs]; simpa using hlim)
    refine ⟨v, hv, ?_⟩
    convert hn using 1
    rw [habs]
    by_cases h : m < 0
    · simp [h, abs_of_neg (show (m : ℚ) < 0 by exact_mod_cast h)]
    · simp [h, abs_of_nonneg (show (0 : ℚ) ≤ m by exact_mod_cast not_lt.mp h)]

theorem floatNegate_value (b : FloatVal) : ({ b with neg := !b.neg } : FloatVal).value = -b.value := by
  unfold FloatVal.value signedSig
  cases b.neg <;> simp

/-- The difference is rounded once (R145). -/
theorem floatSub_nearest {a b : FloatVal} (hlim : |a.value - b.value| < 2 ^ (100 : Int)) :
    ∃ v : FloatVal, floatSub (.fin a) (.fin b) = .fin v ∧ NearestEven (a.value - b.value) v := by
  have := floatAdd_nearest (a := a) (b := { b with neg := !b.neg })
  rw [floatNegate_value, ← sub_eq_add_neg] at this
  exact this hlim

theorem value_eq_sign_mul (v : FloatVal) : v.value = (if v.neg then -1 else 1) * (v.sig * 2 ^ v.exp) := by
  unfold FloatVal.value signedSig
  cases v.neg <;> simp

/-- The product is rounded once (R145). -/
theorem floatMul_nearest {a b : FloatVal} (hlim : |a.value * b.value| < 2 ^ (100 : Int)) :
    ∃ v : FloatVal, floatMul (.fin a) (.fin b) = .fin v ∧ NearestEven (a.value * b.value) v := by
  have two : (2 : ℚ) ≠ 0 := by norm_num
  have hmag : ((a.sig * b.sig : Nat) : ℚ) / (1 : Nat) * 2 ^ (a.exp + b.exp) =
      (a.sig * 2 ^ a.exp) * (b.sig * 2 ^ b.exp) := by
    rw [zpow_add₀ two]
    push_cast
    ring
  rw [abs_mul, a.abs_value, b.abs_value, ← hmag] at hlim
  obtain ⟨v, hv, hn⟩ := roundScaled_nearest (a.neg != b.neg) Nat.one_pos hlim
  refine ⟨v, hv, ?_⟩
  rw [hmag] at hn
  convert hn using 1
  rw [value_eq_sign_mul a, value_eq_sign_mul b]
  cases a.neg <;> cases b.neg <;> simp

/-- The quotient is rounded once (R145). -/
theorem floatDiv_nearest {a b : FloatVal} (hb : b.sig ≠ 0) (hlim : |a.value / b.value| < 2 ^ (100 : Int)) :
    ∃ v : FloatVal, floatDiv (.fin a) (.fin b) = .fin v ∧ NearestEven (a.value / b.value) v := by
  have two : (2 : ℚ) ≠ 0 := by norm_num
  have hmag : (a.sig : ℚ) / b.sig * 2 ^ (a.exp - b.exp) = (a.sig * 2 ^ a.exp) / (b.sig * 2 ^ b.exp) := by
    rw [zpow_sub₀ two]
    field_simp
  rw [abs_div, a.abs_value, b.abs_value, ← hmag] at hlim
  obtain ⟨v, hv, hn⟩ := roundScaled_nearest (a.neg != b.neg) (Nat.pos_of_ne_zero hb) hlim
  refine ⟨v, ?_, ?_⟩
  · rw [← hv]
    exact if_neg hb
  · rw [hmag] at hn
    convert hn using 1
    rw [value_eq_sign_mul a, value_eq_sign_mul b]
    cases a.neg <;> cases b.neg <;> simp [div_neg, neg_div]

/-- Truncation discards the fraction (R144). -/
theorem truncateQ_value (r : FloatVal) : truncateQ r.value = truncToInt r := by
  have key : ((truncMagnitude r : Nat) : ℤ) = ⌊(r.sig : ℚ) * 2 ^ r.exp⌋ := by
    unfold truncMagnitude
    split
    · rw [zpow_toNat ‹_›, show (r.sig : ℚ) * 2 ^ r.exp.toNat = ((r.sig * 2 ^ r.exp.toNat : ℕ) : ℚ) by push_cast; ring,
        Int.floor_natCast]
    · rw [show (2 : ℚ) ^ r.exp = (2 ^ (-r.exp).toNat)⁻¹ by rw [← zpow_toNat (by omega), zpow_neg, inv_inv],
        ← div_eq_mul_inv, ← Nat.floor_div_eq_div (K := ℚ)]
      push_cast
      rw [Int.natCast_floor_eq_floor (by positivity)]
  have hnn : (0 : ℚ) ≤ (r.sig : ℚ) * 2 ^ r.exp := by positivity
  unfold truncateQ truncToInt
  rw [key, value_eq_sign_mul]
  cases r.neg with
  | false => simp [hnn]
  | true =>
    simp only [if_true, neg_mul, one_mul]
    split
    · simp [le_antisymm (by linarith) hnn]
    · rw [Int.ceil_neg]

/-! ### Integers -/

/-- Every integer of magnitude up to `2^24` is a datum (R143). -/
theorem exists_datum_int {n : Int} (hn : n.natAbs ≤ 2 ^ 24) : ∃ u : FloatVal, u.isDatum ∧ u.value = (n : ℚ) := by
  have hsign (m : ℚ) (h : m = (n.natAbs : ℚ)) : (if decide (n < 0) = true then -1 else 1) * m = (n : ℚ) := by
    rw [h, Nat.cast_natAbs, Int.cast_abs]
    by_cases h0 : n < 0
    · simp [h0, abs_of_neg (show (n : ℚ) < 0 by exact_mod_cast h0)]
    · simp [h0, abs_of_nonneg (show (0 : ℚ) ≤ n by exact_mod_cast not_lt.mp h0)]
  rcases Nat.lt_or_ge n.natAbs (2 ^ 24) with hlt | hge
  · by_cases h0 : n = 0
    · exact ⟨{ neg := false, sig := 0, exp := -149 }, ⟨by norm_num, by norm_num, by norm_num, .inr rfl⟩,
        by simp [h0, FloatVal.value, signedSig]⟩
    · have hne : n.natAbs ≠ 0 := Int.natAbs_ne_zero.mpr h0
      obtain ⟨k, hk⟩ : ∃ k, n.natAbs.log2 + k = 23 := ⟨23 - n.natAbs.log2, by
        have := (Nat.log2_lt hne).mpr hlt
        omega⟩
      have hlo := Nat.log2_self_le hne
      have hhi : n.natAbs < 2 ^ (n.natAbs.log2 + 1) := Nat.lt_log2_self
      refine ⟨{ neg := decide (n < 0), sig := n.natAbs * 2 ^ k, exp := -(k : Int) }, ⟨?_, ?_, ?_, .inl ?_⟩, ?_⟩
      · calc n.natAbs * 2 ^ k < 2 ^ (n.natAbs.log2 + 1) * 2 ^ k := by gcongr
          _ = 2 ^ 24 := by rw [← pow_add]; congr 1; omega
      · show -149 ≤ -(k : Int)
        omega
      · show -(k : Int) ≤ 104
        omega
      · calc 2 ^ 23 = 2 ^ n.natAbs.log2 * 2 ^ k := by rw [← pow_add, hk]
          _ ≤ n.natAbs * 2 ^ k := by gcongr
      · rw [value_eq_sign_mul]
        apply hsign
        push_cast
        rw [zpow_neg, zpow_natCast]
        field_simp
  · obtain ⟨u, hu, hv⟩ := exists_datum_pow (decide (n < 0)) (k := 24) (by norm_num) (by norm_num)
    refine ⟨u, hu, hv.trans (hsign _ ?_)⟩
    rw [le_antisymm hn hge]
    norm_num

/-- A datum rounds to itself. -/
theorem NearestEven.eq_of_datum {q : ℚ} {u v : FloatVal} (h : NearestEven q v) (hu : u.isDatum) (hq : u.value = q) :
    v.value = q := by
  have := (h.2 u hu).1
  rw [hq, sub_self, abs_zero] at this
  exact sub_eq_zero.mp (abs_eq_zero.mp (le_antisymm this (abs_nonneg _)))

/-- An integer rounds to an integer. -/
theorem NearestEven.exists_int {n : Int} {v : FloatVal} (h : NearestEven (n : ℚ) v) : ∃ k : Int, v.value = k := by
  by_cases hexp : 0 ≤ v.exp
  · refine ⟨signedSig v * 2 ^ v.exp.toNat, ?_⟩
    unfold FloatVal.value
    rw [zpow_toNat hexp]
    push_cast
    rfl
  · by_cases hn : n.natAbs ≤ 2 ^ 24
    · obtain ⟨u, hu, hv⟩ := exists_datum_int hn
      exact ⟨n, h.eq_of_datum hu hv⟩
    · exfalso
      have hlow : (2 : ℚ) ^ (24 : Int) ≤ |(n : ℚ)| := by
        have : 2 ^ 24 ≤ n.natAbs := by omega
        have : ((2 ^ 24 : Nat) : ℚ) ≤ (n.natAbs : ℚ) := by exact_mod_cast this
        rw [Nat.cast_natAbs, Int.cast_abs] at this
        exact_mod_cast this
      have hv := h.pow_le_abs (by norm_num) (by norm_num) hlow
      rw [v.abs_value] at hv
      have hs : (v.sig : ℚ) < 2 ^ (24 : Int) := by exact_mod_cast h.1.1
      have he : (2 : ℚ) ^ v.exp ≤ 1 := zpow_le_one_of_nonpos₀ (by norm_num) (by omega)
      have : (v.sig : ℚ) * 2 ^ v.exp ≤ v.sig * 1 := by gcongr
      linarith

end Sys2Proof.Machine
end

