-- ==== Sys2Proof/Laws/State.lean ====
section
/-! SUPPORT. The state, field by field: what each update leaves and what it gives. Every lemma here is true by
computation or by the lemmas of the library on vectors, so that no later proof unfolds an update. -/

namespace Sys2Proof.Machine

/-! ### `setX` and `setLane` change one field -/

@[simp] theorem State.setX_cfg (s : State) (r : XReg) (w : Word) : (s.setX r w).cfg = s.cfg := rfl
@[simp] theorem State.setX_v (s : State) (r : XReg) (w : Word) : (s.setX r w).v = s.v := rfl
@[simp] theorem State.setX_pc (s : State) (r : XReg) (w : Word) : (s.setX r w).pc = s.pc := rfl
@[simp] theorem State.setX_br (s : State) (r : XReg) (w : Word) : (s.setX r w).br = s.br := rfl
@[simp] theorem State.setX_dir (s : State) (r : XReg) (w : Word) : (s.setX r w).dir = s.dir := rfl
@[simp] theorem State.setX_status (s : State) (r : XReg) (w : Word) : (s.setX r w).status = s.status := rfl
@[simp] theorem State.setX_gsp (s : State) (r : XReg) (w : Word) : (s.setX r w).gsp = s.gsp := rfl
@[simp] theorem State.setX_mem (s : State) (r : XReg) (w : Word) : (s.setX r w).mem = s.mem := rfl

@[simp] theorem State.setLane_cfg (s : State) (r : VReg) (l : Lane) (w : Word) : (s.setLane r l w).cfg = s.cfg := rfl
@[simp] theorem State.setLane_x (s : State) (r : VReg) (l : Lane) (w : Word) : (s.setLane r l w).x = s.x := rfl
@[simp] theorem State.setLane_pc (s : State) (r : VReg) (l : Lane) (w : Word) : (s.setLane r l w).pc = s.pc := rfl
@[simp] theorem State.setLane_br (s : State) (r : VReg) (l : Lane) (w : Word) : (s.setLane r l w).br = s.br := rfl
@[simp] theorem State.setLane_dir (s : State) (r : VReg) (l : Lane) (w : Word) : (s.setLane r l w).dir = s.dir := rfl
@[simp] theorem State.setLane_status (s : State) (r : VReg) (l : Lane) (w : Word) : (s.setLane r l w).status = s.status := rfl
@[simp] theorem State.setLane_gsp (s : State) (r : VReg) (l : Lane) (w : Word) : (s.setLane r l w).gsp = s.gsp := rfl
@[simp] theorem State.setLane_mem (s : State) (r : VReg) (l : Lane) (w : Word) : (s.setLane r l w).mem = s.mem := rfl

/-! ### Reads see only their own field -/

@[simp] theorem State.getX_with_cfg (s : State) (a : Config) (r : XReg) : State.getX { s with cfg := a } r = s.getX r := rfl
@[simp] theorem State.getX_with_v (s : State) (a : Vector (Vector Word 32) 32) (r : XReg) : State.getX { s with v := a } r = s.getX r := rfl
@[simp] theorem State.getX_with_pc (s : State) (a : Word) (r : XReg) : State.getX { s with pc := a } r = s.getX r := rfl
@[simp] theorem State.getX_with_br (s : State) (a : Word) (r : XReg) : State.getX { s with br := a } r = s.getX r := rfl
@[simp] theorem State.getX_with_dir (s : State) (a : Direction) (r : XReg) : State.getX { s with dir := a } r = s.getX r := rfl
@[simp] theorem State.getX_with_status (s : State) (a : Status) (r : XReg) : State.getX { s with status := a } r = s.getX r := rfl
@[simp] theorem State.getX_with_gsp (s : State) (a : Nat) (r : XReg) : State.getX { s with gsp := a } r = s.getX r := rfl
@[simp] theorem State.getX_with_mem (s : State) (a : Memory) (r : XReg) : State.getX { s with mem := a } r = s.getX r := rfl
@[simp] theorem State.getX_setLane (s : State) (r : VReg) (l : Lane) (w : Word) (q : XReg) : (s.setLane r l w).getX q = s.getX q := rfl

@[simp] theorem State.getLane_with_cfg (s : State) (a : Config) (r : VReg) (l : Lane) : State.getLane { s with cfg := a } r l = s.getLane r l := rfl
@[simp] theorem State.getLane_with_x (s : State) (a : Vector Word 32) (r : VReg) (l : Lane) : State.getLane { s with x := a } r l = s.getLane r l := rfl
@[simp] theorem State.getLane_with_pc (s : State) (a : Word) (r : VReg) (l : Lane) : State.getLane { s with pc := a } r l = s.getLane r l := rfl
@[simp] theorem State.getLane_with_br (s : State) (a : Word) (r : VReg) (l : Lane) : State.getLane { s with br := a } r l = s.getLane r l := rfl
@[simp] theorem State.getLane_with_dir (s : State) (a : Direction) (r : VReg) (l : Lane) : State.getLane { s with dir := a } r l = s.getLane r l := rfl
@[simp] theorem State.getLane_with_status (s : State) (a : Status) (r : VReg) (l : Lane) : State.getLane { s with status := a } r l = s.getLane r l := rfl
@[simp] theorem State.getLane_with_gsp (s : State) (a : Nat) (r : VReg) (l : Lane) : State.getLane { s with gsp := a } r l = s.getLane r l := rfl
@[simp] theorem State.getLane_with_mem (s : State) (a : Memory) (r : VReg) (l : Lane) : State.getLane { s with mem := a } r l = s.getLane r l := rfl
@[simp] theorem State.getLane_setX (s : State) (r : XReg) (w : Word) (q : VReg) (l : Lane) : (s.setX r w).getLane q l = s.getLane q l := rfl

theorem State.getX_congr {s t : State} (h : t.x = s.x) (r : XReg) : t.getX r = s.getX r := by
  simp [State.getX, h]

theorem State.getLane_congr {s t : State} (h : t.v = s.v) (r : VReg) (l : Lane) : t.getLane r l = s.getLane r l := by
  simp [State.getLane, h]

/-! ### Read after write -/

theorem regIndex_inj {a b : BitVec 5} : (regIndex a).val = (regIndex b).val ↔ a = b :=
  ⟨fun h => BitVec.eq_of_toNat_eq h, fun h => h ▸ rfl⟩

/-- A scalar register reads as what was last written to it, and every other one as before (R20, R21). -/
theorem State.getX_setX (s : State) (r q : XReg) (w : Word) :
    (s.setX r w).getX q = if q = r then w else s.getX q := by
  simp only [State.getX, State.setX, Fin.getElem_fin, Vector.getElem_set, regIndex_inj]
  by_cases h : r = q <;> simp [h, eq_comm]

@[simp] theorem State.getX_setX_same (s : State) (r : XReg) (w : Word) : (s.setX r w).getX r = w := by
  simp [State.getX_setX]

theorem State.getX_setX_other (s : State) {r q : XReg} (w : Word) (h : q ≠ r) :
    (s.setX r w).getX q = s.getX q := by
  simp [State.getX_setX, h]

/-- A lane reads as what was last written to it, and every other lane of every register as before (R24). -/
theorem State.getLane_setLane (s : State) (r q : VReg) (l m : Lane) (w : Word) :
    (s.setLane r l w).getLane q m = if q = r ∧ m = l then w else s.getLane q m := by
  by_cases h : q = r
  · subst h
    by_cases hm : m = l
    · subst hm; simp [State.getLane, State.setLane]
    · have hv : l.val ≠ m.val := fun e => hm (Fin.ext e.symm)
      simp [State.getLane, State.setLane, hv, hm]
  · have hr : (regIndex r).val ≠ (regIndex q).val := fun e => h (regIndex_inj.mp e).symm
    simp [State.getLane, State.setLane, hr, h]

@[simp] theorem State.getLane_setLane_same (s : State) (r : VReg) (l : Lane) (w : Word) :
    (s.setLane r l w).getLane r l = w := by
  simp [State.getLane_setLane]

/-! ### Equality of states, register by register -/

/-- Two vector register files with the same lanes are equal. -/
theorem vfile_ext {a b : Vector (Vector Word 32) 32}
    (h : ∀ (i : Nat) (hi : i < 32) (l : Nat) (hl : l < 32), (a[i])[l] = (b[i])[l]) : a = b := by
  apply Vector.ext
  intro i hi
  apply Vector.ext
  intro l hl
  exact h i hi l hl

/-- Two states with the same scalar reads have the same scalar file. -/
theorem State.x_ext {s t : State} (h : ∀ r : XReg, t.getX r = s.getX r) : t.x = s.x := by
  apply Vector.ext
  intro i hi
  have e := h (BitVec.ofNat 5 i)
  have n : i % 32 = i := Nat.mod_eq_of_lt hi
  simpa [State.getX, regIndex, n] using e

/-- Two states with the same lane reads have the same vector file. -/
theorem State.v_ext {s t : State} (h : ∀ (r : VReg) (l : Lane), t.getLane r l = s.getLane r l) : t.v = s.v := by
  apply vfile_ext
  intro i hi l hl
  have e := h (BitVec.ofNat 5 i) ⟨l, hl⟩
  have n : i % 32 = i := Nat.mod_eq_of_lt hi
  simpa [State.getLane, regIndex, n] using e

/-- States are equal when every field is. -/
theorem State.ext_fields {s t : State} (hcfg : t.cfg = s.cfg) (hx : t.x = s.x) (hv : t.v = s.v) (hpc : t.pc = s.pc)
    (hbr : t.br = s.br) (hdir : t.dir = s.dir) (hst : t.status = s.status) (hgsp : t.gsp = s.gsp)
    (hmem : t.mem = s.mem) : t = s := by
  cases s
  cases t
  simp only [State.mk.injEq]
  exact ⟨hcfg, hx, hv, hpc, hbr, hdir, hst, hgsp, hmem⟩

end Sys2Proof.Machine
end

