-- ==== Sys2Proof/Laws/Memory.lean ====
section
/-! SUPPORT. The memory: read after write, and that every write keeps the canonical form. -/

namespace Sys2Proof.Machine

/-- All listed indices are at least `n`. -/
def CellsAbove (n : Nat) (cells : List (Nat × Word)) : Prop := ∀ c ∈ cells, n < c.1

theorem cellsRead_of_above {a : Nat} {cells : List (Nat × Word)} (h : CellsAbove a cells) :
    cellsRead cells a = unlistedWord := by
  induction cells with
  | nil => rfl
  | cons c rest ih =>
    have hc : a < c.1 := h c (by simp)
    have hr : CellsAbove a rest := fun d hd => h d (by simp [hd])
    simp [cellsRead, Nat.ne_of_lt hc, ih hr]

/-- Cells in canonical form: indices strictly rise and no cell holds the unlisted word. -/
def CellsWf (cells : List (Nat × Word)) : Prop :=
  (cells.Pairwise fun c d => c.1 < d.1) ∧ ∀ c ∈ cells, c.2 ≠ unlistedWord

theorem Memory.wf_iff (m : Memory) : m.wf = true ↔ CellsWf m.cells := by
  simp [Memory.wf, CellsWf]

theorem CellsWf.tail {c : Nat × Word} {rest : List (Nat × Word)} (h : CellsWf (c :: rest)) : CellsWf rest :=
  ⟨(List.pairwise_cons.mp h.1).2, fun d hd => h.2 d (by simp [hd])⟩

theorem CellsWf.above {c : Nat × Word} {rest : List (Nat × Word)} (h : CellsWf (c :: rest)) :
    CellsAbove c.1 rest := fun d hd => (List.pairwise_cons.mp h.1).1 d hd

theorem CellsWf.cons {c : Nat × Word} {rest : List (Nat × Word)} (h : CellsWf rest) (ha : CellsAbove c.1 rest)
    (hc : c.2 ≠ unlistedWord) : CellsWf (c :: rest) := by
  refine ⟨List.pairwise_cons.mpr ⟨fun d hd => ha d hd, h.1⟩, ?_⟩
  intro d hd
  rcases List.mem_cons.mp hd with rfl | hd
  · exact hc
  · exact h.2 d hd

theorem cellsWrite_above {n a : Nat} {w : Word} {cells : List (Nat × Word)} (hn : n < a)
    (h : CellsAbove n cells) : CellsAbove n (cellsWrite cells a w) := by
  induction cells with
  | nil =>
    intro c hc
    by_cases hw : w = unlistedWord
    · simp [cellsWrite, hw] at hc
    · simp only [cellsWrite, if_neg hw, List.mem_singleton] at hc
      exact hc ▸ hn
  | cons c rest ih =>
    obtain ⟨b, u⟩ := c
    have hr : CellsAbove n rest := fun d hd => h d (by simp [hd])
    have hb : n < b := h (b, u) (by simp)
    intro d hd
    simp only [cellsWrite] at hd
    split at hd
    · split at hd
      · exact h d hd
      · rcases List.mem_cons.mp hd with rfl | hd
        · exact hn
        · exact h d hd
    · split at hd
      · split at hd
        · exact hr d hd
        · rcases List.mem_cons.mp hd with rfl | hd
          · exact hn
          · exact hr d hd
      · rcases List.mem_cons.mp hd with rfl | hd
        · exact hb
        · exact ih hr d hd

/-- Every write keeps the canonical form. -/
theorem cellsWrite_wf {a : Nat} {w : Word} {cells : List (Nat × Word)} (h : CellsWf cells) :
    CellsWf (cellsWrite cells a w) := by
  induction cells with
  | nil =>
    by_cases hw : w = unlistedWord
    · simp [cellsWrite, hw, CellsWf]
    · simp only [cellsWrite, if_neg hw]
      exact CellsWf.cons ⟨List.Pairwise.nil, by simp⟩ (fun d hd => by simp at hd) hw
  | cons c rest ih =>
    obtain ⟨b, u⟩ := c
    simp only [cellsWrite]
    split
    · rename_i hab
      split
      · exact h
      · rename_i hw
        refine CellsWf.cons h ?_ hw
        intro d hd
        rcases List.mem_cons.mp hd with rfl | hd
        · exact hab
        · exact Nat.lt_trans hab (h.above d hd)
    · split
      · rename_i hab
        subst hab
        split
        · exact h.tail
        · rename_i hw
          exact CellsWf.cons h.tail h.above hw
      · rename_i h1 h2
        exact CellsWf.cons (ih h.tail) (cellsWrite_above (by omega) h.above) (h.2 (b, u) (by simp))

/-- A canonical list reads, after a write, as written there and as before everywhere else. -/
theorem cellsRead_cellsWrite {cells : List (Nat × Word)} (h : CellsWf cells) (a b : Nat) (w : Word) :
    cellsRead (cellsWrite cells a w) b = if b = a then w else cellsRead cells b := by
  induction cells with
  | nil =>
    by_cases hw : w = unlistedWord <;> by_cases hb : b = a <;> simp [cellsWrite, cellsRead, hw, hb]
  | cons c rest ih =>
    obtain ⟨n, u⟩ := c
    simp only [cellsWrite]
    split
    · rename_i hab
      split
      · rename_i hw
        by_cases hb : b = a
        · subst hb
          have hn : CellsAbove b ((n, u) :: rest) := by
            intro d hd
            rcases List.mem_cons.mp hd with rfl | hd
            · exact hab
            · exact Nat.lt_trans hab (h.above d hd)
          rw [cellsRead_of_above hn, if_pos rfl, hw]
        · simp [hb]
      · simp [cellsRead]
    · split
      · rename_i hab
        subst hab
        split
        · rename_i hw
          by_cases hb : b = a
          · subst hb
            rw [cellsRead_of_above h.above, if_pos rfl, hw]
          · simp [cellsRead, hb]
        · by_cases hb : b = a <;> simp [cellsRead, hb]
      · rename_i h1 h2
        simp only [cellsRead, ih h.tail]
        by_cases hb : b = n
        · subst hb
          simp [show b ≠ a from fun e => h2 e.symm]
        · simp [hb]

/-- Reading the index just written gives the word written; every other index reads as before (R52, R67). -/
theorem Memory.read_write {m : Memory} (h : m.wf = true) (a b : Nat) (w : Word) :
    (m.write a w).read b = if b = a then w else m.read b :=
  cellsRead_cellsWrite ((Memory.wf_iff m).mp h) a b w

theorem Memory.read_write_same {m : Memory} (h : m.wf = true) (a : Nat) (w : Word) :
    (m.write a w).read a = w := by
  simp [Memory.read_write h]

theorem Memory.read_write_other {m : Memory} (h : m.wf = true) {a b : Nat} (w : Word) (hb : b ≠ a) :
    (m.write a w).read b = m.read b := by
  simp [Memory.read_write h, hb]

/-- Every write keeps the canonical form. -/
theorem Memory.write_wf {m : Memory} (h : m.wf = true) (a : Nat) (w : Word) : (m.write a w).wf = true :=
  (Memory.wf_iff _).mpr (cellsWrite_wf ((Memory.wf_iff m).mp h))

theorem cellsWrite_mem {a : Nat} {w : Word} {cells : List (Nat × Word)} {c : Nat × Word}
    (hc : c ∈ cellsWrite cells a w) : c.1 = a ∨ c ∈ cells := by
  induction cells with
  | nil =>
    by_cases hw : w = unlistedWord
    · simp [cellsWrite, hw] at hc
    · simp only [cellsWrite, if_neg hw, List.mem_singleton] at hc
      exact Or.inl (hc ▸ rfl)
  | cons d rest ih =>
    obtain ⟨b, u⟩ := d
    simp only [cellsWrite] at hc
    split at hc
    · split at hc
      · exact Or.inr hc
      · rcases List.mem_cons.mp hc with rfl | hc
        · exact Or.inl rfl
        · exact Or.inr hc
    · split at hc
      · split at hc
        · exact Or.inr (List.mem_cons_of_mem _ hc)
        · rcases List.mem_cons.mp hc with rfl | hc
          · exact Or.inl rfl
          · exact Or.inr (List.mem_cons_of_mem _ hc)
      · rcases List.mem_cons.mp hc with rfl | hc
        · exact Or.inr (by simp)
        · rcases ih hc with h | h
          · exact Or.inl h
          · exact Or.inr (List.mem_cons_of_mem _ h)

/-- A write inside the memory keeps every listed index inside it. -/
theorem Memory.write_within {m : Memory} {n a : Nat} {w : Word} (h : m.within n = true) (ha : a < n) :
    (m.write a w).within n = true := by
  simp only [Memory.within, List.all_eq_true, decide_eq_true_eq] at h ⊢
  intro c hc
  rcases cellsWrite_mem hc with e | hm
  · exact e ▸ ha
  · exact h c hm

theorem cells_ext {c d : List (Nat × Word)} (hc : CellsWf c) (hd : CellsWf d)
    (h : ∀ a, cellsRead c a = cellsRead d a) : c = d := by
  induction c generalizing d with
  | nil =>
    cases d with
    | nil => rfl
    | cons e rest =>
      have := h e.1
      simp only [cellsRead, if_true] at this
      exact absurd this.symm (hd.2 e (by simp))
  | cons e rest ih =>
    cases d with
    | nil =>
      have := h e.1
      simp only [cellsRead, if_true] at this
      exact absurd this (hc.2 e (by simp))
    | cons f more =>
      have he := h e.1
      have hf := h f.1
      simp only [cellsRead, if_true] at he hf
      have hidx : e.1 = f.1 := by
        rcases Nat.lt_trichotomy e.1 f.1 with hlt | heq | hgt
        · have habove : CellsAbove e.1 more := fun x hx => Nat.lt_trans hlt (hd.above x hx)
          rw [if_neg (Nat.ne_of_lt hlt), cellsRead_of_above habove] at he
          exact absurd he (hc.2 e (by simp))
        · exact heq
        · have habove : CellsAbove f.1 rest := fun x hx => Nat.lt_trans hgt (hc.above x hx)
          rw [if_neg (Nat.ne_of_lt hgt), cellsRead_of_above habove] at hf
          exact absurd hf.symm (hd.2 f (by simp))
      have hval : e.2 = f.2 := by simpa [hidx] using he
      have htail : rest = more := by
        refine ih hc.tail hd.tail fun a => ?_
        by_cases ha : a = e.1
        · rw [ha, cellsRead_of_above hc.above, hidx, cellsRead_of_above hd.above]
        · have := h a
          simpa [cellsRead, ha, show a ≠ f.1 from hidx ▸ ha] using this
      rw [htail, show e = f from Prod.ext hidx hval]

/-- Two canonical memories that read alike are equal. -/
theorem Memory.ext_read {m n : Memory} (hm : m.wf = true) (hn : n.wf = true) (h : ∀ a, m.read a = n.read a) :
    m = n := by
  cases m; cases n
  exact congrArg Memory.mk (cells_ext ((Memory.wf_iff _).mp hm) ((Memory.wf_iff _).mp hn) h)

end Sys2Proof.Machine
end

