-- ==== Sys2Proof/Laws/Ops.lean ====
section
/-! SUPPORT. What each shared operation can do, said once, for later proofs to cite instead of unfolding it. -/

namespace Sys2Proof.Machine

/-! ### The checks -/

theorem requireInBounds_eq (ea : Int) (n : Nat) (s : State) :
    requireInBounds ea n s =
      if 0 ≤ ea ∧ ea + n ≤ (s.cfg.words : Int) then .ok () else .error .addressOutOfBounds := by
  unfold requireInBounds
  by_cases h : 0 ≤ ea ∧ ea + n ≤ (s.cfg.words : Int)
  · rw [if_neg (by omega), if_pos h]
  · rw [if_pos (by omega), if_neg h]

theorem requireRoom_eq (n : Nat) (s : State) :
    requireRoom n s = if s.gsp + n ≤ s.cfg.gSize then .ok () else .error .garbageOverflow := by
  unfold requireRoom
  by_cases h : s.gsp + n ≤ s.cfg.gSize
  · rw [if_neg (by omega), if_pos h]
  · rw [if_pos (by omega), if_neg h]

theorem requireHeld_eq (n : Nat) (s : State) :
    requireHeld n s = if n ≤ s.gsp then .ok () else .error .garbageUnderflow := by
  unfold requireHeld
  by_cases h : n ≤ s.gsp
  · rw [if_neg (by omega), if_pos h]
  · rw [if_pos (by omega), if_neg h]

/-! ### The primitives -/

/-- Everything `MemRead` can do. -/
theorem memRead_eq (a : Int) (s : State) :
    memRead a s =
      if 0 ≤ a ∧ a < (s.cfg.words : Int) then .ok (s.mem.read a.toNat) else .error .addressOutOfBounds := by
  unfold memRead
  rw [requireInBounds_eq]
  by_cases h : 0 ≤ a ∧ a < (s.cfg.words : Int)
  · rw [if_pos (by omega), if_pos h]; rfl
  · rw [if_neg (by omega), if_neg h]; rfl

/-- Everything `MemWrite` can do. -/
theorem memWrite_eq (a : Int) (w : Word) (s : State) :
    memWrite a w s =
      if 0 ≤ a ∧ a < (s.cfg.words : Int) then .ok { s with mem := s.mem.write a.toNat w }
      else .error .addressOutOfBounds := by
  unfold memWrite
  rw [requireInBounds_eq]
  by_cases h : 0 ≤ a ∧ a < (s.cfg.words : Int)
  · rw [if_pos (by omega), if_pos h]; rfl
  · rw [if_neg (by omega), if_neg h]; rfl

/-- Everything `PushGarbage` can do. -/
theorem pushGarbage_eq (w : Word) (s : State) :
    pushGarbage w s =
      if s.gsp < s.cfg.gSize then
        .ok { s with mem := s.mem.write (slotIndex s.cfg s.gsp) w, gsp := s.gsp + 1 }
      else .error .garbageOverflow := by
  unfold pushGarbage
  rw [requireRoom_eq]
  by_cases h : s.gsp < s.cfg.gSize
  · rw [if_pos (by omega), if_pos h]; rfl
  · rw [if_neg (by omega), if_neg h]; rfl

/-- Everything `PopGarbage` can do. -/
theorem popGarbage_eq (s : State) :
    popGarbage s =
      if 0 < s.gsp then
        .ok (s.mem.read (slotIndex s.cfg (s.gsp - 1)),
          { s with mem := s.mem.write (slotIndex s.cfg (s.gsp - 1)) 0#32, gsp := s.gsp - 1 })
      else .error .garbageUnderflow := by
  unfold popGarbage
  rw [requireHeld_eq]
  by_cases h : 0 < s.gsp
  · rw [if_pos (by omega), if_pos h]; rfl
  · rw [if_neg (by omega), if_neg h]; rfl

/-- A garbage slot that a push can use lies in the garbage region (R58). -/
theorem slotIndex_bounds {c : Config} {k : Nat} (h : k < c.gSize) :
    c.gBase ≤ slotIndex c k ∧ slotIndex c k < c.words := by
  simp only [slotIndex, Config.gBase, Config.gSize, Config.words] at *
  omega

/-- Different garbage slots have different indices. -/
theorem slotIndex_inj {c : Config} {j k : Nat} (hj : j < c.gSize) (hk : k < c.gSize)
    (h : slotIndex c j = slotIndex c k) : j = k := by
  simp only [slotIndex, Config.gSize, Config.words] at *
  omega

/-! ### Raising and committing -/

theorem commit_ok {s t : State} {r : Except ErrorKind State} (h : r = .ok t) : commit s r = .next t := by
  rw [h]; rfl

theorem commit_error {s : State} {k : ErrorKind} {r : Except ErrorKind State} (h : r = .error k) :
    commit s r = .next { s with status := .error k } := by
  rw [h]; rfl

/-- Everything `commit` can do: the body's state, or the state before it with the error recorded (R304). -/
theorem commit_cases {s t : State} {r : Except ErrorKind State} (h : commit s r = .next t) :
    r = .ok t ∨ ∃ k, r = .error k ∧ t = { s with status := .error k } := by
  cases r with
  | ok u => exact Or.inl (by simpa [commit] using h)
  | error k => exact Or.inr ⟨k, rfl, by simpa [commit, raise] using h.symm⟩

/-- `commit` always answers a next state. -/
theorem commit_next (s : State) (r : Except ErrorKind State) : ∃ t, commit s r = .next t := by
  cases r with
  | ok u => exact ⟨u, rfl⟩
  | error k => exact ⟨_, rfl⟩

/-! ### The loop over lanes -/

@[simp] theorem forLanes_nil (body : Lane → State → Except ErrorKind State) (s : State) :
    forLanes body [] s = .ok s := rfl

theorem forLanes_cons_ok {body : Lane → State → Except ErrorKind State} {l : Lane} {ls : List Lane} {s t : State}
    (h : body l s = .ok t) : forLanes body (l :: ls) s = forLanes body ls t := by
  simp [forLanes, h, bind, Except.bind]

theorem forLanes_cons_error {body : Lane → State → Except ErrorKind State} {l : Lane} {ls : List Lane} {s : State}
    {k : ErrorKind} (h : body l s = .error k) : forLanes body (l :: ls) s = .error k := by
  simp [forLanes, h, bind, Except.bind]

/-- A property that every lane's body keeps holds after the loop. -/
theorem forLanes_keeps {P : State → Prop} {body : Lane → State → Except ErrorKind State} {ls : List Lane}
    (hbody : ∀ l s t, P s → body l s = .ok t → P t) {s t : State} (hs : P s)
    (h : forLanes body ls s = .ok t) : P t := by
  induction ls generalizing s with
  | nil => cases h; exact hs
  | cons l ls ih =>
    cases hb : body l s with
    | error k => rw [forLanes_cons_error hb] at h; cases h
    | ok u =>
      rw [forLanes_cons_ok hb] at h
      exact ih (hbody l s u hs hb) h

/-- A loop whose every lane succeeds from a property that it keeps succeeds. -/
theorem forLanes_succeeds {P : State → Prop} {body : Lane → State → Except ErrorKind State} (ls : List Lane)
    (hbody : ∀ l s, P s → ∃ t, body l s = .ok t ∧ P t) {s : State} (hs : P s) :
    ∃ t, forLanes body ls s = .ok t ∧ P t := by
  induction ls generalizing s with
  | nil => exact ⟨s, rfl, hs⟩
  | cons l ls ih =>
    obtain ⟨u, hu, hP⟩ := hbody l s hs
    obtain ⟨t, ht, hQ⟩ := ih hP
    exact ⟨t, by rw [forLanes_cons_ok hu, ht], hQ⟩

/-- A loop whose bodies never fail is a fold. -/
theorem forLanes_eq_foldl {g : Lane → State → State} (ls : List Lane) (s : State) :
    forLanes (fun l t => .ok (g l t)) ls s = .ok (ls.foldl (fun t l => g l t) s) := by
  induction ls generalizing s with
  | nil => rfl
  | cons l ls ih => rw [forLanes_cons_ok rfl, ih]; rfl

theorem mem_lanesUp (l : Lane) : l ∈ lanesUp := List.mem_finRange l

theorem mem_lanesDown (l : Lane) : l ∈ lanesDown := List.mem_reverse.mpr (mem_lanesUp l)

theorem nodup_lanesUp : lanesUp.Nodup := List.nodup_finRange 32

end Sys2Proof.Machine
end

