-- ==== Sys2Proof/Laws/Instructions.lean ====
section
/-! SUPPORT. What the shared operations behind the instructions can do, said once: the function templates, the
branch template, the sequencer. -/

namespace Sys2Proof.Machine

/-! ### Scalar functions -/

theorem scalarFn_ok {f : Fn} {rd : XReg} {b r : Word} {s : State}
    (h : applyFn (fnInDirection s.dir f) (s.getX rd) b = .ok r) : scalarFn f rd b s = .next (s.setX rd r) :=
  commit_ok (by simp [h, bind, Except.bind, pure, Except.pure])

theorem scalarFn_error {f : Fn} {rd : XReg} {b : Word} {s : State} {k : ErrorKind}
    (h : applyFn (fnInDirection s.dir f) (s.getX rd) b = .error k) :
    scalarFn f rd b s = .next { s with status := .error k } :=
  commit_error (by simp [h, bind, Except.bind])

/-! ### Writing all lanes of a vector register -/

/-- After lanes `ls` were set from `g`, those lanes read as `g` says and all other lanes as before. -/
theorem getLane_foldl_setLane (g : Lane → Word) (vd : VReg) (ls : List Lane) (s : State) (q : VReg) (m : Lane) :
    (ls.foldl (fun t l => t.setLane vd l (g l)) s).getLane q m =
      if q = vd ∧ m ∈ ls then g m else s.getLane q m := by
  induction ls generalizing s with
  | nil => simp
  | cons l ls ih =>
    rw [List.foldl_cons, ih, State.getLane_setLane]
    by_cases hq : q = vd <;> by_cases hm : m = l <;> by_cases hl : m ∈ ls <;> simp_all

/-- Setting lanes changes the vector file only. -/
theorem foldl_setLane_eq (g : Lane → Word) (vd : VReg) (ls : List Lane) (s : State) :
    ls.foldl (fun t l => t.setLane vd l (g l)) s =
      { s with v := (ls.foldl (fun t l => t.setLane vd l (g l)) s).v } := by
  induction ls generalizing s with
  | nil => rfl
  | cons l ls ih => rw [List.foldl_cons, ih]; rfl

/-- Reading a vector register file whose register `vd` is made from `g`. -/
theorem getLane_set_ofFn (g : Lane → Word) (vd : VReg) (s : State) (q : VReg) (m : Lane) :
    State.getLane
        { s with v := s.v.set (regIndex vd).val (Vector.ofFn g) (regIndex vd).isLt } q m =
      if q = vd then g m else s.getLane q m := by
  by_cases h : q = vd
  · subst h; simp [State.getLane]
  · have hr : (regIndex vd).val ≠ (regIndex q).val := fun e => h (regIndex_inj.mp e).symm
    simp [State.getLane, h, hr]

/-- Setting every lane of a register, in whatever order, is setting the register. -/
theorem foldl_setLane_complete (g : Lane → Word) (vd : VReg) (s : State) {ls : List Lane} (hls : ∀ l, l ∈ ls) :
    ls.foldl (fun t l => t.setLane vd l (g l)) s =
      { s with v := s.v.set (regIndex vd).val (Vector.ofFn g) (regIndex vd).isLt } := by
  rw [foldl_setLane_eq]
  have hv : (ls.foldl (fun t l => t.setLane vd l (g l)) s).v =
      s.v.set (regIndex vd).val (Vector.ofFn g) (regIndex vd).isLt := by
    refine State.v_ext
      (s := { s with v := s.v.set (regIndex vd).val (Vector.ofFn g) (regIndex vd).isLt }) fun q m => ?_
    rw [getLane_set_ofFn, getLane_foldl_setLane]
    simp [hls]
  rw [hv]

theorem foldl_setLane_all (g : Lane → Word) (vd : VReg) (s : State) :
    lanesUp.foldl (fun t l => t.setLane vd l (g l)) s =
      { s with v := s.v.set (regIndex vd).val (Vector.ofFn g) (regIndex vd).isLt } :=
  foldl_setLane_complete g vd s mem_lanesUp

/-- A loop that computes a word for each lane and writes it succeeds when every lane does. -/
theorem forLanes_compute_ok {c : Lane → Except ErrorKind Word} {g : Lane → Word} (hc : ∀ l, c l = .ok (g l))
    (vd : VReg) (ls : List Lane) (s : State) :
    forLanes (fun l t => do let r ← c l; pure (t.setLane vd l r)) ls s =
      .ok (ls.foldl (fun t l => t.setLane vd l (g l)) s) := by
  have : (fun (l : Lane) (t : State) => (do let r ← c l; pure (t.setLane vd l r) : Except ErrorKind State)) =
      fun l t => .ok (t.setLane vd l (g l)) := by
    funext l t; rw [hc l]; rfl
  rw [this, forLanes_eq_foldl]

/-- It fails with the one kind its lanes fail with, when some lane does. -/
theorem forLanes_compute_error {c : Lane → Except ErrorKind Word} {k : ErrorKind}
    (hk : ∀ l j, c l = .error j → j = k) (vd : VReg) {ls : List Lane} (hls : ∃ l ∈ ls, c l = .error k)
    (s : State) :
    forLanes (fun l t => do let r ← c l; pure (t.setLane vd l r)) ls s = .error k := by
  induction ls generalizing s with
  | nil => obtain ⟨l, hl, -⟩ := hls; cases hl
  | cons l ls ih =>
    cases hcl : c l with
    | error j => rw [forLanes_cons_error (k := j) (by simp [hcl, bind, Except.bind]), hk l j hcl]
    | ok r =>
      rw [forLanes_cons_ok (t := s.setLane vd l r) (by simp [hcl, bind, Except.bind, pure, Except.pure])]
      obtain ⟨m, hm, hcm⟩ := hls
      rcases List.mem_cons.mp hm with rfl | hm
      · rw [hcl] at hcm; cases hcm
      · exact ih ⟨m, hm, hcm⟩ _

/-- The functions of the library raise `ArithmeticFault` and nothing else (R130). -/
theorem applyFn_error {f : Fn} {a b : Word} {k : ErrorKind} (h : applyFn f a b = .error k) :
    k = .arithmeticFault := by
  have hf : ∀ v : Binary32, f2i v = .error k → k = .arithmeticFault := by
    intro v hv
    cases v with
    | nan => simpa [f2i] using hv.symm
    | inf n => simpa [f2i] using hv.symm
    | fin v =>
      simp only [f2i] at hv
      split at hv
      · simpa using hv.symm
      · cases hv
  cases f with
  | div =>
    simp only [applyFn, fnDiv] at h
    split at h
    · simpa using h.symm
    · split at h
      · simpa using h.symm
      · cases h
  | fadd => exact hf _ h
  | fsub => exact hf _ h
  | fmul => exact hf _ h
  | fdiv => exact hf _ h
  | xor => cases h
  | neg => cases h
  | add => cases h
  | sub => cases h
  | mul => cases h
  | rr => cases h
  | rl => cases h

/-- A vector function writes all 32 lanes when no lane faults (R202). -/
theorem vectorFn_ok {f : Fn} {vd : VReg} {b g : Lane → Word} {s : State}
    (h : ∀ l, applyFn (fnInDirection s.dir f) (s.getLane vd l) (b l) = .ok (g l)) :
    vectorFn f vd b s =
      .next { s with v := s.v.set (regIndex vd).val (Vector.ofFn g) (regIndex vd).isLt } :=
  commit_ok (by rw [forLanes_compute_ok h, foldl_setLane_all])

/-- One faulting lane faults the instruction, and nothing but the status changes (R202). -/
theorem vectorFn_error {f : Fn} {vd : VReg} {b : Lane → Word} {s : State}
    (h : ∃ l k, applyFn (fnInDirection s.dir f) (s.getLane vd l) (b l) = .error k) :
    vectorFn f vd b s = .next { s with status := .error .arithmeticFault } := by
  obtain ⟨l, k, hl⟩ := h
  rw [applyFn_error hl] at hl
  exact commit_error
    (forLanes_compute_error (fun _ _ hj => applyFn_error hj) vd ⟨l, mem_lanesUp l, hl⟩ s)

/-! ### Branches -/

/-- Everything the branch template can do (R240). -/
theorem branch_eq (c : Bool) (off : Imm16) (s : State) :
    branch c off s =
      .next (if c = true then
          { s with br := if s.dir = .forward then s.br + sext32 off else s.br - sext32 off }
        else s) := by
  cases c <;> cases h : s.dir <;> simp [branch, h]

/-! ### The two bodies of a delete -/

theorem execDel_forward {s : State} (h : s.dir = .forward) (rd : XReg) :
    execDel rd s = commit s (pushGarbage (s.getX rd) s >>= fun s1 => pure (s1.setX rd 0#32)) := by
  unfold execDel; rw [h]

theorem execDel_backward {s : State} (h : s.dir = .backward) (rd : XReg) :
    execDel rd s = commit s (popGarbage s >>= fun p => pure (p.2.setX rd p.1)) := by
  unfold execDel; rw [h]

theorem execMdel_forward {s : State} (h : s.dir = .forward) (rs : XReg) (off : Imm16) :
    execMdel rs off s = commit s (do
      requireInBounds (effectiveAddress rs off s) 1 s
      requireRoom 1 s
      let t ← memRead (effectiveAddress rs off s) s
      let s1 ← memWrite (effectiveAddress rs off s) 0#32 s
      pushGarbage t s1) := by
  unfold execMdel; dsimp only; rw [h]

theorem execMdel_backward {s : State} (h : s.dir = .backward) (rs : XReg) (off : Imm16) :
    execMdel rs off s = commit s (do
      requireInBounds (effectiveAddress rs off s) 1 s
      requireHeld 1 s
      let (t, s1) ← popGarbage s
      memWrite (effectiveAddress rs off s) t s1) := by
  unfold execMdel; dsimp only; rw [h]

theorem execVdel_forward {s : State} (h : s.dir = .forward) (vd : VReg) :
    execVdel vd s = commit s (do
      requireRoom 32 s
      forLanes (fun l s0 => do
        let s1 ← pushGarbage (s0.getLane vd l) s0
        pure (s1.setLane vd l 0#32)) lanesUp s) := by
  unfold execVdel; rw [h]

theorem execVdel_backward {s : State} (h : s.dir = .backward) (vd : VReg) :
    execVdel vd s = commit s (do
      requireHeld 32 s
      forLanes (fun l s0 => do
        let (t, s1) ← popGarbage s0
        pure (s1.setLane vd l t)) lanesDown s) := by
  unfold execVdel; rw [h]

theorem execVmdel_forward {s : State} (h : s.dir = .forward) (rs : XReg) (off : Imm16) :
    execVmdel rs off s = commit s (do
      requireInBounds (effectiveAddress rs off s) 32 s
      requireRoom 32 s
      forLanes (fun l s0 => do
        let t ← memRead (laneAddress (effectiveAddress rs off s) l) s0
        let s1 ← memWrite (laneAddress (effectiveAddress rs off s) l) 0#32 s0
        pushGarbage t s1) lanesUp s) := by
  unfold execVmdel; dsimp only; rw [h]

theorem execVmdel_backward {s : State} (h : s.dir = .backward) (rs : XReg) (off : Imm16) :
    execVmdel rs off s = commit s (do
      requireInBounds (effectiveAddress rs off s) 32 s
      requireHeld 32 s
      forLanes (fun l s0 => do
        let (t, s1) ← popGarbage s0
        memWrite (laneAddress (effectiveAddress rs off s) l) t s1) lanesDown s) := by
  unfold execVmdel; dsimp only; rw [h]

/-! ### The sequencer -/

/-- Everything fetch can do (R281). -/
theorem fetch_eq (s : State) :
    fetch s =
      if s.pc.toNat < s.cfg.words then .ok (s.mem.read s.pc.toNat) else .error .addressOutOfBounds := by
  unfold fetch
  rw [memRead_eq]
  by_cases h : s.pc.toNat < s.cfg.words
  · rw [if_pos (by omega), if_pos h]; rfl
  · rw [if_neg (by omega), if_neg h]

theorem fetchInstr_ok {s : State} {i : Instr} (hpc : s.pc.toNat < s.cfg.words)
    (hd : decode (s.mem.read s.pc.toNat) = .ok i) : fetchInstr s = .ok i := by
  simp [fetchInstr, fetch_eq, hpc, hd, bind, Except.bind, pure, Except.pure]

theorem fetchInstr_outside {s : State} (hpc : ¬ s.pc.toNat < s.cfg.words) :
    fetchInstr s = .error .addressOutOfBounds := by
  simp [fetchInstr, fetch_eq, hpc, bind, Except.bind]

theorem fetchInstr_illegal {s : State} {e : Illegal} (hpc : s.pc.toNat < s.cfg.words)
    (hd : decode (s.mem.read s.pc.toNat) = .error e) : fetchInstr s = .error .illegalInstruction := by
  simp [fetchInstr, fetch_eq, hpc, hd, bind, Except.bind]

@[simp] theorem advance_cfg (s : State) : (advance s).cfg = s.cfg := by
  unfold advance; split
  · rfl
  · split <;> rfl

@[simp] theorem advance_x (s : State) : (advance s).x = s.x := by
  unfold advance; split
  · rfl
  · split <;> rfl

@[simp] theorem advance_v (s : State) : (advance s).v = s.v := by
  unfold advance; split
  · rfl
  · split <;> rfl

@[simp] theorem advance_dir (s : State) : (advance s).dir = s.dir := by
  unfold advance; split
  · rfl
  · split <;> rfl

@[simp] theorem advance_status (s : State) : (advance s).status = s.status := by
  unfold advance; split
  · rfl
  · split <;> rfl

@[simp] theorem advance_gsp (s : State) : (advance s).gsp = s.gsp := by
  unfold advance; split
  · rfl
  · split <;> rfl

@[simp] theorem advance_mem (s : State) : (advance s).mem = s.mem := by
  unfold advance; split
  · rfl
  · split <;> rfl

@[simp] theorem advance_br (s : State) : (advance s).br = 0#32 := by
  unfold advance; split
  · rfl
  · rename_i h
    have hb : s.br = 0#32 := by simpa using h
    split <;> exact hb

/-- The three ways a step goes (R286): the machine is not running, the fetch or the decode raises, or the
instruction's body runs and the sequencer follows. -/
theorem step_cases (s : State) :
    (s.status = .halted ∧ step s = .fault .halted) ∨
    (∃ k, s.status = .error k ∧ step s = .fault (.terminated k)) ∨
    (s.status = .running ∧ ∃ k, fetchInstr s = .error k ∧ step s = raise k s) ∨
    (s.status = .running ∧ ∃ i, fetchInstr s = .ok i ∧ step s = finishStep (exec i s)) := by
  cases hs : s.status with
  | halted => exact Or.inl ⟨rfl, by simp [step, hs]⟩
  | error k => exact Or.inr (Or.inl ⟨k, rfl, by simp [step, hs]⟩)
  | running =>
    cases hf : fetchInstr s with
    | error k => exact Or.inr (Or.inr (Or.inl ⟨rfl, k, rfl, by simp [step, hs, hf]⟩))
    | ok i => exact Or.inr (Or.inr (Or.inr ⟨rfl, i, rfl, by simp [step, hs, hf]⟩))

end Sys2Proof.Machine
end

