-- ==== Sys2Proof/Laws/Blocks.lean ====
section
/-! SUPPORT. The loops of the four block instructions `VMEXCH`, `VDEL` and `VMDEL`, run over any stretch of consecutive
lanes: what they leave in memory and in the lanes. -/

namespace Sys2Proof.Machine

/-- The lanes of `ls` are `k, k + 1, ...`. -/
def Ascending (k : Nat) (ls : List Lane) : Prop := ls.map Fin.val = List.range' k ls.length

theorem ascending_lanesUp : Ascending 0 lanesUp := by
  unfold Ascending lanesUp
  decide

theorem Ascending.head {k : Nat} {l : Lane} {ls : List Lane} (h : Ascending k (l :: ls)) : l.val = k := by
  simpa [Ascending, List.range'_succ] using congrArg List.head? h

theorem Ascending.tail {k : Nat} {l : Lane} {ls : List Lane} (h : Ascending k (l :: ls)) : Ascending (k + 1) ls := by
  have := congrArg List.tail h
  simpa [Ascending, List.range'_succ] using this

theorem moveWord_write {m : Memory} (h : m.wf = true) (a b : Nat) :
    ((m.write a 0#32).write b (m.read a)).read = moveWord a b m.read := by
  funext c
  rw [Memory.read_write (Memory.write_wf h ..), Memory.read_write h]
  simp only [moveWord, Function.update_apply]

/-- Forward `VMDEL` over lanes `k, k + 1, ...`. -/
theorem forLanes_moveUp {ea : Int} (g : Nat) (ls : List Lane) (k : Nat) (s : State) (hls : Ascending k ls)
    (hwf : s.mem.wf = true) (hg : s.gsp = g + k) (hroom : s.gsp + ls.length ≤ s.cfg.gSize) (h0 : 0 ≤ ea)
    (hw : ea + 32 ≤ s.cfg.words) :
    ∃ m : Memory, m.wf = true ∧
      forLanes (fun l s0 => do
        let t ← memRead (laneAddress ea l) s0
        let s1 ← memWrite (laneAddress ea l) 0#32 s0
        pushGarbage t s1) ls s = .ok { s with mem := m, gsp := s.gsp + ls.length } ∧
      m.read = moveLanes (fun l => ea.toNat + l.val) (fun l => slotIndex s.cfg (g + l.val)) ls s.mem.read := by
  induction ls generalizing k s with
  | nil => exact ⟨s.mem, hwf, by simp, rfl⟩
  | cons l ls ih =>
    have hl := hls.head
    have hin : 0 ≤ laneAddress ea l ∧ laneAddress ea l < (s.cfg.words : Int) := by
      have := l.isLt
      simp only [laneAddress]
      omega
    have hea : (laneAddress ea l).toNat = ea.toNat + l.val := by
      simp only [laneAddress]
      omega
    rw [List.length_cons] at hroom
    have hgsp : s.gsp < s.cfg.gSize := by omega
    have hslot : slotIndex s.cfg s.gsp = slotIndex s.cfg (g + l.val) := by rw [hg, hl]
    obtain ⟨m, hm, hrun, hread⟩ := ih (k + 1)
      { s with
        mem := (s.mem.write (ea.toNat + l.val) 0#32).write (slotIndex s.cfg (g + l.val))
          (s.mem.read (ea.toNat + l.val))
        gsp := s.gsp + 1 } hls.tail
      (Memory.write_wf (Memory.write_wf hwf ..) ..) (by simp only; omega) (by simp only; omega) hw
    refine ⟨m, hm, ?_, ?_⟩
    · rw [forLanes_cons_ok (t := { s with
        mem := (s.mem.write (ea.toNat + l.val) 0#32).write (slotIndex s.cfg (g + l.val))
          (s.mem.read (ea.toNat + l.val))
        gsp := s.gsp + 1 }), hrun]
      · simp only [List.length_cons]
        congr 2
        omega
      · simp [memRead_eq, memWrite_eq, pushGarbage_eq, hin, hgsp, hea, hslot, bind, Except.bind]
    · rw [hread]
      simp only [moveLanes, List.foldl_cons, moveWord_write hwf]

/-- Backward `VMDEL` over lanes `k - 1 + n, ..., k + 1, k`. -/
theorem forLanes_moveDown {ea : Int} (g : Nat) (ls : List Lane) (k : Nat) (s : State) (hls : Ascending k ls)
    (hwf : s.mem.wf = true) (hg : s.gsp = g + k + ls.length) (h0 : 0 ≤ ea) (hw : ea + 32 ≤ s.cfg.words) :
    ∃ m : Memory, m.wf = true ∧
      forLanes (fun l s0 => do
        let (t, s1) ← popGarbage s0
        memWrite (laneAddress ea l) t s1) ls.reverse s = .ok { s with mem := m, gsp := s.gsp - ls.length } ∧
      m.read =
        moveLanes (fun l => slotIndex s.cfg (g + l.val)) (fun l => ea.toNat + l.val) ls.reverse s.mem.read := by
  induction ls using List.reverseRecOn generalizing s with
  | nil => exact ⟨s.mem, hwf, by simp, rfl⟩
  | append_singleton ls l ih =>
    have hpre : Ascending k ls ∧ l.val = k + ls.length := by
      unfold Ascending at hls ⊢
      simpa [List.range'_concat] using hls
    have hl := hpre.2
    have hin : 0 ≤ laneAddress ea l ∧ laneAddress ea l < (s.cfg.words : Int) := by
      have := l.isLt
      simp only [laneAddress]
      omega
    have hea : (laneAddress ea l).toNat = ea.toNat + l.val := by
      simp only [laneAddress]
      omega
    rw [List.length_append, List.length_singleton] at hg
    have hgsp : 0 < s.gsp := by omega
    have hslot : slotIndex s.cfg (s.gsp - 1) = slotIndex s.cfg (g + l.val) := by congr 1; omega
    obtain ⟨m, hm, hrun, hread⟩ := ih
      { s with
        mem := (s.mem.write (slotIndex s.cfg (g + l.val)) 0#32).write (ea.toNat + l.val)
          (s.mem.read (slotIndex s.cfg (g + l.val)))
        gsp := s.gsp - 1 } hpre.1
      (Memory.write_wf (Memory.write_wf hwf ..) ..) (by simp only; omega) hw
    refine ⟨m, hm, ?_, ?_⟩
    · rw [List.reverse_append, List.reverse_singleton, List.singleton_append,
        forLanes_cons_ok (t := { s with
          mem := (s.mem.write (slotIndex s.cfg (g + l.val)) 0#32).write (ea.toNat + l.val)
            (s.mem.read (slotIndex s.cfg (g + l.val)))
          gsp := s.gsp - 1 }), hrun]
      · simp only [List.length_append, List.length_singleton]
        congr 2
        omega
      · simp [popGarbage_eq, memWrite_eq, hin, hgsp, hea, hslot, bind, Except.bind]
    · rw [hread, List.reverse_append, List.reverse_singleton, List.singleton_append]
      simp only [moveLanes, List.foldl_cons, moveWord_write hwf]

/-- Forward `VDEL` over lanes `k, k + 1, ...`: each lane goes to its slot and is cleared. -/
theorem forLanes_pushUp {vd : VReg} (g : Nat) (ls : List Lane) (k : Nat) (s : State) (hls : Ascending k ls)
    (hwf : s.mem.wf = true) (hg : s.gsp = g + k) (hroom : s.gsp + ls.length ≤ s.cfg.gSize) :
    ∃ m : Memory, m.wf = true ∧
      forLanes (fun l s0 => do
        let s1 ← pushGarbage (s0.getLane vd l) s0
        pure (s1.setLane vd l 0#32)) ls s =
        .ok { ls.foldl (fun t l => t.setLane vd l 0#32) s with mem := m, gsp := s.gsp + ls.length } ∧
      (∀ l ∈ ls, m.read (slotIndex s.cfg (g + l.val)) = s.getLane vd l) ∧
      (∀ a, (∀ l ∈ ls, a ≠ slotIndex s.cfg (g + l.val)) → m.read a = s.mem.read a) := by
  induction ls generalizing k s with
  | nil => exact ⟨s.mem, hwf, by simp, by simp, by simp⟩
  | cons l ls ih =>
    have hl := hls.head
    rw [List.length_cons] at hroom
    have hgsp : s.gsp < s.cfg.gSize := by omega
    have hslot : slotIndex s.cfg s.gsp = slotIndex s.cfg (g + l.val) := by rw [hg, hl]
    have hnot : ∀ j ∈ ls, k + 1 ≤ j.val ∧ j.val < k + 1 + ls.length := by
      intro j hj
      have : j.val ∈ ls.map Fin.val := List.mem_map_of_mem hj
      rw [hls.tail] at this
      simpa [List.mem_range'_1] using this
    obtain ⟨m, hm, hrun, hin, hout⟩ := ih (k + 1)
      ({ s with mem := s.mem.write (slotIndex s.cfg (g + l.val)) (s.getLane vd l), gsp := s.gsp + 1 }.setLane vd l
        0#32) hls.tail (by simpa using Memory.write_wf hwf _ _) (by simp; omega) (by simp; omega)
    refine ⟨m, hm, ?_, ?_, ?_⟩
    · rw [forLanes_cons_ok (t := { s with
        mem := s.mem.write (slotIndex s.cfg (g + l.val)) (s.getLane vd l), gsp := s.gsp + 1 }.setLane vd l 0#32),
        hrun]
      · rw [foldl_setLane_eq, List.foldl_cons, foldl_setLane_eq (s := s.setLane vd l 0#32)]
        have hv : (ls.foldl (fun t l => t.setLane vd l 0#32)
            (({ s with mem := s.mem.write (slotIndex s.cfg (g + l.val)) (s.getLane vd l), gsp := s.gsp + 1 } :
              State).setLane vd l 0#32)).v = (ls.foldl (fun t l => t.setLane vd l 0#32) (s.setLane vd l 0#32)).v := by
          refine State.v_ext fun q n => ?_
          rw [getLane_foldl_setLane, getLane_foldl_setLane]
          rfl
        simp only [hv, List.length_cons]
        simp [State.setLane]
        omega
      · simp [pushGarbage_eq, hgsp, hslot, bind, Except.bind, pure, Except.pure]
    · intro j hj
      rcases List.mem_cons.mp hj with rfl | hj
      · rw [hout]
        · simp [Memory.read_write hwf]
        · intro i hi
          have := hnot i hi
          intro e
          have := slotIndex_inj (c := s.cfg) (by omega) (by omega) e
          omega
      · have := hnot j hj
        have hjl : j ≠ l := fun e => by
          have := congrArg Fin.val e
          omega
        refine (hin j hj).trans ?_
        rw [State.getLane_setLane, if_neg (fun e => hjl e.2)]
        rfl
    · intro a ha
      rw [hout a fun j hj => ha j (List.mem_cons_of_mem _ hj)]
      have := ha l (by simp)
      simp [Memory.read_write hwf, this]

/-- Backward `VDEL` over lanes `k - 1 + n, ..., k + 1, k`: each lane comes from its slot, which is cleared. -/
theorem forLanes_popDown {vd : VReg} (g : Nat) (ls : List Lane) (k : Nat) (s : State) (hls : Ascending k ls)
    (hwf : s.mem.wf = true) (hg : s.gsp = g + k + ls.length) (hcap : s.gsp ≤ s.cfg.gSize) :
    ∃ m : Memory, m.wf = true ∧
      forLanes (fun l s0 => do
        let (t, s1) ← popGarbage s0
        pure (s1.setLane vd l t)) ls.reverse s =
        .ok { ls.reverse.foldl (fun t l => t.setLane vd l (s.mem.read (slotIndex s.cfg (g + l.val)))) s with
          mem := m, gsp := s.gsp - ls.length } ∧
      (∀ l ∈ ls, m.read (slotIndex s.cfg (g + l.val)) = 0#32) ∧
      (∀ a, (∀ l ∈ ls, a ≠ slotIndex s.cfg (g + l.val)) → m.read a = s.mem.read a) := by
  induction ls using List.reverseRecOn generalizing s with
  | nil => exact ⟨s.mem, hwf, by simp, by simp, by simp⟩
  | append_singleton ls l ih =>
    have hpre : Ascending k ls ∧ l.val = k + ls.length := by
      unfold Ascending at hls ⊢
      simpa [List.range'_concat] using hls
    have hl := hpre.2
    rw [List.length_append, List.length_singleton] at hg
    have hgsp : 0 < s.gsp := by omega
    have hslot : slotIndex s.cfg (s.gsp - 1) = slotIndex s.cfg (g + l.val) := by congr 1; omega
    have hnot : ∀ j ∈ ls, k ≤ j.val ∧ j.val < k + ls.length := by
      intro j hj
      have : j.val ∈ ls.map Fin.val := List.mem_map_of_mem hj
      rw [hpre.1] at this
      simpa [List.mem_range'_1] using this
    have hdiff : ∀ j ∈ ls, slotIndex s.cfg (g + j.val) ≠ slotIndex s.cfg (g + l.val) := by
      intro j hj e
      have := hnot j hj
      have := slotIndex_inj (c := s.cfg) (by omega) (by omega) e
      omega
    obtain ⟨m, hm, hrun, hin, hout⟩ := ih
      ({ s with mem := s.mem.write (slotIndex s.cfg (g + l.val)) 0#32, gsp := s.gsp - 1 }.setLane vd l
        (s.mem.read (slotIndex s.cfg (g + l.val)))) hpre.1 (by simpa using Memory.write_wf hwf _ _)
      (by simp; omega) (by simp; omega)
    refine ⟨m, hm, ?_, ?_, ?_⟩
    · rw [List.reverse_append, List.reverse_singleton, List.singleton_append,
        forLanes_cons_ok (t := { s with
          mem := s.mem.write (slotIndex s.cfg (g + l.val)) 0#32, gsp := s.gsp - 1 }.setLane vd l
          (s.mem.read (slotIndex s.cfg (g + l.val)))), hrun]
      · rw [foldl_setLane_eq, List.foldl_cons, foldl_setLane_eq
          (s := s.setLane vd l (s.mem.read (slotIndex s.cfg (g + l.val))))]
        have hv : (ls.reverse.foldl (fun t j => t.setLane vd j
            ((s.mem.write (slotIndex s.cfg (g + l.val)) 0#32).read (slotIndex s.cfg (g + j.val))))
            (({ s with mem := s.mem.write (slotIndex s.cfg (g + l.val)) 0#32, gsp := s.gsp - 1 } : State).setLane
              vd l (s.mem.read (slotIndex s.cfg (g + l.val))))).v =
            (ls.reverse.foldl (fun t j => t.setLane vd j (s.mem.read (slotIndex s.cfg (g + j.val))))
              (s.setLane vd l (s.mem.read (slotIndex s.cfg (g + l.val))))).v := by
          refine State.v_ext fun q n => ?_
          rw [getLane_foldl_setLane, getLane_foldl_setLane]
          by_cases h : q = vd ∧ n ∈ ls.reverse
          · rw [if_pos h, if_pos h, Memory.read_write_other hwf _ (hdiff n (List.mem_reverse.mp h.2))]
          · rw [if_neg h, if_neg h]
            rfl
        simp only [List.length_append, List.length_singleton]
        simp only [State.setLane_mem, State.setLane_cfg] at hv ⊢
        rw [hv]
        simp [State.setLane]
        omega
      · simp [popGarbage_eq, hgsp, hslot, bind, Except.bind, pure, Except.pure]
    · intro j hj
      rcases List.mem_append.mp hj with hj | hj
      · exact hin j hj
      · rw [List.mem_singleton.mp hj]
        rw [hout _ fun i hi e => hdiff i hi e.symm]
        simp [Memory.read_write hwf]
    · intro a ha
      rw [hout a fun j hj => ha j (List.mem_append_left _ hj)]
      have := ha l (by simp)
      simp [Memory.read_write hwf, this]

/-- `VMEXCH` over lanes `k, k + 1, ...`. -/
theorem forLanes_exchange {ea : Int} {vd : VReg} (ls : List Lane) (k : Nat) (s : State) (hls : Ascending k ls)
    (hwf : s.mem.wf = true) (h0 : 0 ≤ ea) (hw : ea + 32 ≤ s.cfg.words) :
    ∃ m : Memory, m.wf = true ∧
      forLanes (fun l s0 => do
        let t ← memRead (laneAddress ea l) s0
        let s1 ← memWrite (laneAddress ea l) (s0.getLane vd l) s0
        pure (s1.setLane vd l t)) ls s =
        .ok { ls.foldl (fun t l => t.setLane vd l (s.mem.read (ea.toNat + l.val))) s with mem := m } ∧
      (∀ l ∈ ls, m.read (ea.toNat + l.val) = s.getLane vd l) ∧
      (∀ a, (∀ l ∈ ls, a ≠ ea.toNat + l.val) → m.read a = s.mem.read a) := by
  induction ls generalizing k s with
  | nil => exact ⟨s.mem, hwf, by simp, by simp, by simp⟩
  | cons l ls ih =>
    have hl := hls.head
    have hin : 0 ≤ laneAddress ea l ∧ laneAddress ea l < (s.cfg.words : Int) := by
      have := l.isLt
      simp only [laneAddress]
      omega
    have hea : (laneAddress ea l).toNat = ea.toNat + l.val := by
      simp only [laneAddress]
      omega
    have hnot : ∀ j ∈ ls, j.val ≠ l.val := by
      intro j hj
      have : j.val ∈ ls.map Fin.val := List.mem_map_of_mem hj
      rw [hls.tail] at this
      have := List.mem_range'_1.mp this
      omega
    obtain ⟨m, hm, hrun, hinm, hout⟩ := ih (k + 1)
      ({ s with mem := s.mem.write (ea.toNat + l.val) (s.getLane vd l) }.setLane vd l
        (s.mem.read (ea.toNat + l.val))) hls.tail (by simpa using Memory.write_wf hwf _ _) hw
    refine ⟨m, hm, ?_, ?_, ?_⟩
    · rw [forLanes_cons_ok (t := { s with mem := s.mem.write (ea.toNat + l.val) (s.getLane vd l) }.setLane vd l
        (s.mem.read (ea.toNat + l.val))), hrun]
      · rw [foldl_setLane_eq, List.foldl_cons, foldl_setLane_eq
          (s := s.setLane vd l (s.mem.read (ea.toNat + l.val)))]
        have hv : (ls.foldl (fun t j => t.setLane vd j
            ((s.mem.write (ea.toNat + l.val) (s.getLane vd l)).read (ea.toNat + j.val)))
            (({ s with mem := s.mem.write (ea.toNat + l.val) (s.getLane vd l) } : State).setLane vd l
              (s.mem.read (ea.toNat + l.val)))).v =
            (ls.foldl (fun t j => t.setLane vd j (s.mem.read (ea.toNat + j.val)))
              (s.setLane vd l (s.mem.read (ea.toNat + l.val)))).v := by
          refine State.v_ext fun q n => ?_
          rw [getLane_foldl_setLane, getLane_foldl_setLane]
          by_cases h : q = vd ∧ n ∈ ls
          · have hn := hnot n h.2
            rw [if_pos h, if_pos h, Memory.read_write_other hwf _ (by omega)]
          · rw [if_neg h, if_neg h]
            rfl
        simp only [State.setLane_mem] at hv ⊢
        rw [hv]
        rfl
      · simp [memRead_eq, memWrite_eq, hin, hea, bind, Except.bind, pure, Except.pure]
    · intro j hj
      rcases List.mem_cons.mp hj with rfl | hj
      · rw [hout]
        · simp [Memory.read_write hwf]
        · intro i hi
          have := hnot i hi
          omega
      · have hjl : j ≠ l := fun e => hnot j hj (congrArg Fin.val e)
        refine (hinm j hj).trans ?_
        rw [State.getLane_setLane, if_neg (fun e => hjl e.2)]
        rfl
    · intro a ha
      rw [hout a fun j hj => ha j (List.mem_cons_of_mem _ hj)]
      have := ha l (by simp)
      simp [Memory.read_write hwf, this]

end Sys2Proof.Machine
end

