-- ==== Sys2Proof/Laws/Encoding.lean ====
section
/-! SUPPORT. Fields of an encoded word, one lemma per field and layout (R82 to R85, R97), and back: a word is the
encoding of its own fields. -/

namespace Sys2Proof

/-! ### Layout R -/

@[simp] theorem fieldOpcode_encR (op : BitVec 6) (rd rs : BitVec 5) (f16 : BitVec 16) : fieldOpcode (encR op rd rs f16) = op := by
  apply BitVec.eq_of_getLsbD_eq
  intro i hi
  interval_cases i <;> simp [fieldOpcode, encR]

@[simp] theorem fieldA_encR (op : BitVec 6) (rd rs : BitVec 5) (f16 : BitVec 16) : fieldA (encR op rd rs f16) = rd := by
  apply BitVec.eq_of_getLsbD_eq
  intro i hi
  interval_cases i <;> simp [fieldA, encR]

@[simp] theorem fieldB_encR (op : BitVec 6) (rd rs : BitVec 5) (f16 : BitVec 16) : fieldB (encR op rd rs f16) = rs := by
  apply BitVec.eq_of_getLsbD_eq
  intro i hi
  interval_cases i <;> simp [fieldB, encR]

@[simp] theorem fieldF16_encR (op : BitVec 6) (rd rs : BitVec 5) (f16 : BitVec 16) : fieldF16 (encR op rd rs f16) = f16 := by
  apply BitVec.eq_of_getLsbD_eq
  intro i hi
  interval_cases i <;> simp [fieldF16, encR]

/-- A word is the R encoding of its own fields. -/
theorem encR_fields (w : Word) : encR (fieldOpcode w) (fieldA w) (fieldB w) (fieldF16 w) = w := by
  apply BitVec.eq_of_getLsbD_eq
  intro i hi
  interval_cases i <;> simp [encR, fieldOpcode, fieldA, fieldB, fieldF16]

/-! ### Layout I -/

@[simp] theorem fieldOpcode_encI (op : BitVec 6) (rd : BitVec 5) (imm16 : BitVec 16) (func5 : BitVec 5) : fieldOpcode (encI op rd imm16 func5) = op := by
  apply BitVec.eq_of_getLsbD_eq
  intro i hi
  interval_cases i <;> simp [fieldOpcode, encI]

@[simp] theorem fieldA_encI (op : BitVec 6) (rd : BitVec 5) (imm16 : BitVec 16) (func5 : BitVec 5) : fieldA (encI op rd imm16 func5) = rd := by
  apply BitVec.eq_of_getLsbD_eq
  intro i hi
  interval_cases i <;> simp [fieldA, encI]

@[simp] theorem fieldImmI_encI (op : BitVec 6) (rd : BitVec 5) (imm16 : BitVec 16) (func5 : BitVec 5) : fieldImmI (encI op rd imm16 func5) = imm16 := by
  apply BitVec.eq_of_getLsbD_eq
  intro i hi
  interval_cases i <;> simp [fieldImmI, encI]

@[simp] theorem fieldFunc5_encI (op : BitVec 6) (rd : BitVec 5) (imm16 : BitVec 16) (func5 : BitVec 5) : fieldFunc5 (encI op rd imm16 func5) = func5 := by
  apply BitVec.eq_of_getLsbD_eq
  intro i hi
  interval_cases i <;> simp [fieldFunc5, encI]

/-- A word is the I encoding of its own fields. -/
theorem encI_fields (w : Word) : encI (fieldOpcode w) (fieldA w) (fieldImmI w) (fieldFunc5 w) = w := by
  apply BitVec.eq_of_getLsbD_eq
  intro i hi
  interval_cases i <;> simp [encI, fieldOpcode, fieldA, fieldImmI, fieldFunc5]

/-! ### Layout R3 -/

@[simp] theorem fieldOpcode_encR3 (op : BitVec 6) (ra rb rc : BitVec 5) (func11 : BitVec 11) : fieldOpcode (encR3 op ra rb rc func11) = op := by
  apply BitVec.eq_of_getLsbD_eq
  intro i hi
  interval_cases i <;> simp [fieldOpcode, encR3]

@[simp] theorem fieldA_encR3 (op : BitVec 6) (ra rb rc : BitVec 5) (func11 : BitVec 11) : fieldA (encR3 op ra rb rc func11) = ra := by
  apply BitVec.eq_of_getLsbD_eq
  intro i hi
  interval_cases i <;> simp [fieldA, encR3]

@[simp] theorem fieldB_encR3 (op : BitVec 6) (ra rb rc : BitVec 5) (func11 : BitVec 11) : fieldB (encR3 op ra rb rc func11) = rb := by
  apply BitVec.eq_of_getLsbD_eq
  intro i hi
  interval_cases i <;> simp [fieldB, encR3]

@[simp] theorem fieldC_encR3 (op : BitVec 6) (ra rb rc : BitVec 5) (func11 : BitVec 11) : fieldC (encR3 op ra rb rc func11) = rc := by
  apply BitVec.eq_of_getLsbD_eq
  intro i hi
  interval_cases i <;> simp [fieldC, encR3]

@[simp] theorem fieldFunc11_encR3 (op : BitVec 6) (ra rb rc : BitVec 5) (func11 : BitVec 11) : fieldFunc11 (encR3 op ra rb rc func11) = func11 := by
  apply BitVec.eq_of_getLsbD_eq
  intro i hi
  interval_cases i <;> simp [fieldFunc11, encR3]

/-- A word is the R3 encoding of its own fields. -/
theorem encR3_fields (w : Word) : encR3 (fieldOpcode w) (fieldA w) (fieldB w) (fieldC w) (fieldFunc11 w) = w := by
  apply BitVec.eq_of_getLsbD_eq
  intro i hi
  interval_cases i <;> simp [encR3, fieldOpcode, fieldA, fieldB, fieldC, fieldFunc11]

/-! ### Layout B -/

@[simp] theorem fieldOpcode_encB (op : BitVec 6) (ra rb : BitVec 5) (imm16 : BitVec 16) : fieldOpcode (encB op ra rb imm16) = op := by
  apply BitVec.eq_of_getLsbD_eq
  intro i hi
  interval_cases i <;> simp [fieldOpcode, encB]

@[simp] theorem fieldA_encB (op : BitVec 6) (ra rb : BitVec 5) (imm16 : BitVec 16) : fieldA (encB op ra rb imm16) = ra := by
  apply BitVec.eq_of_getLsbD_eq
  intro i hi
  interval_cases i <;> simp [fieldA, encB]

@[simp] theorem fieldB_encB (op : BitVec 6) (ra rb : BitVec 5) (imm16 : BitVec 16) : fieldB (encB op ra rb imm16) = rb := by
  apply BitVec.eq_of_getLsbD_eq
  intro i hi
  interval_cases i <;> simp [fieldB, encB]

@[simp] theorem fieldF16_encB (op : BitVec 6) (ra rb : BitVec 5) (imm16 : BitVec 16) : fieldF16 (encB op ra rb imm16) = imm16 := by
  apply BitVec.eq_of_getLsbD_eq
  intro i hi
  interval_cases i <;> simp [fieldF16, encB]

/-- A word is the B encoding of its own fields. -/
theorem encB_fields (w : Word) : encB (fieldOpcode w) (fieldA w) (fieldB w) (fieldF16 w) = w := by
  apply BitVec.eq_of_getLsbD_eq
  intro i hi
  interval_cases i <;> simp [encB, fieldOpcode, fieldA, fieldB, fieldF16]

/-! ### Fields that reach over several layout fields -/

/-- `w[31:6]`, zero in `HALT`, is made of the three fields of layout R. -/
theorem bits31_6_eq_zero_iff (w : Word) :
    w.extractLsb' 6 26 = 0#26 ↔ fieldA w = 0#5 ∧ fieldB w = 0#5 ∧ fieldF16 w = 0#16 := by
  constructor
  · intro h
    have bit (i : Nat) (hi : i < 26) : w.getLsbD (6 + i) = false := by
      simpa [hi] using congrArg (fun v => v.getLsbD i) h
    refine ⟨?_, ?_, ?_⟩ <;> apply BitVec.eq_of_getLsbD_eq <;> intro i hi
    · simpa [fieldA, hi, Nat.add_comm, Nat.add_left_comm] using bit (i + 21) (by omega)
    · simpa [fieldB, hi, Nat.add_comm, Nat.add_left_comm] using bit (i + 16) (by omega)
    · simpa [fieldF16, hi] using bit i (by omega)
  · rintro ⟨ha, hb, hf⟩
    rw [← encR_fields w, ha, hb, hf]
    apply BitVec.eq_of_getLsbD_eq
    intro i hi
    simp [encR, hi, BitVec.getLsbD_of_ge]

/-- `w[26:6]`, zero in the one-register instructions, is made of two fields of layout R. -/
theorem bits26_6_eq_zero_iff (w : Word) : w.extractLsb' 6 21 = 0#21 ↔ fieldB w = 0#5 ∧ fieldF16 w = 0#16 := by
  constructor
  · intro h
    have bit (i : Nat) (hi : i < 21) : w.getLsbD (6 + i) = false := by
      simpa [hi] using congrArg (fun v => v.getLsbD i) h
    refine ⟨?_, ?_⟩ <;> apply BitVec.eq_of_getLsbD_eq <;> intro i hi
    · simpa [fieldB, hi, Nat.add_comm, Nat.add_left_comm] using bit (i + 16) (by omega)
    · simpa [fieldF16, hi] using bit i (by omega)
  · rintro ⟨hb, hf⟩
    rw [← encR_fields w, hb, hf]
    apply BitVec.eq_of_getLsbD_eq
    intro i hi
    interval_cases i <;> simp [encR, BitVec.getLsbD_of_ge]

end Sys2Proof
end

