-- ==== Sys2Proof/Laws/HostInterface.lean ====
section
/-! SUPPORT. What Init answers and what the loaded image reads as. -/

namespace Sys2Proof.Machine

theorem init_tooLarge {program : List Word} {mb : Nat} (hc : Config.legal { mb := mb } = true)
    (h : Config.gBase { mb := mb } < program.length) :
    init program mb = raise .programTooLarge { State.reset with cfg := { mb := mb } } := by
  unfold init
  simp only [hc, if_true, h]

theorem init_fits {program : List Word} {mb : Nat} (hc : Config.legal { mb := mb } = true)
    (h : program.length ≤ Config.gBase { mb := mb }) :
    init program mb = .next { State.reset with cfg := { mb := mb }, mem := loadImage program 0 { cells := [] } } := by
  unfold init
  simp only [hc, if_true, Nat.not_lt.mpr h, if_false]

theorem loadImage_wf (program : List Word) (a : Nat) {m : Memory} (h : m.wf = true) :
    (loadImage program a m).wf = true := by
  induction program generalizing a m with
  | nil => exact h
  | cons w ws ih => exact ih (a + 1) (Memory.write_wf h a w)

/-- Below the image memory is as it was; from its first index on, the image and then memory as it was. -/
theorem loadImage_read (program : List Word) (a b : Nat) {m : Memory} (h : m.wf = true) :
    (loadImage program a m).read b = if a ≤ b then program.getD (b - a) (m.read b) else m.read b := by
  induction program generalizing a m with
  | nil => simp [loadImage]
  | cons w ws ih =>
    rw [loadImage, ih (a + 1) (Memory.write_wf h a w), Memory.read_write h]
    by_cases hb : b = a
    · subst hb
      simp
    · by_cases hab : a ≤ b
      · obtain ⟨k, rfl⟩ : ∃ k, b = a + 1 + k := ⟨b - (a + 1), by omega⟩
        rw [if_pos (by omega), if_pos hab, if_neg hb, show a + 1 + k - (a + 1) = k by omega,
          show a + 1 + k - a = k + 1 by omega, List.getD_cons_succ]
      · rw [if_neg (by omega), if_neg hab, if_neg hb]

end Sys2Proof.Machine
end

