-- ==== Sys2Proof/Laws/PerInstr.lean ====
section
/-! SUPPORT. One lemma per instruction: the opcode that stage one of the decoder reads from its encoding (R113). -/

namespace Sys2Proof.Laws

/-- Stage one of the decoder finds the instruction's opcode in its encoding. -/
def EncodedOpcode.Statement (i : Instr) : Prop :=
  decodeOpcode (fieldOpcode (encode i)) = some i.opcode

theorem EncodedOpcode.halt : EncodedOpcode.Statement .halt :=
  congrArg decodeOpcode (fieldOpcode_encR ..)

theorem EncodedOpcode.xor (rd rs : XReg) : EncodedOpcode.Statement (.xor rd rs) :=
  congrArg decodeOpcode (fieldOpcode_encR ..)

theorem EncodedOpcode.neg (rd : XReg) : EncodedOpcode.Statement (.neg rd) :=
  congrArg decodeOpcode (fieldOpcode_encR ..)

theorem EncodedOpcode.add (rd rs : XReg) : EncodedOpcode.Statement (.add rd rs) :=
  congrArg decodeOpcode (fieldOpcode_encR ..)

theorem EncodedOpcode.sub (rd rs : XReg) : EncodedOpcode.Statement (.sub rd rs) :=
  congrArg decodeOpcode (fieldOpcode_encR ..)

theorem EncodedOpcode.mul (rd rs : XReg) : EncodedOpcode.Statement (.mul rd rs) :=
  congrArg decodeOpcode (fieldOpcode_encR ..)

theorem EncodedOpcode.div (rd rs : XReg) : EncodedOpcode.Statement (.div rd rs) :=
  congrArg decodeOpcode (fieldOpcode_encR ..)

theorem EncodedOpcode.rr (rd rs : XReg) : EncodedOpcode.Statement (.rr rd rs) :=
  congrArg decodeOpcode (fieldOpcode_encR ..)

theorem EncodedOpcode.rl (rd rs : XReg) : EncodedOpcode.Statement (.rl rd rs) :=
  congrArg decodeOpcode (fieldOpcode_encR ..)

theorem EncodedOpcode.fadd (rd rs : XReg) : EncodedOpcode.Statement (.fadd rd rs) :=
  congrArg decodeOpcode (fieldOpcode_encR ..)

theorem EncodedOpcode.fsub (rd rs : XReg) : EncodedOpcode.Statement (.fsub rd rs) :=
  congrArg decodeOpcode (fieldOpcode_encR ..)

theorem EncodedOpcode.fmul (rd rs : XReg) : EncodedOpcode.Statement (.fmul rd rs) :=
  congrArg decodeOpcode (fieldOpcode_encR ..)

theorem EncodedOpcode.fdiv (rd rs : XReg) : EncodedOpcode.Statement (.fdiv rd rs) :=
  congrArg decodeOpcode (fieldOpcode_encR ..)

theorem EncodedOpcode.exch (rd rs : XReg) : EncodedOpcode.Statement (.exch rd rs) :=
  congrArg decodeOpcode (fieldOpcode_encR ..)

theorem EncodedOpcode.xori (rd : XReg) (imm : Imm16) : EncodedOpcode.Statement (.xori rd imm) :=
  congrArg decodeOpcode (fieldOpcode_encI ..)

theorem EncodedOpcode.addi (rd : XReg) (imm : Imm16) : EncodedOpcode.Statement (.addi rd imm) :=
  congrArg decodeOpcode (fieldOpcode_encI ..)

theorem EncodedOpcode.subi (rd : XReg) (imm : Imm16) : EncodedOpcode.Statement (.subi rd imm) :=
  congrArg decodeOpcode (fieldOpcode_encI ..)

theorem EncodedOpcode.muli (rd : XReg) (imm : Imm16) : EncodedOpcode.Statement (.muli rd imm) :=
  congrArg decodeOpcode (fieldOpcode_encI ..)

theorem EncodedOpcode.divi (rd : XReg) (imm : Imm16) : EncodedOpcode.Statement (.divi rd imm) :=
  congrArg decodeOpcode (fieldOpcode_encI ..)

theorem EncodedOpcode.rri (rd : XReg) (imm : Imm16) : EncodedOpcode.Statement (.rri rd imm) :=
  congrArg decodeOpcode (fieldOpcode_encI ..)

theorem EncodedOpcode.rli (rd : XReg) (imm : Imm16) : EncodedOpcode.Statement (.rli rd imm) :=
  congrArg decodeOpcode (fieldOpcode_encI ..)

theorem EncodedOpcode.faddi (rd : XReg) (imm : Imm16) : EncodedOpcode.Statement (.faddi rd imm) :=
  congrArg decodeOpcode (fieldOpcode_encI ..)

theorem EncodedOpcode.fsubi (rd : XReg) (imm : Imm16) : EncodedOpcode.Statement (.fsubi rd imm) :=
  congrArg decodeOpcode (fieldOpcode_encI ..)

theorem EncodedOpcode.fmuli (rd : XReg) (imm : Imm16) : EncodedOpcode.Statement (.fmuli rd imm) :=
  congrArg decodeOpcode (fieldOpcode_encI ..)

theorem EncodedOpcode.fdivi (rd : XReg) (imm : Imm16) : EncodedOpcode.Statement (.fdivi rd imm) :=
  congrArg decodeOpcode (fieldOpcode_encI ..)

theorem EncodedOpcode.mexch (rd rs : XReg) (off : Imm16) : EncodedOpcode.Statement (.mexch rd rs off) :=
  congrArg decodeOpcode (fieldOpcode_encR ..)

theorem EncodedOpcode.del (rd : XReg) : EncodedOpcode.Statement (.del rd) :=
  congrArg decodeOpcode (fieldOpcode_encR ..)

theorem EncodedOpcode.mdel (rs : XReg) (off : Imm16) : EncodedOpcode.Statement (.mdel rs off) :=
  congrArg decodeOpcode (fieldOpcode_encR ..)

theorem EncodedOpcode.cswap (ra rb rc : XReg) : EncodedOpcode.Statement (.cswap ra rb rc) :=
  congrArg decodeOpcode (fieldOpcode_encR3 ..)

theorem EncodedOpcode.cswapi (ra rb : XReg) (imm : Imm16) : EncodedOpcode.Statement (.cswapi ra rb imm) :=
  congrArg decodeOpcode (fieldOpcode_encR ..)

theorem EncodedOpcode.blt (ra rb : XReg) (off : Imm16) : EncodedOpcode.Statement (.blt ra rb off) :=
  congrArg decodeOpcode (fieldOpcode_encB ..)

theorem EncodedOpcode.bltu (ra rb : XReg) (off : Imm16) : EncodedOpcode.Statement (.bltu ra rb off) :=
  congrArg decodeOpcode (fieldOpcode_encB ..)

theorem EncodedOpcode.bge (ra rb : XReg) (off : Imm16) : EncodedOpcode.Statement (.bge ra rb off) :=
  congrArg decodeOpcode (fieldOpcode_encB ..)

theorem EncodedOpcode.bgeu (ra rb : XReg) (off : Imm16) : EncodedOpcode.Statement (.bgeu ra rb off) :=
  congrArg decodeOpcode (fieldOpcode_encB ..)

theorem EncodedOpcode.beq (ra rb : XReg) (off : Imm16) : EncodedOpcode.Statement (.beq ra rb off) :=
  congrArg decodeOpcode (fieldOpcode_encB ..)

theorem EncodedOpcode.bne (ra rb : XReg) (off : Imm16) : EncodedOpcode.Statement (.bne ra rb off) :=
  congrArg decodeOpcode (fieldOpcode_encB ..)

theorem EncodedOpcode.bevn (rd : XReg) (off : Imm16) : EncodedOpcode.Statement (.bevn rd off) :=
  congrArg decodeOpcode (fieldOpcode_encI ..)

theorem EncodedOpcode.bodd (rd : XReg) (off : Imm16) : EncodedOpcode.Statement (.bodd rd off) :=
  congrArg decodeOpcode (fieldOpcode_encI ..)

theorem EncodedOpcode.swb (rd : XReg) : EncodedOpcode.Statement (.swb rd) :=
  congrArg decodeOpcode (fieldOpcode_encR ..)

theorem EncodedOpcode.rswb (rd : XReg) : EncodedOpcode.Statement (.rswb rd) :=
  congrArg decodeOpcode (fieldOpcode_encR ..)

theorem EncodedOpcode.vxor (vd vs : VReg) : EncodedOpcode.Statement (.vxor vd vs) :=
  congrArg decodeOpcode (fieldOpcode_encR ..)

theorem EncodedOpcode.vneg (vd : VReg) : EncodedOpcode.Statement (.vneg vd) :=
  congrArg decodeOpcode (fieldOpcode_encR ..)

theorem EncodedOpcode.vadd (vd vs : VReg) : EncodedOpcode.Statement (.vadd vd vs) :=
  congrArg decodeOpcode (fieldOpcode_encR ..)

theorem EncodedOpcode.vsub (vd vs : VReg) : EncodedOpcode.Statement (.vsub vd vs) :=
  congrArg decodeOpcode (fieldOpcode_encR ..)

theorem EncodedOpcode.vmul (vd vs : VReg) : EncodedOpcode.Statement (.vmul vd vs) :=
  congrArg decodeOpcode (fieldOpcode_encR ..)

theorem EncodedOpcode.vdiv (vd vs : VReg) : EncodedOpcode.Statement (.vdiv vd vs) :=
  congrArg decodeOpcode (fieldOpcode_encR ..)

theorem EncodedOpcode.vrr (vd vs : VReg) : EncodedOpcode.Statement (.vrr vd vs) :=
  congrArg decodeOpcode (fieldOpcode_encR ..)

theorem EncodedOpcode.vrl (vd vs : VReg) : EncodedOpcode.Statement (.vrl vd vs) :=
  congrArg decodeOpcode (fieldOpcode_encR ..)

theorem EncodedOpcode.vfadd (vd vs : VReg) : EncodedOpcode.Statement (.vfadd vd vs) :=
  congrArg decodeOpcode (fieldOpcode_encR ..)

theorem EncodedOpcode.vfsub (vd vs : VReg) : EncodedOpcode.Statement (.vfsub vd vs) :=
  congrArg decodeOpcode (fieldOpcode_encR ..)

theorem EncodedOpcode.vfmul (vd vs : VReg) : EncodedOpcode.Statement (.vfmul vd vs) :=
  congrArg decodeOpcode (fieldOpcode_encR ..)

theorem EncodedOpcode.vfdiv (vd vs : VReg) : EncodedOpcode.Statement (.vfdiv vd vs) :=
  congrArg decodeOpcode (fieldOpcode_encR ..)

theorem EncodedOpcode.vexch (vd vs : VReg) : EncodedOpcode.Statement (.vexch vd vs) :=
  congrArg decodeOpcode (fieldOpcode_encR ..)

theorem EncodedOpcode.vxori (vd : VReg) (imm : Imm16) : EncodedOpcode.Statement (.vxori vd imm) :=
  congrArg decodeOpcode (fieldOpcode_encI ..)

theorem EncodedOpcode.vaddi (vd : VReg) (imm : Imm16) : EncodedOpcode.Statement (.vaddi vd imm) :=
  congrArg decodeOpcode (fieldOpcode_encI ..)

theorem EncodedOpcode.vsubi (vd : VReg) (imm : Imm16) : EncodedOpcode.Statement (.vsubi vd imm) :=
  congrArg decodeOpcode (fieldOpcode_encI ..)

theorem EncodedOpcode.vmuli (vd : VReg) (imm : Imm16) : EncodedOpcode.Statement (.vmuli vd imm) :=
  congrArg decodeOpcode (fieldOpcode_encI ..)

theorem EncodedOpcode.vdivi (vd : VReg) (imm : Imm16) : EncodedOpcode.Statement (.vdivi vd imm) :=
  congrArg decodeOpcode (fieldOpcode_encI ..)

theorem EncodedOpcode.vrri (vd : VReg) (imm : Imm16) : EncodedOpcode.Statement (.vrri vd imm) :=
  congrArg decodeOpcode (fieldOpcode_encI ..)

theorem EncodedOpcode.vrli (vd : VReg) (imm : Imm16) : EncodedOpcode.Statement (.vrli vd imm) :=
  congrArg decodeOpcode (fieldOpcode_encI ..)

theorem EncodedOpcode.vfaddi (vd : VReg) (imm : Imm16) : EncodedOpcode.Statement (.vfaddi vd imm) :=
  congrArg decodeOpcode (fieldOpcode_encI ..)

theorem EncodedOpcode.vfsubi (vd : VReg) (imm : Imm16) : EncodedOpcode.Statement (.vfsubi vd imm) :=
  congrArg decodeOpcode (fieldOpcode_encI ..)

theorem EncodedOpcode.vfmuli (vd : VReg) (imm : Imm16) : EncodedOpcode.Statement (.vfmuli vd imm) :=
  congrArg decodeOpcode (fieldOpcode_encI ..)

theorem EncodedOpcode.vfdivi (vd : VReg) (imm : Imm16) : EncodedOpcode.Statement (.vfdivi vd imm) :=
  congrArg decodeOpcode (fieldOpcode_encI ..)

theorem EncodedOpcode.vmexch (vd : VReg) (rs : XReg) (off : Imm16) : EncodedOpcode.Statement (.vmexch vd rs off) :=
  congrArg decodeOpcode (fieldOpcode_encR ..)

theorem EncodedOpcode.vdel (vd : VReg) : EncodedOpcode.Statement (.vdel vd) :=
  congrArg decodeOpcode (fieldOpcode_encR ..)

theorem EncodedOpcode.vmdel (rs : XReg) (off : Imm16) : EncodedOpcode.Statement (.vmdel rs off) :=
  congrArg decodeOpcode (fieldOpcode_encR ..)

theorem EncodedOpcode.vcswap (va vb vc : VReg) : EncodedOpcode.Statement (.vcswap va vb vc) :=
  congrArg decodeOpcode (fieldOpcode_encR3 ..)

theorem EncodedOpcode.vcswapi (va vb : VReg) (imm : Imm16) : EncodedOpcode.Statement (.vcswapi va vb imm) :=
  congrArg decodeOpcode (fieldOpcode_encR ..)

end Sys2Proof.Laws
end

