-- ==== Sys2Proof/Tests/Slice0.lean ====
section
/-! SUPPORT. Tests on fixed values. The words and the expected results are those of the spec: the examples of the
instruction rules and the tables of spec/95_test_vectors.md (parts 2 to 9), by hand from the rule where no example is
given. The last part has, for each obligation with hypotheses, values that meet them. -/

namespace Sys2Proof.Tests

open Sys2Proof Sys2Proof.Machine

/-! ### Helpers -/

/-- The outcome is a next state with the property. -/
def after (o : Host.Outcome State Fault Refusal) (p : State → Bool) : Bool :=
  match o with
  | .next t => p t
  | _ => false

theorem exists_of_after {o : Host.Outcome State Fault Refusal} {p : State → Bool} (h : after o p = true) :
    ∃ t, o = .next t ∧ p t = true := by
  cases o with
  | next t => exact ⟨t, rfl, h⟩
  | fault r => cases h
  | refused r => cases h

/-- The reset state with a word at `pc` and values in scalar registers. -/
def start (d : Direction) (pc w : Nat) (xs : List (XReg × Word)) : State :=
  xs.foldl (fun s r => s.setX r.1 r.2) ({ State.reset with dir := d, pc := BitVec.ofNat 32 pc }.withFetchWord 32 w)

/-- A vector register with its lanes given. -/
def withV (s : State) (r : VReg) (f : Nat → Word) : State :=
  { s with v := s.v.set r.toNat (Vector.ofFn fun l : Lane => f l.val) r.isLt }

/-- Memory words written in order. -/
def withMem (s : State) (ws : List (Nat × Word)) : State :=
  { s with mem := ws.foldl (fun m c => m.write c.1 c.2) s.mem }

/-- Register `r` and `pc` after one step that leaves the machine running. -/
def stepX (d : Direction) (w : Nat) (xs : List (XReg × Word)) (r : XReg) : Option (Word × Word) :=
  match step (start d 10 w xs) with
  | .next t => if t.status = .running then some (t.getX r, t.pc) else none
  | _ => none

/-- The status after one step that changes nothing else. -/
def stepStatus (s : State) : Option Status :=
  match step s with
  | .next t => if t = { s with status := t.status } then some t.status else none
  | _ => none

/-- The start of part 5: `v3` lane `l` is `10 * (l + 1)`, `v4` lane `l` is `l + 1`. -/
def startV (d : Direction) (w : Nat) : State :=
  withV (withV (start d 10 w []) 3 fun l => BitVec.ofNat 32 (10 * (l + 1))) 4 fun l => BitVec.ofNat 32 (l + 1)

/-- Lanes 0, 1, 2, 3 and 31 of a vector register. -/
def lanes (t : State) (r : VReg) : List Word :=
  [t.getLane r 0, t.getLane r 1, t.getLane r 2, t.getLane r 3, t.getLane r 31]

/-- Those lanes of `v3` after one step from the start of part 5 that leaves `v4` as it was. -/
def stepV (d : Direction) (w : Nat) : Option (List Word) :=
  match step (startV d w) with
  | .next t => if lanes t 4 = [1#32, 2#32, 3#32, 4#32, 32#32] then some (lanes t 3) else none
  | _ => none

/-- `pc` after one step at index 100 that changes `pc` only. -/
def stepPc (d : Direction) (w : Nat) (xs : List (XReg × Word)) : Option Nat :=
  match step (start d 100 w xs) with
  | .next t => if t = { start d 100 w xs with pc := t.pc } then some t.pc.toNat else none
  | _ => none

/-! ### Ill-formed words, one for each clause of R93 and more -/

theorem test_illegal_a_low :
    wellFormedWord 0x00000009#32 = false ∧ (∀ i, decode 0x00000009#32 ≠ .ok i) ∧
      stepStatus (start .backward 7 0x00000009 []) = some (.error .illegalInstruction) := by
  refine ⟨by decide, fun i h => ?_, by decide⟩
  cases h

theorem test_illegal_a_middle :
    wellFormedWord 0x00000020#32 = false ∧ (∀ i, decode 0x00000020#32 ≠ .ok i) ∧
      stepStatus (start .backward 7 0x00000020 []) = some (.error .illegalInstruction) := by
  refine ⟨by decide, fun i h => ?_, by decide⟩
  cases h

theorem test_illegal_a_high :
    wellFormedWord 0x0000003F#32 = false ∧ (∀ i, decode 0x0000003F#32 ≠ .ok i) ∧
      stepStatus (start .backward 7 0x0000003F []) = some (.error .illegalInstruction) := by
  refine ⟨by decide, fun i h => ?_, by decide⟩
  cases h

theorem test_illegal_b :
    wellFormedWord 0x00000301#32 = false ∧ (∀ i, decode 0x00000301#32 ≠ .ok i) ∧
      stepStatus (start .backward 7 0x00000301 []) = some (.error .illegalInstruction) := by
  refine ⟨by decide, fun i h => ?_, by decide⟩
  cases h

theorem test_illegal_b_vector :
    wellFormedWord 0x00000321#32 = false ∧ (∀ i, decode 0x00000321#32 ≠ .ok i) ∧
      stepStatus (start .backward 7 0x00000321 []) = some (.error .illegalInstruction) := by
  refine ⟨by decide, fun i h => ?_, by decide⟩
  cases h

theorem test_illegal_c_negate_is_func5_1 :
    wellFormedWord 0x18000043#32 = false ∧ (∀ i, decode 0x18000043#32 ≠ .ok i) ∧
      stepStatus (start .backward 7 0x18000043 []) = some (.error .illegalInstruction) := by
  refine ⟨by decide, fun i h => ?_, by decide⟩
  cases h

theorem test_illegal_c_above :
    wellFormedWord 0x18000303#32 = false ∧ (∀ i, decode 0x18000303#32 ≠ .ok i) ∧
      stepStatus (start .backward 7 0x18000303 []) = some (.error .illegalInstruction) := by
  refine ⟨by decide, fun i h => ?_, by decide⟩
  cases h

theorem test_illegal_d :
    wellFormedWord 0x18400041#32 = false ∧ (∀ i, decode 0x18400041#32 ≠ .ok i) ∧
      stepStatus (start .backward 7 0x18400041 []) = some (.error .illegalInstruction) := by
  refine ⟨by decide, fun i h => ?_, by decide⟩
  cases h

theorem test_illegal_e_f16 :
    wellFormedWord 0x00000040#32 = false ∧ (∀ i, decode 0x00000040#32 ≠ .ok i) ∧
      stepStatus (start .backward 7 0x00000040 []) = some (.error .illegalInstruction) := by
  refine ⟨by decide, fun i h => ?_, by decide⟩
  cases h

theorem test_illegal_e_rd :
    wellFormedWord 0x08000000#32 = false ∧ (∀ i, decode 0x08000000#32 ≠ .ok i) ∧
      stepStatus (start .backward 7 0x08000000 []) = some (.error .illegalInstruction) := by
  refine ⟨by decide, fun i h => ?_, by decide⟩
  cases h

theorem test_illegal_f :
    wellFormedWord 0x19000042#32 = false ∧ (∀ i, decode 0x19000042#32 ≠ .ok i) ∧
      stepStatus (start .backward 7 0x19000042 []) = some (.error .illegalInstruction) := by
  refine ⟨by decide, fun i h => ?_, by decide⟩
  cases h

theorem test_illegal_g_del :
    wellFormedWord 0x18400005#32 = false ∧ (∀ i, decode 0x18400005#32 ≠ .ok i) ∧
      stepStatus (start .backward 7 0x18400005 []) = some (.error .illegalInstruction) := by
  refine ⟨by decide, fun i h => ?_, by decide⟩
  cases h

theorem test_illegal_g_swb :
    wellFormedWord 0x38400018#32 = false ∧ (∀ i, decode 0x38400018#32 ≠ .ok i) ∧
      stepStatus (start .backward 7 0x38400018 []) = some (.error .illegalInstruction) := by
  refine ⟨by decide, fun i h => ?_, by decide⟩
  cases h

theorem test_illegal_h :
    wellFormedWord 0x09000086#32 = false ∧ (∀ i, decode 0x09000086#32 ≠ .ok i) ∧
      stepStatus (start .backward 7 0x09000086 []) = some (.error .illegalInstruction) := by
  refine ⟨by decide, fun i h => ?_, by decide⟩
  cases h

theorem test_illegal_i :
    wellFormedWord 0x190A0047#32 = false ∧ (∀ i, decode 0x190A0047#32 ≠ .ok i) ∧
      stepStatus (start .backward 7 0x190A0047 []) = some (.error .illegalInstruction) := by
  refine ⟨by decide, fun i h => ?_, by decide⟩
  cases h

theorem test_illegal_j :
    wellFormedWord 0x10002856#32 = false ∧ (∀ i, decode 0x10002856#32 ≠ .ok i) ∧
      stepStatus (start .backward 7 0x10002856 []) = some (.error .illegalInstruction) := by
  refine ⟨by decide, fun i h => ?_, by decide⟩
  cases h

/-! ### Every constructor's decoding, from words the rules write out -/

theorem test_decode_system :
    decode 0x00000000#32 = .ok .halt ∧
    decode 0x38000018#32 = .ok (.swb 7) ∧
    decode 0x10000019#32 = .ok (.rswb 2) :=
  ⟨rfl, rfl, rfl⟩

theorem test_decode_special :
    decode 0x19000001#32 = .ok (.xor 3 4) ∧
    decode 0x18000041#32 = .ok (.neg 3) ∧
    decode 0x19000081#32 = .ok (.add 3 4) ∧
    decode 0x190000C1#32 = .ok (.sub 3 4) ∧
    decode 0x19000101#32 = .ok (.mul 3 4) ∧
    decode 0x19000141#32 = .ok (.div 3 4) ∧
    decode 0x19000181#32 = .ok (.rr 3 4) ∧
    decode 0x190001C1#32 = .ok (.rl 3 4) :=
  ⟨rfl, rfl, rfl, rfl, rfl, rfl, rfl, rfl⟩

theorem test_decode_special_float :
    decode 0x19000201#32 = .ok (.fadd 3 4) ∧
    decode 0x19000241#32 = .ok (.fsub 3 4) ∧
    decode 0x19000281#32 = .ok (.fmul 3 4) ∧
    decode 0x190002C1#32 = .ok (.fdiv 3 4) :=
  ⟨rfl, rfl, rfl, rfl⟩

theorem test_decode_imm :
    decode 0x18003803#32 = .ok (.xori 3 7) ∧
    decode 0x1FFFE883#32 = .ok (.addi 3 0xFFFD) ∧
    decode 0x180038C3#32 = .ok (.subi 3 7) ∧
    decode 0x18003903#32 = .ok (.muli 3 7) ∧
    decode 0x18003943#32 = .ok (.divi 3 7) ∧
    decode 0x18003983#32 = .ok (.rri 3 7) ∧
    decode 0x180039C3#32 = .ok (.rli 3 7) :=
  ⟨rfl, rfl, rfl, rfl, rfl, rfl, rfl⟩

theorem test_decode_imm_float :
    decode 0x18003A03#32 = .ok (.faddi 3 7) ∧
    decode 0x18003A43#32 = .ok (.fsubi 3 7) ∧
    decode 0x18003A83#32 = .ok (.fmuli 3 7) ∧
    decode 0x18003AC3#32 = .ok (.fdivi 3 7) :=
  ⟨rfl, rfl, rfl, rfl⟩

theorem test_decode_exchange :
    decode 0x19000002#32 = .ok (.exch 3 4) ∧
    decode 0x293FFF84#32 = .ok (.mexch 5 4 0xFFFE) ∧
    decode 0x19000022#32 = .ok (.vexch 3 4) ∧
    decode 0x11000024#32 = .ok (.vmexch 2 4 0) :=
  ⟨rfl, rfl, rfl, rfl⟩

theorem test_decode_delete :
    decode 0x18000005#32 = .ok (.del 3) ∧
    decode 0x01000086#32 = .ok (.mdel 4 2) ∧
    decode 0x10000025#32 = .ok (.vdel 2) ∧
    decode 0x010000A6#32 = .ok (.vmdel 4 2) :=
  ⟨rfl, rfl, rfl, rfl⟩

theorem test_decode_cswap :
    decode 0x190A0007#32 = .ok (.cswap 3 4 5) ∧
    decode 0x193FFFC8#32 = .ok (.cswapi 3 4 0xFFFF) ∧
    decode 0x190A0027#32 = .ok (.vcswap 3 4 5) ∧
    decode 0x193FFFE8#32 = .ok (.vcswapi 3 4 0xFFFF) :=
  ⟨rfl, rfl, rfl, rfl⟩

theorem test_decode_branch :
    decode 0x10C00150#32 = .ok (.blt 2 3 5) ∧
    decode 0x10C00151#32 = .ok (.bltu 2 3 5) ∧
    decode 0x10FFFF92#32 = .ok (.bge 2 3 0xFFFE) ∧
    decode 0x10C00153#32 = .ok (.bgeu 2 3 5) ∧
    decode 0x00000094#32 = .ok (.beq 0 0 2) ∧
    decode 0x103FFF95#32 = .ok (.bne 2 0 0xFFFE) ∧
    decode 0x10002816#32 = .ok (.bevn 2 5) ∧
    decode 0x17FFE817#32 = .ok (.bodd 2 0xFFFD) :=
  ⟨rfl, rfl, rfl, rfl, rfl, rfl, rfl, rfl⟩

theorem test_decode_vspecial :
    decode 0x19000021#32 = .ok (.vxor 3 4) ∧
    decode 0x18000061#32 = .ok (.vneg 3) ∧
    decode 0x190000A1#32 = .ok (.vadd 3 4) ∧
    decode 0x190000E1#32 = .ok (.vsub 3 4) ∧
    decode 0x19000121#32 = .ok (.vmul 3 4) ∧
    decode 0x19000161#32 = .ok (.vdiv 3 4) ∧
    decode 0x190001A1#32 = .ok (.vrr 3 4) ∧
    decode 0x190001E1#32 = .ok (.vrl 3 4) :=
  ⟨rfl, rfl, rfl, rfl, rfl, rfl, rfl, rfl⟩

theorem test_decode_vspecial_float :
    decode 0x19000221#32 = .ok (.vfadd 3 4) ∧
    decode 0x19000261#32 = .ok (.vfsub 3 4) ∧
    decode 0x190002A1#32 = .ok (.vfmul 3 4) ∧
    decode 0x190002E1#32 = .ok (.vfdiv 3 4) :=
  ⟨rfl, rfl, rfl, rfl⟩

theorem test_decode_vimm :
    decode 0x18003823#32 = .ok (.vxori 3 7) ∧
    decode 0x100028A3#32 = .ok (.vaddi 2 5) ∧
    decode 0x180038E3#32 = .ok (.vsubi 3 7) ∧
    decode 0x18003923#32 = .ok (.vmuli 3 7) ∧
    decode 0x18003963#32 = .ok (.vdivi 3 7) ∧
    decode 0x180039A3#32 = .ok (.vrri 3 7) ∧
    decode 0x180039E3#32 = .ok (.vrli 3 7) :=
  ⟨rfl, rfl, rfl, rfl, rfl, rfl, rfl⟩

theorem test_decode_vimm_float :
    decode 0x18003A23#32 = .ok (.vfaddi 3 7) ∧
    decode 0x18003A63#32 = .ok (.vfsubi 3 7) ∧
    decode 0x18003AA3#32 = .ok (.vfmuli 3 7) ∧
    decode 0x18003AE3#32 = .ok (.vfdivi 3 7) :=
  ⟨rfl, rfl, rfl, rfl⟩

/-! ### Scalar arithmetic (R161 to R186) -/

theorem test_xor :
    stepX .forward 0x19000001 [(3, 100#32), (4, 7#32)] 3 = some (99#32, 11#32) ∧
    stepX .backward 0x19000001 [(3, 100#32), (4, 7#32)] 3 = some (99#32, 9#32) := by decide

theorem test_neg :
    stepX .forward 0x18000041 [(3, 100#32), (4, 7#32)] 3 = some (0xFFFFFF9C#32, 11#32) ∧
    stepX .backward 0x18000041 [(3, 100#32), (4, 7#32)] 3 = some (0xFFFFFF9C#32, 9#32) := by decide

theorem test_add :
    stepX .forward 0x19000081 [(3, 100#32), (4, 7#32)] 3 = some (107#32, 11#32) ∧
    stepX .backward 0x19000081 [(3, 100#32), (4, 7#32)] 3 = some (93#32, 9#32) := by decide

theorem test_sub :
    stepX .forward 0x190000C1 [(3, 100#32), (4, 7#32)] 3 = some (93#32, 11#32) ∧
    stepX .backward 0x190000C1 [(3, 100#32), (4, 7#32)] 3 = some (107#32, 9#32) := by decide

theorem test_mul :
    stepX .forward 0x19000101 [(3, 100#32), (4, 7#32)] 3 = some (700#32, 11#32) ∧
    stepX .backward 0x19000101 [(3, 100#32), (4, 7#32)] 3 = some (14#32, 9#32) := by decide

theorem test_div :
    stepX .forward 0x19000141 [(3, 100#32), (4, 7#32)] 3 = some (14#32, 11#32) ∧
    stepX .backward 0x19000141 [(3, 100#32), (4, 7#32)] 3 = some (700#32, 9#32) := by decide

theorem test_rr :
    stepX .forward 0x19000181 [(3, 100#32), (4, 7#32)] 3 = some (0xC8000000#32, 11#32) ∧
    stepX .backward 0x19000181 [(3, 100#32), (4, 7#32)] 3 = some (12800#32, 9#32) := by decide

theorem test_rl :
    stepX .forward 0x190001C1 [(3, 100#32), (4, 7#32)] 3 = some (12800#32, 11#32) ∧
    stepX .backward 0x190001C1 [(3, 100#32), (4, 7#32)] 3 = some (0xC8000000#32, 9#32) := by decide

theorem test_fadd :
    stepX .forward 0x19000201 [(3, 100#32), (4, 7#32)] 3 = some (107#32, 11#32) ∧
    stepX .backward 0x19000201 [(3, 100#32), (4, 7#32)] 3 = some (93#32, 9#32) := by decide

theorem test_fsub :
    stepX .forward 0x19000241 [(3, 100#32), (4, 7#32)] 3 = some (93#32, 11#32) ∧
    stepX .backward 0x19000241 [(3, 100#32), (4, 7#32)] 3 = some (107#32, 9#32) := by decide

theorem test_fmul :
    stepX .forward 0x19000281 [(3, 100#32), (4, 7#32)] 3 = some (700#32, 11#32) ∧
    stepX .backward 0x19000281 [(3, 100#32), (4, 7#32)] 3 = some (14#32, 9#32) := by decide

theorem test_fdiv :
    stepX .forward 0x190002C1 [(3, 100#32), (4, 7#32)] 3 = some (14#32, 11#32) ∧
    stepX .backward 0x190002C1 [(3, 100#32), (4, 7#32)] 3 = some (700#32, 9#32) := by decide

theorem test_xori :
    stepX .forward 0x1FFFE803 [(3, 100#32)] 3 = some (0xFFFFFF99#32, 11#32) ∧
    stepX .backward 0x1FFFE803 [(3, 100#32)] 3 = some (0xFFFFFF99#32, 9#32) := by decide

theorem test_addi :
    stepX .forward 0x1FFFE883 [(3, 100#32)] 3 = some (97#32, 11#32) ∧
    stepX .backward 0x1FFFE883 [(3, 100#32)] 3 = some (103#32, 9#32) := by decide

theorem test_subi :
    stepX .forward 0x1FFFE8C3 [(3, 100#32)] 3 = some (103#32, 11#32) ∧
    stepX .backward 0x1FFFE8C3 [(3, 100#32)] 3 = some (97#32, 9#32) := by decide

theorem test_muli :
    stepX .forward 0x1FFFE903 [(3, 100#32)] 3 = some (0xFFFFFED4#32, 11#32) ∧
    stepX .backward 0x1FFFE903 [(3, 100#32)] 3 = some (0xFFFFFFDF#32, 9#32) := by decide

theorem test_divi :
    stepX .forward 0x1FFFE943 [(3, 100#32)] 3 = some (0xFFFFFFDF#32, 11#32) ∧
    stepX .backward 0x1FFFE943 [(3, 100#32)] 3 = some (0xFFFFFED4#32, 9#32) := by decide

theorem test_rri :
    stepX .forward 0x1FFFE983 [(3, 100#32)] 3 = some (800#32, 11#32) ∧
    stepX .backward 0x1FFFE983 [(3, 100#32)] 3 = some (0x8000000C#32, 9#32) := by decide

theorem test_rli :
    stepX .forward 0x1FFFE9C3 [(3, 100#32)] 3 = some (0x8000000C#32, 11#32) ∧
    stepX .backward 0x1FFFE9C3 [(3, 100#32)] 3 = some (800#32, 9#32) := by decide

theorem test_faddi :
    stepX .forward 0x1FFFEA03 [(3, 100#32)] 3 = some (97#32, 11#32) ∧
    stepX .backward 0x1FFFEA03 [(3, 100#32)] 3 = some (103#32, 9#32) := by decide

theorem test_fsubi :
    stepX .forward 0x1FFFEA43 [(3, 100#32)] 3 = some (103#32, 11#32) ∧
    stepX .backward 0x1FFFEA43 [(3, 100#32)] 3 = some (97#32, 9#32) := by decide

theorem test_fmuli :
    stepX .forward 0x1FFFEA83 [(3, 100#32)] 3 = some (0xFFFFFED4#32, 11#32) ∧
    stepX .backward 0x1FFFEA83 [(3, 100#32)] 3 = some (0xFFFFFFDF#32, 9#32) := by decide

theorem test_fdivi :
    stepX .forward 0x1FFFEAC3 [(3, 100#32)] 3 = some (0xFFFFFFDF#32, 11#32) ∧
    stepX .backward 0x1FFFEAC3 [(3, 100#32)] 3 = some (0xFFFFFED4#32, 9#32) := by decide

theorem test_add_same :
    stepX .forward 0x18C00081 [(3, 21#32)] 3 = some (42#32, 11#32) ∧
    stepX .backward 0x18C00081 [(3, 21#32)] 3 = some (0#32, 9#32) := by decide

theorem test_xor_same :
    stepX .forward 0x18C00001 [(3, 21#32)] 3 = some (0#32, 11#32) ∧
    stepX .backward 0x18C00001 [(3, 21#32)] 3 = some (0#32, 9#32) := by decide

theorem test_neg_least :
    stepX .forward 0x18000041 [(3, 0x80000000#32)] 3 = some (0x80000000#32, 11#32) ∧
    stepX .backward 0x18000041 [(3, 0x80000000#32)] 3 = some (0x80000000#32, 9#32) := by decide

theorem test_rr_amount_36 :
    stepX .forward 0x19000181 [(3, 0x12345678#32), (4, 36#32)] 3 = some (0x81234567#32, 11#32) ∧
    stepX .backward 0x19000181 [(3, 0x12345678#32), (4, 36#32)] 3 = some (0x23456781#32, 9#32) := by decide

theorem test_fadd_tie_to_even :
    stepX .forward 0x19000201 [(3, 0x01000000#32), (4, 1#32)] 3 = some (0x01000000#32, 11#32) ∧
    stepX .backward 0x19000201 [(3, 0x01000000#32), (4, 1#32)] 3 = some (0x00FFFFFF#32, 9#32) := by decide

theorem test_fsub_rounds_below_least :
    stepX .forward 0x19000241 [(3, 0x80000000#32), (4, 1#32)] 3 = some (0x80000000#32, 11#32) ∧
    stepX .backward 0x19000241 [(3, 0x80000000#32), (4, 1#32)] 3 = some (0x80000000#32, 9#32) := by decide

theorem test_div_toward_zero :
    stepX .forward 0x19000141 [(3, 0xFFFFFFF9#32), (4, 2#32)] 3 = some (0xFFFFFFFD#32, 11#32) := by decide

theorem test_fdiv_toward_zero :
    stepX .forward 0x190002C1 [(3, 0xFFFFFFF9#32), (4, 2#32)] 3 = some (0xFFFFFFFD#32, 11#32) := by decide

theorem test_mul_wraps :
    stepX .forward 0x19000101 [(3, 65535#32), (4, 65535#32)] 3 = some (0xFFFE0001#32, 11#32) := by decide

theorem test_div_faults :
    stepStatus (start .forward 10 0x19000141 [(3, 100#32), (4, 0#32)]) = some (.error .arithmeticFault) ∧
    stepStatus (start .forward 10 0x19000141 [(3, 0x80000000#32), (4, 0xFFFFFFFF#32)]) = some (.error .arithmeticFault) := by decide

theorem test_mul_faults :
    stepStatus (start .backward 10 0x19000101 [(3, 100#32), (4, 0#32)]) = some (.error .arithmeticFault) := by decide

theorem test_divi_faults :
    stepStatus (start .forward 10 0x18000143 [(3, 100#32)]) = some (.error .arithmeticFault) ∧
    stepStatus (start .forward 10 0x1FFFF943 [(3, 0x80000000#32)]) = some (.error .arithmeticFault) := by decide

theorem test_muli_faults :
    stepStatus (start .backward 10 0x18000103 [(3, 100#32)]) = some (.error .arithmeticFault) := by decide

theorem test_fadd_faults :
    stepStatus (start .forward 10 0x19000201 [(3, 0x7FFFFFFF#32), (4, 0#32)]) = some (.error .arithmeticFault) ∧
    stepStatus (start .forward 10 0x19000201 [(3, 0x40000000#32), (4, 0x40000000#32)]) = some (.error .arithmeticFault) := by decide

theorem test_fmul_faults :
    stepStatus (start .forward 10 0x19000281 [(3, 65536#32), (4, 65536#32)]) = some (.error .arithmeticFault) ∧
    stepStatus (start .backward 10 0x19000281 [(3, 5#32), (4, 0#32)]) = some (.error .arithmeticFault) := by decide

theorem test_fdiv_faults :
    stepStatus (start .forward 10 0x190002C1 [(3, 0#32), (4, 0#32)]) = some (.error .arithmeticFault) ∧
    stepStatus (start .forward 10 0x190002C1 [(3, 0x80000000#32), (4, 0xFFFFFFFF#32)]) = some (.error .arithmeticFault) := by decide

theorem test_cswap :
    stepX .forward 0x190A0007 [(3, 0x12345678#32), (4, 0x9ABCDEF0#32), (5, 0x0000FFFF#32)] 3 = some (0x1234DEF0#32, 11#32) ∧
    stepX .backward 0x190A0007 [(3, 0x12345678#32), (4, 0x9ABCDEF0#32), (5, 0x0000FFFF#32)] 4 = some (0x9ABC5678#32, 9#32) := by decide

theorem test_cswap_mask_is_first :
    stepX .forward 0x19060007 [(3, 0x0F0F0F0F#32), (4, 0x12345678#32)] 3 = some (0x02040608#32, 11#32) ∧
    stepX .forward 0x19060007 [(3, 0x0F0F0F0F#32), (4, 0x12345678#32)] 4 = some (0x1F3F5F7F#32, 11#32) := by decide

theorem test_cswapi :
    stepX .forward 0x19200008 [(3, 0x12345678#32), (4, 0x9ABCDEF0#32), (5, 0x0000FFFF#32)] 3 = some (0x9ABCD678#32, 11#32) ∧
    stepX .backward 0x19003FC8 [(3, 0x12345678#32), (4, 0x9ABCDEF0#32), (5, 0x0000FFFF#32)] 4 = some (0x9ABCDE78#32, 9#32) := by decide

/-! ### Vector arithmetic (R204 to R228) -/

theorem test_vxor :
    stepV .forward 0x19000021 = some [11#32, 22#32, 29#32, 44#32, 352#32] ∧
    stepV .backward 0x19000021 = some [11#32, 22#32, 29#32, 44#32, 352#32] := by decide

theorem test_vneg :
    stepV .forward 0x18000061 = some [0xFFFFFFF6#32, 0xFFFFFFEC#32, 0xFFFFFFE2#32, 0xFFFFFFD8#32, 0xFFFFFEC0#32] ∧
    stepV .backward 0x18000061 = some [0xFFFFFFF6#32, 0xFFFFFFEC#32, 0xFFFFFFE2#32, 0xFFFFFFD8#32, 0xFFFFFEC0#32] := by decide

theorem test_vadd :
    stepV .forward 0x190000A1 = some [11#32, 22#32, 33#32, 44#32, 352#32] ∧
    stepV .backward 0x190000A1 = some [9#32, 18#32, 27#32, 36#32, 288#32] := by decide

theorem test_vsub :
    stepV .forward 0x190000E1 = some [9#32, 18#32, 27#32, 36#32, 288#32] ∧
    stepV .backward 0x190000E1 = some [11#32, 22#32, 33#32, 44#32, 352#32] := by decide

theorem test_vmul :
    stepV .forward 0x19000121 = some [10#32, 40#32, 90#32, 160#32, 10240#32] ∧
    stepV .backward 0x19000121 = some [10#32, 10#32, 10#32, 10#32, 10#32] := by decide

theorem test_vdiv :
    stepV .forward 0x19000161 = some [10#32, 10#32, 10#32, 10#32, 10#32] ∧
    stepV .backward 0x19000161 = some [10#32, 40#32, 90#32, 160#32, 10240#32] := by decide

theorem test_vrr :
    stepV .forward 0x190001A1 = some [5#32, 5#32, 0xC0000003#32, 0x80000002#32, 320#32] ∧
    stepV .backward 0x190001A1 = some [20#32, 80#32, 240#32, 640#32, 320#32] := by decide

theorem test_vrl :
    stepV .forward 0x190001E1 = some [20#32, 80#32, 240#32, 640#32, 320#32] ∧
    stepV .backward 0x190001E1 = some [5#32, 5#32, 0xC0000003#32, 0x80000002#32, 320#32] := by decide

theorem test_vfadd :
    stepV .forward 0x19000221 = some [11#32, 22#32, 33#32, 44#32, 352#32] ∧
    stepV .backward 0x19000221 = some [9#32, 18#32, 27#32, 36#32, 288#32] := by decide

theorem test_vfsub :
    stepV .forward 0x19000261 = some [9#32, 18#32, 27#32, 36#32, 288#32] ∧
    stepV .backward 0x19000261 = some [11#32, 22#32, 33#32, 44#32, 352#32] := by decide

theorem test_vfmul :
    stepV .forward 0x190002A1 = some [10#32, 40#32, 90#32, 160#32, 10240#32] ∧
    stepV .backward 0x190002A1 = some [10#32, 10#32, 10#32, 10#32, 10#32] := by decide

theorem test_vfdiv :
    stepV .forward 0x190002E1 = some [10#32, 10#32, 10#32, 10#32, 10#32] ∧
    stepV .backward 0x190002E1 = some [10#32, 40#32, 90#32, 160#32, 10240#32] := by decide

theorem test_vxori :
    stepV .forward 0x18001823 = some [9#32, 23#32, 29#32, 43#32, 323#32] ∧
    stepV .backward 0x18001823 = some [9#32, 23#32, 29#32, 43#32, 323#32] := by decide

theorem test_vaddi :
    stepV .forward 0x180018A3 = some [13#32, 23#32, 33#32, 43#32, 323#32] ∧
    stepV .backward 0x180018A3 = some [7#32, 17#32, 27#32, 37#32, 317#32] := by decide

theorem test_vsubi :
    stepV .forward 0x180018E3 = some [7#32, 17#32, 27#32, 37#32, 317#32] ∧
    stepV .backward 0x180018E3 = some [13#32, 23#32, 33#32, 43#32, 323#32] := by decide

theorem test_vmuli :
    stepV .forward 0x18001923 = some [30#32, 60#32, 90#32, 120#32, 960#32] ∧
    stepV .backward 0x18001923 = some [3#32, 6#32, 10#32, 13#32, 106#32] := by decide

theorem test_vdivi :
    stepV .forward 0x18001963 = some [3#32, 6#32, 10#32, 13#32, 106#32] ∧
    stepV .backward 0x18001963 = some [30#32, 60#32, 90#32, 120#32, 960#32] := by decide

theorem test_vrri :
    stepV .forward 0x180019A3 = some [0x40000001#32, 0x80000002#32, 0xC0000003#32, 5#32, 40#32] ∧
    stepV .backward 0x180019A3 = some [80#32, 160#32, 240#32, 320#32, 2560#32] := by decide

theorem test_vrli :
    stepV .forward 0x180019E3 = some [80#32, 160#32, 240#32, 320#32, 2560#32] ∧
    stepV .backward 0x180019E3 = some [0x40000001#32, 0x80000002#32, 0xC0000003#32, 5#32, 40#32] := by decide

theorem test_vfaddi :
    stepV .forward 0x18001A23 = some [13#32, 23#32, 33#32, 43#32, 323#32] ∧
    stepV .backward 0x18001A23 = some [7#32, 17#32, 27#32, 37#32, 317#32] := by decide

theorem test_vfsubi :
    stepV .forward 0x18001A63 = some [7#32, 17#32, 27#32, 37#32, 317#32] ∧
    stepV .backward 0x18001A63 = some [13#32, 23#32, 33#32, 43#32, 323#32] := by decide

theorem test_vfmuli :
    stepV .forward 0x18001AA3 = some [30#32, 60#32, 90#32, 120#32, 960#32] ∧
    stepV .backward 0x18001AA3 = some [3#32, 6#32, 10#32, 13#32, 106#32] := by decide

theorem test_vfdivi :
    stepV .forward 0x18001AE3 = some [3#32, 6#32, 10#32, 13#32, 106#32] ∧
    stepV .backward 0x18001AE3 = some [30#32, 60#32, 90#32, 120#32, 960#32] := by decide

/-- Lane 17 of the divisor is 0: nothing is written (R202). -/
theorem test_vdiv_faults_whole :
    stepStatus ((startV .forward 0x19000161).setLane 4 17 0#32) = some (.error .arithmeticFault) := by decide

/-- The start of part 5 for the conditional swaps. -/
def startSwap (w : Nat) : State :=
  withV (withV (withV (start .forward 10 w []) 3 fun l => BitVec.ofNat 32 (0x11110000 + l)) 4
    fun l => BitVec.ofNat 32 (0x22220000 + 0x100 * l)) 5 fun l => if l % 2 = 0 then 0xFFFFFFFF#32 else 0xFF#32

theorem test_vcswap : after (step (startSwap 0x190A0027)) (fun t =>
    decide (lanes t 3 = [0x22220000#32, 0x11110000#32, 0x22220200#32, 0x11110000#32, 0x11110000#32] ∧
      lanes t 4 = [0x11110000#32, 0x22220101#32, 0x11110002#32, 0x22220303#32, 0x22221F1F#32])) = true := by decide

theorem test_vcswapi : after (step (startSwap 0x193FFFE8)) (fun t =>
    decide (t.v = ((startSwap 0).v.set 3 (startSwap 0).v[4]).set 4 (startSwap 0).v[3])) = true := by decide

/-! ### Control (R240 to R253) -/

theorem test_blt :
    stepPc .forward 0x10C00150 [(2, 1#32), (3, 2#32)] = some 105 ∧
    stepPc .forward 0x10C00150 [(2, 2#32), (3, 1#32)] = some 101 ∧
    stepPc .forward 0x10C00150 [(2, 2#32), (3, 2#32)] = some 101 ∧
    stepPc .forward 0x10C00150 [(2, 0xFFFFFFFF#32), (3, 1#32)] = some 105 ∧
    stepPc .forward 0x10C00150 [(2, 1#32), (3, 0xFFFFFFFF#32)] = some 101 ∧
    stepPc .forward 0x10C00150 [(2, 0x80000000#32), (3, 0x7FFFFFFF#32)] = some 105 := by decide

theorem test_blt_backward :
    stepPc .backward 0x10C00150 [(2, 1#32), (3, 2#32)] = some 95 ∧
    stepPc .backward 0x10C00150 [(2, 2#32), (3, 1#32)] = some 99 ∧
    stepPc .backward 0x10C00150 [(2, 2#32), (3, 2#32)] = some 99 ∧
    stepPc .backward 0x10C00150 [(2, 0xFFFFFFFF#32), (3, 1#32)] = some 95 ∧
    stepPc .backward 0x10C00150 [(2, 1#32), (3, 0xFFFFFFFF#32)] = some 99 ∧
    stepPc .backward 0x10C00150 [(2, 0x80000000#32), (3, 0x7FFFFFFF#32)] = some 95 := by decide

theorem test_bltu :
    stepPc .forward 0x10C00151 [(2, 1#32), (3, 2#32)] = some 105 ∧
    stepPc .forward 0x10C00151 [(2, 2#32), (3, 1#32)] = some 101 ∧
    stepPc .forward 0x10C00151 [(2, 2#32), (3, 2#32)] = some 101 ∧
    stepPc .forward 0x10C00151 [(2, 0xFFFFFFFF#32), (3, 1#32)] = some 101 ∧
    stepPc .forward 0x10C00151 [(2, 1#32), (3, 0xFFFFFFFF#32)] = some 105 ∧
    stepPc .forward 0x10C00151 [(2, 0x80000000#32), (3, 0x7FFFFFFF#32)] = some 101 := by decide

theorem test_bltu_backward :
    stepPc .backward 0x10C00151 [(2, 1#32), (3, 2#32)] = some 95 ∧
    stepPc .backward 0x10C00151 [(2, 2#32), (3, 1#32)] = some 99 ∧
    stepPc .backward 0x10C00151 [(2, 2#32), (3, 2#32)] = some 99 ∧
    stepPc .backward 0x10C00151 [(2, 0xFFFFFFFF#32), (3, 1#32)] = some 99 ∧
    stepPc .backward 0x10C00151 [(2, 1#32), (3, 0xFFFFFFFF#32)] = some 95 ∧
    stepPc .backward 0x10C00151 [(2, 0x80000000#32), (3, 0x7FFFFFFF#32)] = some 99 := by decide

theorem test_bge :
    stepPc .forward 0x10C00152 [(2, 1#32), (3, 2#32)] = some 101 ∧
    stepPc .forward 0x10C00152 [(2, 2#32), (3, 1#32)] = some 105 ∧
    stepPc .forward 0x10C00152 [(2, 2#32), (3, 2#32)] = some 105 ∧
    stepPc .forward 0x10C00152 [(2, 0xFFFFFFFF#32), (3, 1#32)] = some 101 ∧
    stepPc .forward 0x10C00152 [(2, 1#32), (3, 0xFFFFFFFF#32)] = some 105 ∧
    stepPc .forward 0x10C00152 [(2, 0x80000000#32), (3, 0x7FFFFFFF#32)] = some 101 := by decide

theorem test_bge_backward :
    stepPc .backward 0x10C00152 [(2, 1#32), (3, 2#32)] = some 99 ∧
    stepPc .backward 0x10C00152 [(2, 2#32), (3, 1#32)] = some 95 ∧
    stepPc .backward 0x10C00152 [(2, 2#32), (3, 2#32)] = some 95 ∧
    stepPc .backward 0x10C00152 [(2, 0xFFFFFFFF#32), (3, 1#32)] = some 99 ∧
    stepPc .backward 0x10C00152 [(2, 1#32), (3, 0xFFFFFFFF#32)] = some 95 ∧
    stepPc .backward 0x10C00152 [(2, 0x80000000#32), (3, 0x7FFFFFFF#32)] = some 99 := by decide

theorem test_bgeu :
    stepPc .forward 0x10C00153 [(2, 1#32), (3, 2#32)] = some 101 ∧
    stepPc .forward 0x10C00153 [(2, 2#32), (3, 1#32)] = some 105 ∧
    stepPc .forward 0x10C00153 [(2, 2#32), (3, 2#32)] = some 105 ∧
    stepPc .forward 0x10C00153 [(2, 0xFFFFFFFF#32), (3, 1#32)] = some 105 ∧
    stepPc .forward 0x10C00153 [(2, 1#32), (3, 0xFFFFFFFF#32)] = some 101 ∧
    stepPc .forward 0x10C00153 [(2, 0x80000000#32), (3, 0x7FFFFFFF#32)] = some 105 := by decide

theorem test_bgeu_backward :
    stepPc .backward 0x10C00153 [(2, 1#32), (3, 2#32)] = some 99 ∧
    stepPc .backward 0x10C00153 [(2, 2#32), (3, 1#32)] = some 95 ∧
    stepPc .backward 0x10C00153 [(2, 2#32), (3, 2#32)] = some 95 ∧
    stepPc .backward 0x10C00153 [(2, 0xFFFFFFFF#32), (3, 1#32)] = some 95 ∧
    stepPc .backward 0x10C00153 [(2, 1#32), (3, 0xFFFFFFFF#32)] = some 99 ∧
    stepPc .backward 0x10C00153 [(2, 0x80000000#32), (3, 0x7FFFFFFF#32)] = some 95 := by decide

theorem test_beq :
    stepPc .forward 0x10C00154 [(2, 1#32), (3, 2#32)] = some 101 ∧
    stepPc .forward 0x10C00154 [(2, 2#32), (3, 1#32)] = some 101 ∧
    stepPc .forward 0x10C00154 [(2, 2#32), (3, 2#32)] = some 105 ∧
    stepPc .forward 0x10C00154 [(2, 0xFFFFFFFF#32), (3, 1#32)] = some 101 ∧
    stepPc .forward 0x10C00154 [(2, 1#32), (3, 0xFFFFFFFF#32)] = some 101 ∧
    stepPc .forward 0x10C00154 [(2, 0x80000000#32), (3, 0x7FFFFFFF#32)] = some 101 := by decide

theorem test_beq_backward :
    stepPc .backward 0x10C00154 [(2, 1#32), (3, 2#32)] = some 99 ∧
    stepPc .backward 0x10C00154 [(2, 2#32), (3, 1#32)] = some 99 ∧
    stepPc .backward 0x10C00154 [(2, 2#32), (3, 2#32)] = some 95 ∧
    stepPc .backward 0x10C00154 [(2, 0xFFFFFFFF#32), (3, 1#32)] = some 99 ∧
    stepPc .backward 0x10C00154 [(2, 1#32), (3, 0xFFFFFFFF#32)] = some 99 ∧
    stepPc .backward 0x10C00154 [(2, 0x80000000#32), (3, 0x7FFFFFFF#32)] = some 99 := by decide

theorem test_bne :
    stepPc .forward 0x10C00155 [(2, 1#32), (3, 2#32)] = some 105 ∧
    stepPc .forward 0x10C00155 [(2, 2#32), (3, 1#32)] = some 105 ∧
    stepPc .forward 0x10C00155 [(2, 2#32), (3, 2#32)] = some 101 ∧
    stepPc .forward 0x10C00155 [(2, 0xFFFFFFFF#32), (3, 1#32)] = some 105 ∧
    stepPc .forward 0x10C00155 [(2, 1#32), (3, 0xFFFFFFFF#32)] = some 105 ∧
    stepPc .forward 0x10C00155 [(2, 0x80000000#32), (3, 0x7FFFFFFF#32)] = some 105 := by decide

theorem test_bne_backward :
    stepPc .backward 0x10C00155 [(2, 1#32), (3, 2#32)] = some 95 ∧
    stepPc .backward 0x10C00155 [(2, 2#32), (3, 1#32)] = some 95 ∧
    stepPc .backward 0x10C00155 [(2, 2#32), (3, 2#32)] = some 99 ∧
    stepPc .backward 0x10C00155 [(2, 0xFFFFFFFF#32), (3, 1#32)] = some 95 ∧
    stepPc .backward 0x10C00155 [(2, 1#32), (3, 0xFFFFFFFF#32)] = some 95 ∧
    stepPc .backward 0x10C00155 [(2, 0x80000000#32), (3, 0x7FFFFFFF#32)] = some 95 := by decide

theorem test_bevn :
    stepPc .forward 0x10002816 [(2, 0#32)] = some 105 ∧
    stepPc .forward 0x10002816 [(2, 2#32)] = some 105 ∧
    stepPc .forward 0x10002816 [(2, 0x80000000#32)] = some 105 ∧
    stepPc .forward 0x10002816 [(2, 1#32)] = some 101 ∧
    stepPc .forward 0x10002816 [(2, 0xFFFFFFFF#32)] = some 101 ∧
    stepPc .backward 0x10002816 [(2, 7#32)] = some 99 := by decide

theorem test_bodd :
    stepPc .forward 0x10002817 [(2, 0#32)] = some 101 ∧
    stepPc .forward 0x10002817 [(2, 2#32)] = some 101 ∧
    stepPc .forward 0x10002817 [(2, 0x80000000#32)] = some 101 ∧
    stepPc .forward 0x10002817 [(2, 1#32)] = some 105 ∧
    stepPc .forward 0x10002817 [(2, 0xFFFFFFFF#32)] = some 105 ∧
    stepPc .backward 0x10002817 [(2, 7#32)] = some 95 := by decide

/-- Offsets -2, 0 and -32768. -/
theorem test_beq_offsets :
    stepPc .forward 0x003FFF94 [] = some 98 ∧ stepPc .backward 0x003FFF94 [] = some 102 ∧
    stepPc .forward 0x00000014 [] = some 101 ∧ stepPc .backward 0x00000014 [] = some 99 ∧
    stepPc .forward 0x00200014 [] = some 0xFFFF8064 := by decide

theorem test_swb :
    stepX .forward 0x38000018 [(7, 5#32)] 7 = some (0#32, 15#32) ∧
    stepX .backward 0x38000018 [(7, 5#32)] 7 = some (0#32, 15#32) := by decide

theorem test_swb_zero_and_negative :
    stepX .forward 0x38000018 [(7, 0#32)] 7 = some (0#32, 11#32) ∧
    stepX .forward 0x38000018 [(7, 0xFFFFFFFD#32)] 7 = some (0#32, 7#32) := by decide

theorem test_rswb :
    after (step (start .forward 4 0x10000019 [(2, 0#32)])) (fun t =>
      decide (t = { start .forward 4 0x10000019 [] with pc := 3#32, dir := .backward })) = true ∧
    after (step (start .backward 4 0x10000019 [(2, 0#32)])) (fun t =>
      decide (t = { start .forward 4 0x10000019 [] with pc := 5#32 })) = true := by decide

theorem test_rswb_jumps :
    after (step (start .forward 4 0x10000019 [(2, 6#32)])) (fun t =>
      decide (t = { start .forward 4 0x10000019 [] with pc := 10#32, dir := .backward })) = true ∧
    after (step (start .backward 4 0x10000019 [(2, 0xFFFFFFFE#32)])) (fun t =>
      decide (t = { start .forward 4 0x10000019 [] with pc := 2#32 })) = true := by decide

theorem test_halt :
    stepStatus (start .forward 7 0 []) = some .halted ∧ stepStatus (start .backward 7 0 []) = some .halted := by
  decide

/-! ### Exchanges (R261 to R264) -/

theorem test_exch :
    stepX .forward 0x19000002 [(3, 1#32), (4, 2#32)] 3 = some (2#32, 11#32) ∧
    stepX .backward 0x19000002 [(3, 1#32), (4, 2#32)] 4 = some (1#32, 9#32) := by decide

theorem test_exch_convention_registers :
    stepX .forward 0x00400002 [] 0 = some (0xFFFFFFFF#32, 11#32) ∧
    stepX .forward 0x00400002 [] 1 = some (0#32, 11#32) := by decide

theorem test_vexch : after (step (startV .backward 0x19000022)) (fun t =>
    decide (lanes t 3 = [1#32, 2#32, 3#32, 4#32, 32#32] ∧
      lanes t 4 = [10#32, 20#32, 30#32, 40#32, 320#32])) = true := by decide

theorem test_mexch : after (step (withMem (start .backward 3 0x293FFF84 [(4, 100#32), (5, 42#32)]) [(98, 7#32)]))
    (fun t => decide (t = withMem
      { start .backward 3 0x293FFF84 [(4, 100#32), (5, 7#32)] with pc := 2#32 } [(98, 42#32)])) = true := by decide

/-- Addresses -1, W, 2^31 and W - 1. -/
theorem test_mexch_bounds :
    stepStatus (start .forward 3 0x293FFFC4 [(5, 42#32), (4, 0#32)]) = some (.error .addressOutOfBounds) ∧
    stepStatus (start .forward 3 0x29000004 [(5, 42#32), (4, 250000#32)]) = some (.error .addressOutOfBounds) ∧
    stepStatus (start .forward 3 0x29000044 [(5, 42#32), (4, 0x7FFFFFFF#32)]) = some (.error .addressOutOfBounds) ∧
    after (step (start .forward 3 0x29000004 [(5, 42#32), (4, 249999#32)])) (fun t =>
      decide (t.mem.read 249999 = 42#32 ∧ t.getX 5 = 0#32)) = true := by decide

theorem test_vmexch : after (step (withV (start .forward 3 0x11000024 [(4, 249968#32)]) 2 fun l => BitVec.ofNat 32 (9 + l)))
    (fun t => decide (t.mem.read 249968 = 9#32 ∧ t.mem.read 249999 = 40#32 ∧ t.getLane 2 0 = 0#32 ∧
      t.getLane 2 31 = 0#32 ∧ t.pc = 4#32)) = true := by decide

theorem test_vmexch_bounds :
    stepStatus (start .forward 3 0x11000024 [(4, 249969#32)]) = some (.error .addressOutOfBounds) := by decide

/-! ### Deletes (R271 to R274) -/

theorem test_del : after (step { start .forward 2 0x18000005 [(3, 42#32)] with gsp := 31249 }) (fun t =>
    decide (t = withMem { start .forward 2 0x18000005 [] with gsp := 31250, pc := 3#32 } [(218750, 42#32)])) = true ∧
    after (step { withMem (start .backward 2 0x18000005 [(3, 99#32)]) [(249999, 5#32)] with gsp := 1 }) (fun t =>
      decide (t = { start .backward 2 0x18000005 [(3, 5#32)] with pc := 1#32 })) = true := by decide

theorem test_del_faults :
    stepStatus { start .forward 2 0x18000005 [(3, 42#32)] with gsp := 31250 } = some (.error .garbageOverflow) ∧
    stepStatus (start .backward 2 0x18000005 [(3, 42#32)]) = some (.error .garbageUnderflow) := by decide

/-- The state of part 8 around `MDEL r4, 2`. -/
def startMdel (d : Direction) (pc : Nat) (ws : List (Nat × Word)) (g : Nat) : State :=
  { withMem (start d 2 0x01000086 [(4, 100#32)]) ((249999, 5#32) :: ws) with pc := BitVec.ofNat 32 pc, gsp := g }

theorem test_mdel :
    after (step (startMdel .forward 2 [(102, 42#32)] 1)) (fun t =>
      decide (t = startMdel .forward 3 [(249998, 42#32)] 2)) = true ∧
    after (step (startMdel .backward 2 [(249998, 42#32)] 2)) (fun t =>
      decide (t = startMdel .backward 1 [(102, 42#32)] 1)) = true := by decide

/-- The address is checked first (R309). -/
theorem test_mdel_faults :
    stepStatus { start .forward 2 0x01000086 [(4, 0xFFFFFFFB#32)] with gsp := 31250 } =
      some (.error .addressOutOfBounds) ∧
    stepStatus { start .forward 2 0x01000086 [(4, 100#32)] with gsp := 31250 } = some (.error .garbageOverflow) ∧
    stepStatus (start .backward 2 0x01000086 [(4, 100#32)]) = some (.error .garbageUnderflow) := by decide

/-- `VDEL v2` with 32 free slots; lane 31 ends in the word `G_BASE`. -/
def startVdel : State :=
  { withV (start .forward 2 0x10000025 []) 2 (fun l => BitVec.ofNat 32 (l + 1)) with gsp := 31218 }

theorem test_vdel : after (step startVdel) (fun t =>
    decide (t.mem.read 218781 = 1#32 ∧ t.mem.read 218750 = 32#32 ∧ t.gsp = 31250 ∧ lanes t 2 = List.replicate 5 0#32) &&
      after (step { t with dir := .backward, pc := 2#32 }) (fun u =>
        decide (u = { startVdel with dir := .backward, pc := 1#32 }))) = true := by decide

theorem test_vdel_faults :
    stepStatus { startVdel with gsp := 31219 } = some (.error .garbageOverflow) ∧
    stepStatus { startVdel with dir := .backward, gsp := 31 } = some (.error .garbageUnderflow) := by decide

/-- `VMDEL r4, 2` of part 8. -/
def startVmdel (ws : List (Nat × Word)) : State :=
  withMem (start .forward 2 0x010000A6 [(4, 100#32)]) ws

theorem test_vmdel : after (step (startVmdel [(102, 1#32), (133, 32#32)])) (fun t =>
    decide (t.mem.read 102 = 0#32 ∧ t.mem.read 133 = 0#32 ∧ t.mem.read 249999 = 1#32 ∧ t.mem.read 249968 = 32#32 ∧
      t.gsp = 32) &&
      after (step { t with dir := .backward, pc := 2#32 }) (fun u =>
        decide (u = { startVmdel [(102, 1#32), (133, 32#32)] with dir := .backward, pc := 1#32 }))) = true := by decide

theorem test_vmdel_faults :
    stepStatus { startVmdel [] with x := (startVmdel []).x.set 4 0xFFFFFFFD#32 } =
      some (.error .addressOutOfBounds) ∧
    stepStatus { startVmdel [] with gsp := 31219 } = some (.error .garbageOverflow) ∧
    stepStatus { startVmdel [] with dir := .backward, gsp := 31 } = some (.error .garbageUnderflow) := by decide

/-! ### Sequencer (R281, R285) and the host's two questions -/

theorem test_fetch_bounds :
    stepStatus { State.reset with pc := 250000#32 } = some (.error .addressOutOfBounds) ∧
    stepX .backward 0x18000883 [] 3 = some (0xFFFFFFFF#32, 9#32) := by decide

theorem test_zero_fill_halts : stepStatus State.reset = some .halted := by decide

theorem test_table_word : decodeTableWord 32 0x28003883 = some (.addi 5 7) ∧ decodeTableWord 32 0x3F = none := by
  decide

/-! ### Values that meet the hypotheses of the obligations -/

theorem exists_next {o : Host.Outcome State Fault Refusal} {P : State → Prop} [DecidablePred P]
    (h : after o (fun t => decide (P t)) = true) : ∃ t, o = .next t ∧ P t := by
  obtain ⟨t, ht, hp⟩ := exists_of_after h
  exact ⟨t, ht, of_decide_eq_true hp⟩

theorem witness_ConfigurationSizes :
    Config.legal { mb := 1 } = true ∧ Config.legal { mb := 8589 } = true ∧
    Config.legal { mb := 0 } = false ∧ Config.legal { mb := 8590 } = false := by decide

theorem witness_DecodedWordReencodes : decode 0x28003883#32 = .ok (.addi 5 7) := rfl

theorem witness_IllegalWordsExactlyAsListed :
    let s := start .backward 249999 0x3F []
    s.status = .running ∧ s.pc.toNat < s.cfg.words ∧ illegalWord (s.mem.read s.pc.toNat) = true := by decide

theorem witness_MatchAndMaskSelectOneInstruction :
    (∃ r ∈ opcodeRows, 0x00000000#32 &&& r.mask = r.bits) ∧ (∃ r ∈ opcodeRows, 0xFFFFFFE8#32 &&& r.mask = r.bits) := by
  decide

theorem witness_ImmediateFlagAndValue :
    (0x17FFE817#32).extractLsb' 0 6 ∈ ([0x03, 0x23, 0x16, 0x17] : List (BitVec 6)) ∧
    (0x193FFFC8#32).extractLsb' 0 6 ∈
      ([0x04, 0x24, 0x06, 0x26, 0x08, 0x28, 0x10, 0x11, 0x12, 0x13, 0x14, 0x15] : List (BitVec 6)) ∧
    (decodeRecord 0x190000A1#32).immFlag = false := by decide

/-- The first and the last bit, for the statements bit by bit. -/
theorem witness_bit_index : 0 < 32 ∧ 31 < 32 := by decide

theorem witness_DivisionTruncatesTowardZero :
    (0#32).toInt = 0 ∧ ((0x80000000#32).toInt = -2147483648 ∧ (0xFFFFFFFF#32).toInt = -1) ∧
    ((1#32).toInt ≠ 0 ∧ ¬ ((0x80000000#32).toInt = -2147483648 ∧ (1#32).toInt = -1)) ∧
    fnDiv 0xFFFFFFF9#32 2#32 = .ok 0xFFFFFFFD#32 := ⟨by decide, by decide, by decide, rfl⟩

theorem witness_BackwardInverseMap :
    decodeFunction 0 = some .xor ∧ decodeFunction 11 = some .fdiv ∧
    ∃ t, exec (.cswap 3 4 5) State.reset = .next t := ⟨rfl, rfl, _, rfl⟩

theorem witness_PairedIntegerInverses :
    ((1#32).toInt ≠ 0 ∧ fitsWord ((0x7FFFFFFF#32).toInt * (1#32).toInt)) ∧
    ((0x80000000#32).toInt = -2147483648 ∧ (0xFFFFFFFF#32).toInt = -1) ∧
    fnDiv 42#32 7#32 = .ok 6#32 := by
  refine ⟨?_, by decide, rfl⟩
  unfold fitsWord
  decide

theorem witness_IntegersConvertToNearestBinary32 :
    (0x01000000#32).toInt.natAbs ≤ 2 ^ 24 ∧ (0xFF000000#32).toInt.natAbs ≤ 2 ^ 24 := by decide

/-- 17 as a datum. -/
def float17 : FloatVal := { neg := false, sig := 8912896, exp := -19 }

/-- `2^31` as a datum. -/
def floatTwo31 : FloatVal := { neg := false, sig := 8388608, exp := 8 }

theorem float17_fits : fitsWord (truncateQ float17.value) := by
  norm_num [float17, FloatVal.value, signedSig, truncateQ, fitsWord]

theorem floatTwo31_overflows : ¬ fitsWord (truncateQ floatTwo31.value) := by
  norm_num [floatTwo31, FloatVal.value, signedSig, truncateQ, fitsWord]

theorem witness_FloatsConvertBackByTruncation :
    fitsWord (truncateQ float17.value) ∧ ¬ fitsWord (truncateQ floatTwo31.value) ∧
    float17.isDatum ∧ f2i (.fin float17) = .ok 17#32 := by
  refine ⟨float17_fits, floatTwo31_overflows, ?_, rfl⟩
  unfold FloatVal.isDatum
  decide

/-- `1 / -2^31` has the least magnitude a quotient that is not 0 can have. -/
theorem witness_FloatOperationsRoundOnce :
    0x80000000#32 ≠ 0#32 ∧ ∃ x y : FloatVal, i2f 1#32 = .fin x ∧ i2f 0x80000000#32 = .fin y ∧
      |x.value / y.value| = (2 : ℚ) ^ (-31 : Int) := by
  refine ⟨by decide, { neg := false, sig := 8388608, exp := -23 }, { neg := true, sig := 8388608, exp := 8 }, by decide,
    by decide, ?_⟩
  norm_num [FloatVal.value, signedSig]

theorem witness_FloatPairsInvertWithinBounds :
    ((0x00FFFFFF#32).toInt.natAbs ≤ 2 ^ 24 ∧ (1#32).toInt.natAbs ≤ 2 ^ 24 ∧
      ((0x00FFFFFF#32).toInt + (1#32).toInt).natAbs ≤ 2 ^ 24) ∧
    ((0x01000000#32).toInt.natAbs ≤ 2 ^ 24 ∧ (0xFFFFFFFF#32).toInt ≠ 0 ∧
      ((0x01000000#32).toInt * (0xFFFFFFFF#32).toInt).natAbs ≤ 2 ^ 24) := by decide

theorem witness_ScalarRegisterMultiplyDivide : ∀ d : Direction,
    let s := fun a b => start d 10 0 [(3, a), (4, b)]
    (s 0 0).dir = d ∧ ¬ noQuotient ((s 0x80000000 1).getX 3) ((s 0x80000000 1).getX 4) ∧
    noQuotient ((s 5 0).getX 3) ((s 5 0).getX 4) ∧
    noQuotient ((s 0x80000000 0xFFFFFFFF).getX 3) ((s 0x80000000 0xFFFFFFFF).getX 4) := by
  unfold noQuotient
  intro d
  cases d <;> decide

theorem witness_ScalarImmediateMultiplyDivide : ∀ d : Direction,
    let s := start d 10 0 [(3, 0x80000000)]
    s.dir = d ∧ ¬ ((1 : Imm16) = 0#16 ∨ ((1 : Imm16) = 0xFFFF#16 ∧ s.getX 3 = 0x80000000#32)) ∧
    ((0 : Imm16) = 0#16 ∨ ((0 : Imm16) = 0xFFFF#16 ∧ s.getX 3 = 0x80000000#32)) ∧
    ((0xFFFF : Imm16) = 0#16 ∨ ((0xFFFF : Imm16) = 0xFFFF#16 ∧ s.getX 3 = 0x80000000#32)) := by
  intro d
  cases d <;> decide

/-- 17 stays in range and `2^31 - 1` is rounded out of it, for both operations of a pair. -/
def FloatCases (forward backward : Binary32 → Binary32 → Binary32) (y : Word) : Prop :=
  ∀ d : Direction, d.pick forward backward (i2f 17#32) (i2f y) = .fin float17 ∧
    d.pick forward backward (i2f 0x7FFFFFFF#32) (i2f y) = .fin floatTwo31

theorem floatCases : FloatCases floatAdd floatSub 0#32 ∧ FloatCases floatSub floatAdd 0#32 ∧
    FloatCases floatMul floatDiv 1#32 ∧ FloatCases floatDiv floatMul 1#32 := by
  unfold FloatCases
  refine ⟨?_, ?_, ?_, ?_⟩ <;> intro d <;> cases d <;> decide

/-- With `x3` 17 or `2^31 - 1` and `x4` 0 or 1 (the immediates 0 and 1 likewise) both clauses of `ScalarFloat` apply; with
0 the fault clauses of multiply and divide do. -/
theorem witness_ScalarFloatInstructions :
    (∀ (d : Direction) (a y : Word), a ∈ [17#32, 0x7FFFFFFF#32] → y ∈ [0#32, 1#32] →
      (start d 10 0 [(3, a), (4, y)]).dir = d ∧ (start d 10 0 [(3, a), (4, y)]).getX 3 = a ∧
      (start d 10 0 [(3, a), (4, y)]).getX 4 = y) ∧
    (0#16).signExtend 32 = 0#32 ∧ (1#16).signExtend 32 = 1#32 ∧
    FloatCases floatAdd floatSub 0#32 ∧ FloatCases floatSub floatAdd 0#32 ∧
    FloatCases floatMul floatDiv 1#32 ∧ FloatCases floatDiv floatMul 1#32 ∧
    fitsWord (truncateQ float17.value) ∧ ¬ fitsWord (truncateQ floatTwo31.value) := by
  obtain ⟨h1, h2, h3, h4⟩ := floatCases
  refine ⟨?_, by decide, by decide, h1, h2, h3, h4, float17_fits, floatTwo31_overflows⟩
  intro d a y ha hy
  simp only [List.mem_cons, List.not_mem_nil, or_false] at ha hy
  rcases ha with rfl | rfl <;> rcases hy with rfl | rfl <;> cases d <;> decide

theorem witness_VectorRegisterMultiplyDivide : ∀ d : Direction,
    let s := startV d 0
    s.dir = d ∧ (¬ ∃ l : Lane, noQuotient (s.getLane 3 l) (s.getLane 4 l)) ∧
    (∃ l : Lane, noQuotient ((s.setLane 4 17 0#32).getLane 3 l) ((s.setLane 4 17 0#32).getLane 4 l)) := by
  unfold noQuotient
  intro d
  cases d <;> decide

theorem witness_VectorImmediateMultiplyDivide : ∀ d : Direction,
    let s := (startV d 0).setLane 3 17 0x80000000#32
    s.dir = d ∧ ¬ ((1 : Imm16) = 0#16 ∨ ((1 : Imm16) = 0xFFFF#16 ∧ ∃ l : Lane, s.getLane 3 l = 0x80000000#32)) ∧
    ((0xFFFF : Imm16) = 0#16 ∨ ((0xFFFF : Imm16) = 0xFFFF#16 ∧ ∃ l : Lane, s.getLane 3 l = 0x80000000#32)) := by
  intro d
  cases d <;> decide

/-- `v3` holds 17 in every lane, or in every lane but 17, which holds `2^31 - 1`; `v4` holds 0 or 1. -/
def floatLanes (d : Direction) (a y : Word) : State :=
  withV (withV (start d 10 0 []) 3 fun l => if l = 17 then a else 17#32) 4 fun _ => y

theorem witness_VectorFloatInstructions :
    (∀ (d : Direction) (a y : Word), a ∈ [17#32, 0x7FFFFFFF#32] → y ∈ [0#32, 1#32] →
      (floatLanes d a y).dir = d ∧ ∀ l : Lane, (floatLanes d a y).getLane 4 l = y ∧
        (floatLanes d a y).getLane 3 l = if l = 17 then a else 17#32) ∧
    FloatCases floatAdd floatSub 0#32 ∧ FloatCases floatSub floatAdd 0#32 ∧
    FloatCases floatMul floatDiv 1#32 ∧ FloatCases floatDiv floatMul 1#32 ∧
    fitsWord (truncateQ float17.value) ∧ ¬ fitsWord (truncateQ floatTwo31.value) := by
  obtain ⟨h1, h2, h3, h4⟩ := floatCases
  refine ⟨?_, h1, h2, h3, h4, float17_fits, floatTwo31_overflows⟩
  intro d a y ha hy
  simp only [List.mem_cons, List.not_mem_nil, or_false] at ha hy
  rcases ha with rfl | rfl <;> rcases hy with rfl | rfl <;> cases d <;> decide

theorem witness_BranchesAccumulateTheOffset :
    let s := fun a b => start .forward 100 0 [(2, a), (3, b)]
    ∀ i : Instr, i ∈ ([.blt 2 3 5, .bltu 2 3 5, .bge 2 3 5, .bgeu 2 3 5, .beq 2 3 5, .bne 2 3 5, .bevn 2 5,
        .bodd 2 5] : List Instr) →
      (∃ p ∈ ([(0x80000000, 0x7FFFFFFF), (0x7FFFFFFF, 0x80000000), (2, 2)] : List (Word × Word)),
        branchCase i (s p.1 p.2) = some (5, true)) ∧
      (∃ p ∈ ([(0x80000000, 0x7FFFFFFF), (0x7FFFFFFF, 0x80000000), (2, 2)] : List (Word × Word)),
        branchCase i (s p.1 p.2) = some (5, false)) := by decide

theorem witness_BranchTargets : ∀ d : Direction,
    let s := fun w a => start d 100 w [(2, a)]
    (Fetches (s 0x10000155 1) (.bne 2 0 5) ∧ (s 0x10000155 1).br = 0#32 ∧
      (s 0x10000155 1).gsp ≤ (s 0x10000155 1).cfg.gSize ∧ branchCase (.bne 2 0 5) (s 0x10000155 1) = some (5, true)) ∧
    (Fetches (s 0x10000155 0) (.bne 2 0 5) ∧ branchCase (.bne 2 0 5) (s 0x10000155 0) = some (5, false)) ∧
    (Fetches (s 0x00000014 0) (.beq 0 0 0) ∧ branchCase (.beq 0 0 0) (s 0x00000014 0) = some (0, true)) := by
  unfold Fetches
  intro d
  cases d <;> decide

theorem witness_BranchTargets_outside : ∃ t, step (start .forward 100 0x00200014 []) = .next t ∧
    t.cfg.words ≤ t.pc.toNat := exists_next (by decide)

theorem witness_BranchRegisterSwap : ∀ a ∈ ([0, 5, 0xFFFFFFFF] : List Word),
    let s := start .forward 10 0x38000018 [(7, a)]
    Fetches s (.swb 7) ∧ s.br = 0#32 ∧ s.gsp ≤ s.cfg.gSize ∧ s.getX 7 = a := by
  unfold Fetches
  intro a ha
  simp only [List.mem_cons, List.not_mem_nil, or_false] at ha
  rcases ha with rfl | rfl | rfl <;> decide

theorem witness_BranchRegisterSwapAndReverse : ∀ a ∈ ([0, 6, 0xFFFFFFFE] : List Word),
    let s := start .backward 4 0x10000019 [(2, a)]
    Fetches s (.rswb 2) ∧ s.br = 0#32 ∧ s.gsp ≤ s.cfg.gSize ∧ s.getX 2 = a := by
  unfold Fetches
  intro a ha
  simp only [List.mem_cons, List.not_mem_nil, or_false] at ha
  rcases ha with rfl | rfl | rfl <;> decide

theorem witness_HaltStopsTheRun :
    decode 0#32 = .ok .halt ∧ Fetches State.reset .halt ∧ { State.reset with status := .halted }.status = .halted := by
  unfold Fetches
  decide

/-- Addresses 0 and W - 1 are in bounds, -1 and W are not. -/
theorem witness_MemoryExchange :
    let s := fun a => start .forward 3 0 [(4, a)]
    (s 0).mem.wf = true ∧ effectiveAddress 4 0 (s 0) = 0 ∧ effectiveAddress 4 0xFFFF (s 250000) = (s 0).cfg.words - 1 ∧
    effectiveAddress 4 0xFFFF (s 0) = -1 ∧ effectiveAddress 4 0 (s 250000) = (s 0).cfg.words := by decide

/-- Blocks at 0 and W - 32 are in bounds, those at -1 and W - 31 are not. -/
theorem witness_VectorMemoryExchange :
    let s := fun a => start .forward 3 0 [(4, a)]
    (s 0).mem.wf = true ∧ effectiveAddress 4 0 (s 0) = 0 ∧
    effectiveAddress 4 0xFFFF (s 249969) + 31 = (s 0).cfg.words - 1 ∧
    effectiveAddress 4 0xFFFF (s 0) = -1 ∧ effectiveAddress 4 0 (s 249969) + 31 = (s 0).cfg.words := by decide

/-- The last free slot, a full stack, one value held, none held. -/
theorem witness_DeleteRegister :
    let s := fun d g => { start d 2 0 [(3, 42#32)] with gsp := g }
    ((s .forward 31249).mem.wf = true ∧ (s .forward 31249).dir = .forward ∧
      (s .forward 31249).gsp < (s .forward 31249).cfg.gSize) ∧
    (s .forward 31250).cfg.gSize ≤ (s .forward 31250).gsp ∧
    ((s .backward 1).mem.wf = true ∧ (s .backward 1).dir = .backward ∧ 0 < (s .backward 1).gsp) ∧
    (s .backward 0).gsp = 0 := by decide

/-- The same four, with the addresses -1, W, 0 and W - 1. -/
theorem witness_DeleteMemory :
    let s := fun d g a => { start d 2 0 [(4, a)] with gsp := g }
    (effectiveAddress 4 0xFFFF (s .forward 31250 0) < 0 ∧
      ((s .forward 0 250000).cfg.words : Int) ≤ effectiveAddress 4 0 (s .forward 0 250000)) ∧
    (0 ≤ effectiveAddress 4 0 (s .forward 31250 0) ∧ (s .forward 31250 0).cfg.gSize ≤ (s .forward 31250 0).gsp) ∧
    (effectiveAddress 4 0 (s .backward 0 249999) < (s .backward 0 249999).cfg.words ∧ (s .backward 0 249999).gsp = 0) ∧
    ((s .forward 31249 249999).mem.wf = true ∧ 0 ≤ effectiveAddress 4 0 (s .forward 31249 249999) ∧
      effectiveAddress 4 0 (s .forward 31249 249999) < (s .forward 31249 249999).cfg.words ∧
      (s .forward 31249 249999).gsp < (s .forward 31249 249999).cfg.gSize) ∧
    ((s .backward 1 0).mem.wf = true ∧ 0 ≤ effectiveAddress 4 0 (s .backward 1 0) ∧
      effectiveAddress 4 0 (s .backward 1 0) < (s .backward 1 0).cfg.words ∧ 0 < (s .backward 1 0).gsp) := by decide

/-- 32 free slots, 31 free slots, 32 values held, 31 held. -/
theorem witness_DeleteVector :
    let s := fun d g => { start d 2 0 [] with gsp := g }
    ((s .forward 31218).mem.wf = true ∧ (s .forward 31218).dir = .forward ∧
      (s .forward 31218).gsp + 32 ≤ (s .forward 31218).cfg.gSize) ∧
    ((s .forward 31219).gsp ≤ (s .forward 31219).cfg.gSize ∧
      (s .forward 31219).cfg.gSize < (s .forward 31219).gsp + 32) ∧
    ((s .backward 32).mem.wf = true ∧ (s .backward 32).dir = .backward ∧
      (s .backward 32).gsp ≤ (s .backward 32).cfg.gSize ∧ 32 ≤ (s .backward 32).gsp) ∧
    ((s .backward 31).gsp ≤ (s .backward 31).cfg.gSize ∧ (s .backward 31).gsp < 32) := by decide

/-- The same four, with the blocks at -1, W - 31, 0 and W - 32. -/
theorem witness_DeleteVectorMemory :
    let s := fun d g a => { start d 2 0 [(4, a)] with gsp := g }
    (effectiveAddress 4 0xFFFF (s .forward 31250 0) < 0 ∧
      ((s .forward 0 249969).cfg.words : Int) ≤ effectiveAddress 4 0 (s .forward 0 249969) + 31) ∧
    (0 ≤ effectiveAddress 4 0 (s .forward 31219 0) ∧ (s .forward 31219 0).cfg.gSize < (s .forward 31219 0).gsp + 32) ∧
    (effectiveAddress 4 0 (s .backward 31 249968) + 31 < (s .backward 31 249968).cfg.words ∧
      (s .backward 31 249968).gsp < 32) ∧
    ((s .forward 31218 249968).mem.wf = true ∧ 0 ≤ effectiveAddress 4 0 (s .forward 31218 249968) ∧
      effectiveAddress 4 0 (s .forward 31218 249968) + 31 < (s .forward 31218 249968).cfg.words ∧
      (s .forward 31218 249968).gsp + 32 ≤ (s .forward 31218 249968).cfg.gSize) ∧
    ((s .backward 32 0).mem.wf = true ∧ 0 ≤ effectiveAddress 4 0 (s .backward 32 0) ∧
      effectiveAddress 4 0 (s .backward 32 0) + 31 < (s .backward 32 0).cfg.words ∧
      32 ≤ (s .backward 32 0).gsp ∧ (s .backward 32 0).gsp ≤ (s .backward 32 0).cfg.gSize) := by decide

theorem witness_EffectiveAddress :
    let s := start .forward 3 0 [(4, 249999)]
    s.cfg.legal = true ∧ 0 ≤ effectiveAddress 4 0 s ∧ effectiveAddress 4 0 s < s.cfg.words := by decide

theorem witness_MemoryPrimitivesCheckBounds :
    State.reset.mem.wf = true ∧ State.reset.mem.within State.reset.cfg.words = true ∧
    (-1 : Int) < 0 ∧ (State.reset.cfg.words : Int) ≤ 250000 ∧ (249999 : Int) < State.reset.cfg.words := by decide

theorem witness_GarbagePushAndPop :
    let s := fun g => { State.reset with gsp := g }
    (s 0).mem.wf = true ∧ (s 31250).cfg.gSize ≤ (s 31250).gsp ∧ (s 31249).gsp < (s 31249).cfg.gSize ∧ (s 0).gsp = 0 ∧
    0 < (s 1).gsp := by decide

theorem witness_GarbageStackIsLastInFirstOut :
    let s := State.reset
    let ops := [.push 9#32, .push 42#32, .pop, .pop]
    s.mem.wf = true ∧ roomForPushes s.cfg.gSize ops s.gsp = true ∧ listRun ops s.held = some ([42#32, 9#32], []) ∧
      ∃ t, stackRun ops s = .ok ([42#32, 9#32], t) := ⟨by decide, by decide, by decide, _, rfl⟩

/-- On a full stack a pop makes room for a push, and a push alone has none. -/
theorem witness_GarbageStackIsLastInFirstOut_full :
    let s := { State.reset with gsp := 31250 }
    s.mem.wf = true ∧ s.gsp ≤ s.cfg.gSize ∧ roomForPushes s.cfg.gSize [.pop, .push 9#32] s.gsp = true ∧
      roomForPushes s.cfg.gSize [.push 9#32] s.gsp = false ∧
      ∃ ws t, stackRun [.pop, .push 9#32] s = .ok (ws, t) := ⟨by decide, by decide, by decide, by decide, _, _, rfl⟩

theorem witness_StepRunsTheDecodedInstruction_fetch :
    let s := fun pc w => start .forward pc w []
    (s 250000 0).status = .running ∧ (s 250000 0).cfg.words ≤ (s 250000 0).pc.toNat ∧
    (s 249999 0x3F).pc.toNat < (s 249999 0x3F).cfg.words ∧
    decode ((s 249999 0x3F).mem.read (s 249999 0x3F).pc.toNat) = .error .unassignedOpcode :=
  ⟨by decide, by decide, by decide, rfl⟩

theorem witness_StepRunsTheDecodedInstruction_ended :
    Fetches (start .forward 7 0 []) .halt ∧ ∃ t, exec .halt (start .forward 7 0 []) = .next t ∧ t.status ≠ .running :=
  ⟨by unfold Fetches; decide, exists_next (by decide)⟩

/-- By the branch register, by one word, and with the check of R285 failing. -/
theorem witness_StepRunsTheDecodedInstruction_goes_on :
    (Fetches (start .forward 100 0x00000154 []) (.beq 0 0 5) ∧
      ∃ t, exec (.beq 0 0 5) (start .forward 100 0x00000154 []) = .next t ∧ t.status = .running ∧ t.br ≠ 0#32) ∧
    (Fetches (start .backward 100 0x28003883 []) (.addi 5 7) ∧
      ∃ t, exec (.addi 5 7) (start .backward 100 0x28003883 []) = .next t ∧ t.status = .running ∧ t.br = 0#32) ∧
    (Fetches { start .forward 100 0x28003883 [] with gsp := 31251 } (.addi 5 7) ∧
      ∃ t, exec (.addi 5 7) { start .forward 100 0x28003883 [] with gsp := 31251 } = .next t ∧
        t.status = .running ∧ t.cfg.gSize < t.gsp) := by
  unfold Fetches
  exact ⟨⟨by decide, exists_next (by decide)⟩, ⟨by decide, exists_next (by decide)⟩, by decide,
    exists_next (by decide)⟩

theorem witness_EveryRunningStepAnswers :
    State.reset.status = .running ∧ { State.reset with status := .halted }.status = .halted ∧
    { State.reset with status := .error .arithmeticFault }.status = .error .arithmeticFault := by decide

theorem witness_ErrorsArePrecise : ∀ w ∈ [0, 0x19000141], ∃ t,
    step (start .forward 10 w [(3, 100#32)]) = .next t ∧ t.status ≠ .running ∧
    (start .forward 10 w [(3, 100#32)]).status = .running ∧
    (start .forward 10 w [(3, 100#32)]).gsp ≤ (start .forward 10 w [(3, 100#32)]).cfg.gSize := by
  intro w hw
  simp only [List.mem_cons, List.not_mem_nil, or_false] at hw
  rcases hw with rfl | rfl <;> exact exists_next (by decide)

theorem witness_ErrorKindsAndWhoRaisesThem_init :
    ∃ t, init (List.replicate 218751 0#32) 1 = .next t ∧ t.status = .error .programTooLarge := by
  have h : Config.gBase { mb := 1 } < (List.replicate 218751 0#32).length := by
    rw [List.length_replicate]
    decide
  exact ⟨_, init_tooLarge rfl h, rfl⟩

theorem witness_ErrorKindsAndWhoRaisesThem_exec :
    ∃ t, exec (.del 3) { State.reset with gsp := 31250 } = .next t ∧ t.status = .error .garbageOverflow ∧
      State.reset.status = .running := exists_next (by decide)

theorem witness_ErrorKindsAndWhoRaisesThem_step : ∃ t, step (start .forward 10 0x19000141 []) = .next t ∧
    t.status = .error .arithmeticFault ∧ (start .forward 10 0x19000141 []).status = .running ∧
    (start .forward 10 0x19000141 []).gsp ≤ (start .forward 10 0x19000141 []).cfg.gSize := exists_next (by decide)

theorem witness_InvariantKeptByStep :
    (start .forward 10 0x28003883 []).Inv ∧ ∃ t, step (start .forward 10 0x28003883 []) = .next t := by
  refine ⟨?_, _, rfl⟩
  unfold State.Inv
  decide

theorem witness_InitLoadsTheProgramOrFails :
    Config.legal { mb := 1 } = true ∧ Config.legal { mb := 8589 } = true ∧
    (List.replicate 218750 0#32).length ≤ 218750 * 1 ∧ 218750 * 1 < (List.replicate 218751 0#32).length := by
  rw [List.length_replicate, List.length_replicate]
  decide

theorem witness_OnlyTheListedInstructionsWrite :
    let s := start .forward 10 0 [(3, 5#32), (4, 100#32)]
    (∃ t, exec (.add 3 4) s = .next t ∧ t.x ≠ s.x) ∧
    (∃ t, exec (.vaddi 3 1) s = .next t ∧ t.v ≠ s.v) ∧
    (∃ t, exec (.mexch 3 4 0) s = .next t ∧ t.mem ≠ s.mem) ∧
    (∃ t, exec (.del 3) s = .next t ∧ t.gsp ≠ s.gsp) ∧
    (∃ t, exec (.swb 3) s = .next t ∧ t.br ≠ s.br) ∧
    (∃ t, exec (.rswb 3) s = .next t ∧ t.dir ≠ s.dir) ∧
    (∃ t, exec .halt s = .next t ∧ t.status ≠ s.status) :=
  ⟨exists_next (by decide), exists_next (by decide), exists_next (by decide), exists_next (by decide),
    exists_next (by decide), exists_next (by decide), exists_next (by decide)⟩

theorem witness_InstructionsDependOnlyOnWhatTheyRead :
    ((Instr.vadd 3 4).opcode.usesX = false ∧ ∃ t, exec (.vadd 3 4) State.reset = .next t) ∧
    ((Instr.add 3 4).opcode.usesV = false ∧ (Instr.add 3 4).opcode.usesMem = false ∧
      (Instr.add 3 4).opcode.usesGsp = false ∧ ∃ t, exec (.add 3 4) State.reset = .next t) :=
  ⟨⟨rfl, _, rfl⟩, rfl, rfl, rfl, _, rfl⟩

theorem witness_ReversibleInstructionsUndo :
    (∃ t, exec (.mexch 3 4 0) State.reset = .next t ∧ t.status = .running ∧ selfInverse (.mexch 3 4 0) = true ∧
      State.reset.mem.wf = true ∧ State.reset.status = .running) ∧
    (∃ t, exec (.addi 5 7) State.reset = .next t ∧ pairInverse (.addi 5 7) = true) :=
  ⟨exists_next (by decide), exists_next (by decide)⟩

/-- `VMDEL r4, 2` with the block 102 to 133 and the 32 oldest slots. -/
theorem witness_DeletesRoundTrip :
    let s := startVmdel [(102, 1#32), (133, 32#32)]
    (Instr.vmdel 4 2).opcode.usesGsp = true ∧ s.mem.wf = true ∧ s.dir = .forward ∧ s.status = .running ∧
    sourceAvoidsSlots (.vmdel 4 2) s ∧
    (∀ k < deleteSize (.vmdel 4 2), s.mem.read (slotIndex s.cfg (s.gsp + k)) = 0#32) ∧
    ∃ t, exec (.vmdel 4 2) s = .next t ∧ t.status = .running := by
  refine ⟨rfl, by decide, rfl, rfl, ?_, by decide, exists_next (by decide)⟩
  intro j hj k hk
  have hea : effectiveAddress 4 2 (startVmdel [(102, 1#32), (133, 32#32)]) = 102 := by decide
  have hs : slotIndex (startVmdel [(102, 1#32), (133, 32#32)]).cfg
      ((startVmdel [(102, 1#32), (133, 32#32)]).gsp + k) = 250000 - 1 - (0 + k) := rfl
  omega

theorem witness_ProgramCounterNeverWrapsBack :
    Config.legal { mb := 8589 } = true ∧ (0x7FFC6F4F#32).toNat < Config.words { mb := 8589 } ∧
    (0x7FFC6F4F#32).toNat + 1 = Config.words { mb := 8589 } ∧
    (0 ≤ ((0x7FFC6F4F#32).toNat : Int) + (0#32).toInt ∧
      ((0x7FFC6F4F#32).toNat : Int) + (0#32).toInt < Config.words { mb := 8589 }) ∧
    (start .forward 250000 0 []).cfg.words ≤ (start .forward 250000 0 []).pc.toNat ∧
    (start .forward 249999 0 []).pc.toNat < (start .forward 249999 0 []).cfg.words := by decide

theorem witness_EndedRunStays :
    (∃ t, runFor 1 State.reset = .next t ∧ t.status ≠ .running) ∧ State.reset.status = .running :=
  ⟨exists_next (by decide), rfl⟩

end Sys2Proof.Tests
end

/-! SUPPORT. The sizes of a configuration and the range of `MB` (`00_scope.md`): each size against the next
larger one by a multiplication, from which the exact quotients of R6 are read off. -/

namespace Sys2Proof

theorem Config.legal_iff (c : Config) : c.legal = true ↔ 1 ≤ c.mb ∧ c.mb ≤ 8589 := by
  rw [Config.legal, Bool.and_eq_true, decide_eq_true_iff, decide_eq_true_iff]

/-- The upper bound of R7 is where `W` leaves the positive 32-bit two's complement integers. -/
theorem Config.words_le_iff (c : Config) : c.words ≤ 2 ^ 31 - 1 ↔ c.mb ≤ 8589 := by
  rw [Config.words]
  omega

theorem Config.words_mul_four (c : Config) : c.words * 4 = c.mb * 1000000 := by
  rw [Config.words]
  omega

theorem Config.gSize_mul_eight (c : Config) : c.gSize * 8 = c.words := by
  rw [Config.gSize, Config.words]
  omega

theorem Config.gBase_add_gSize (c : Config) : c.gBase + c.gSize = c.words := by
  rw [Config.gBase, Config.gSize, Config.words]
  omega

theorem Config.gBase_eq_seven_mul_gSize (c : Config) : c.gBase = 7 * c.gSize := by
  rw [Config.gBase, Config.gSize]
  omega

/-- Settles O1: the range of `MB` twice, then each quotient of R6 from the product it undoes. -/
theorem configurationSizes : Obligations.ConfigurationSizes := by
  intro c
  have hwords := c.words_mul_four
  have hsize := c.gSize_mul_eight
  have hsum := c.gBase_add_gSize
  have hseven := c.gBase_eq_seven_mul_gSize
  refine ⟨c.legal_iff, ?range, ?words, hwords, ?size, hsize, ?base, ?seven⟩
  case range => rw [c.words_le_iff, c.legal_iff]
  case words => omega
  case size => omega
  case base => omega
  case seven => omega

end Sys2Proof

/-! SUPPORT. Program-counter arithmetic (`10_state.md` R28): what `wrap32` makes of a sum inside and below the range
of a word, why no sum outside memory wraps back into it, and what a step does when `pc` lies outside. -/

namespace Sys2Proof

theorem Config.words_lt_of_legal {c : Config} (h : c.legal = true) : c.words < 2 ^ 31 := by
  have := c.words_le_iff.mpr (c.legal_iff.mp h).2
  omega

theorem wrap32_toNat_of_nonneg {n : Int} (h0 : 0 ≤ n) (hn : n < 2 ^ 32) : ((wrap32 n).toNat : Int) = n := by
  rw [BitVec.toNat_ofInt]
  omega

theorem wrap32_toNat_of_neg {n : Int} (h0 : n < 0) (hn : -2 ^ 32 ≤ n) :
    ((wrap32 n).toNat : Int) = n + 2 ^ 32 := by
  rw [BitVec.toNat_ofInt]
  omega

/-- A negative sum wraps into the upper half of the words, above every legal memory; any other is kept. -/
theorem wrap32_toNat_lt_iff {n : Int} {w : Nat} (hw : w ≤ 2 ^ 31) (hlo : -2 ^ 31 ≤ n) (hhi : n < 2 ^ 32) :
    (wrap32 n).toNat < w ↔ 0 ≤ n ∧ n < w := by
  rcases lt_or_ge n 0 with hneg | hnonneg
  · have hwrap := wrap32_toNat_of_neg hneg (by omega)
    omega
  · have hwrap := wrap32_toNat_of_nonneg hnonneg hhi
    omega

/-- The range R28 gives for the sum of an index into memory and a signed delta. -/
theorem index_add_toInt_bounds {p w : Nat} (hp : p < w) (hw : w ≤ 2 ^ 31) (d : Word) :
    -2 ^ 31 ≤ (p : Int) + d.toInt ∧ (p : Int) + d.toInt < 2 ^ 32 := by
  have hlo : -2 ^ 31 ≤ d.toInt := d.le_toInt
  have hhi : d.toInt < 2 ^ 31 := d.toInt_lt
  omega

namespace Machine

theorem step_of_fetchInstr_error {s : State} {k : ErrorKind} (hs : s.status = .running)
    (hf : fetchInstr s = .error k) : step s = raise k s := by
  simp only [step, hs, hf]

theorem step_of_pc_outside {s : State} (hs : s.status = .running) (hpc : s.cfg.words ≤ s.pc.toNat) :
    step s = .next { s with status := .error .addressOutOfBounds } :=
  step_of_fetchInstr_error hs (fetchInstr_outside (Nat.not_lt.mpr hpc))

theorem fetch_of_pc_inside {s : State} (hpc : s.pc.toNat < s.cfg.words) :
    fetch s = .ok (s.mem.read s.pc.toNat) := by
  rw [fetch_eq, if_pos hpc]

end Machine

open Machine in
/-- Settles O58: the sum of a valid `pc` and a delta lies between `-2 ^ 31` and `2 ^ 32`, where `wrap32` enters memory
only from inside it; the two clauses about the next fetch are read off the sequencer. -/
theorem programCounterNeverWrapsBack : Obligations.ProgramCounterNeverWrapsBack := by
  refine ⟨fun c pc d hlegal hpc => ?sum, fun s => step_of_pc_outside, fun s => fetch_of_pc_inside⟩
  case sum =>
    have hwords := (Config.words_lt_of_legal hlegal).le
    obtain ⟨hlo, hhi⟩ := index_add_toInt_bounds hpc hwords d
    exact ⟨wrap32_toNat_lt_iff hwords hlo hhi, fun hnonneg _ => wrap32_toNat_of_nonneg hnonneg hhi⟩

end Sys2Proof

/-! SUPPORT. The effective address (`20_memory.md` R51): what a 32-bit sum reads as when it leaves the signed range,
and why such a sum stays outside every legal memory. -/

namespace Sys2Proof

/-- The wrapped sum of two words is the sum itself, or the sum one turn of `2 ^ 32` down or up. -/
theorem toInt_add_cases (x y : Word) :
    (-2 ^ 31 ≤ x.toInt + y.toInt ∧ x.toInt + y.toInt < 2 ^ 31 ∧ (x + y).toInt = x.toInt + y.toInt) ∨
    (2 ^ 31 ≤ x.toInt + y.toInt ∧ (x + y).toInt = x.toInt + y.toInt - 2 ^ 32) ∨
    (x.toInt + y.toInt < -2 ^ 31 ∧ (x + y).toInt = x.toInt + y.toInt + 2 ^ 32) := by
  have hx := x.le_toInt
  have hx' := x.toInt_lt
  have hy := y.le_toInt
  have hy' := y.toInt_lt
  rw [BitVec.toInt_add, Int.bmod_def]
  omega

theorem sext32_toInt (imm : Imm16) : (sext32 imm).toInt = imm.toInt :=
  BitVec.toInt_signExtend_of_le (by omega)

namespace Machine

theorem effectiveAddress_eq (rs : XReg) (off : Imm16) (s : State) :
    effectiveAddress rs off s = (s.getX rs).toInt + off.toInt := by
  rw [effectiveAddress, sext32_toInt]

/-- The range R51 gives. -/
theorem effectiveAddress_bounds (rs : XReg) (off : Imm16) (s : State) :
    -2 ^ 31 - 2 ^ 15 ≤ effectiveAddress rs off s ∧ effectiveAddress rs off s ≤ 2 ^ 31 - 1 + 2 ^ 15 - 1 := by
  have hx := (s.getX rs).le_toInt
  have hx' := (s.getX rs).toInt_lt
  have hoff := off.le_toInt
  have hoff' := off.toInt_lt
  rw [effectiveAddress_eq]
  omega

/-- Either nothing wraps, or both the address and its wrapped form lie outside memory: a legal memory ends more than
`2 ^ 15` words below `2 ^ 31`, so a sum that falls under `-2 ^ 31` wraps past its end. -/
theorem effectiveAddress_wrap_cases {s : State} (h : s.cfg.legal = true) (rs : XReg) (off : Imm16) :
    (s.getX rs + sext32 off).toInt = effectiveAddress rs off s ∨
    ((s.cfg.words : Int) ≤ effectiveAddress rs off s ∧ (s.getX rs + sext32 off).toInt < 0) ∨
    (effectiveAddress rs off s < 0 ∧ (s.cfg.words : Int) ≤ (s.getX rs + sext32 off).toInt) := by
  have hwords : s.cfg.words ≤ 2 ^ 31 - 2 ^ 15 := by
    have hmb := (s.cfg.legal_iff.mp h).2
    rw [Config.words]
    omega
  obtain ⟨hlo, hhi⟩ := effectiveAddress_bounds rs off s
  have hsum := toInt_add_cases (s.getX rs) (sext32 off)
  rw [← effectiveAddress] at hsum
  rcases hsum with ⟨-, -, heq⟩ | ⟨hover, heq⟩ | ⟨hunder, heq⟩
  · exact .inl heq
  · exact .inr (.inl (by omega))
  · exact .inr (.inr (by omega))

end Machine

/-! The statement's name is also the function's: its proof stands in a namespace that no other text opens. -/
namespace Certificates

open Machine in
/-- Settles O43: a sum that wraps is outside memory before and after, so the two readings agree on being inside. -/
theorem effectiveAddress : Obligations.EffectiveAddress := by
  intro rs off s
  refine ⟨rfl, sext32_toInt off, effectiveAddress_bounds rs off s, fun hlegal => ?wrap⟩
  case wrap =>
    have hcases := effectiveAddress_wrap_cases hlegal rs off
    rw [sext32] at hcases
    constructor <;> omega

end Certificates

end Sys2Proof

/-! SUPPORT. The two memory primitives inside and outside memory (`20_memory.md` R52). -/

namespace Sys2Proof.Machine

theorem memRead_outside {a : Int} {s : State} (h : a < 0 ∨ (s.cfg.words : Int) ≤ a) :
    memRead a s = .error .addressOutOfBounds := by
  rw [memRead_eq, if_neg (by omega)]

theorem memWrite_outside {a : Int} {s : State} (h : a < 0 ∨ (s.cfg.words : Int) ≤ a) (w : Word) :
    memWrite a w s = .error .addressOutOfBounds := by
  rw [memWrite_eq, if_neg (by omega)]

theorem memRead_inside {a : Int} {s : State} (h0 : 0 ≤ a) (h : a < s.cfg.words) :
    memRead a s = .ok (s.mem.read a.toNat) := by
  rw [memRead_eq, if_pos ⟨h0, h⟩]

theorem memWrite_inside {a : Int} {s : State} (h0 : 0 ≤ a) (h : a < s.cfg.words) (w : Word) :
    memWrite a w s = .ok { s with mem := s.mem.write a.toNat w } := by
  rw [memWrite_eq, if_pos ⟨h0, h⟩]

/-- Settles O44: each primitive outside and inside memory, the new memory being the write at the addressed index. -/
theorem memoryPrimitivesCheckBounds : Obligations.MemoryPrimitivesCheckBounds := by
  intro a s hwf
  refine ⟨fun hout => ⟨memRead_outside hout, memWrite_outside hout⟩,
    fun h0 hin => ⟨memRead_inside h0 hin, fun w => ?write⟩⟩
  case write =>
    have haddr : a.toNat < s.cfg.words := by omega
    exact ⟨s.mem.write a.toNat w, memWrite_inside h0 hin w, Memory.write_wf hwf _ _,
      fun hwithin => Memory.write_within hwithin haddr, fun b => Memory.read_write hwf _ b w⟩

end Sys2Proof.Machine

/-! SUPPORT. The garbage stack (`20_memory.md` R56 to R60): the state after each call, the values it holds as a list, and
the refinement of call sequences to `listRun`. -/

namespace Sys2Proof.Machine

/-! ### One call -/

/-- The state after a push that succeeds (R58). -/
def State.afterPush (s : State) (w : Word) : State :=
  { s with mem := s.mem.write (slotIndex s.cfg s.gsp) w, gsp := s.gsp + 1 }

/-- The value a pop that succeeds returns: the newest held (R59). -/
def State.newest (s : State) : Word := s.mem.read (slotIndex s.cfg (s.gsp - 1))

/-- The state after a pop that succeeds (R59). -/
def State.afterPop (s : State) : State :=
  { s with mem := s.mem.write (slotIndex s.cfg (s.gsp - 1)) 0#32, gsp := s.gsp - 1 }

theorem pushGarbage_full {s : State} (h : s.cfg.gSize ≤ s.gsp) (w : Word) :
    pushGarbage w s = .error .garbageOverflow := by
  rw [pushGarbage_eq, if_neg (Nat.not_lt.mpr h)]

theorem pushGarbage_room {s : State} (h : s.gsp < s.cfg.gSize) (w : Word) :
    pushGarbage w s = .ok (s.afterPush w) := by
  rw [pushGarbage_eq, if_pos h, State.afterPush]

theorem popGarbage_empty {s : State} (h : s.gsp = 0) : popGarbage s = .error .garbageUnderflow := by
  rw [popGarbage_eq, if_neg (by omega)]

theorem popGarbage_nonempty {s : State} (h : 0 < s.gsp) : popGarbage s = .ok (s.newest, s.afterPop) := by
  rw [popGarbage_eq, if_pos h, State.newest, State.afterPop]

/-- Settles O45: each call in its two cases, the new memory being the write at the slot. -/
theorem garbagePushAndPop : Obligations.GarbagePushAndPop := by
  intro s hwf
  refine ⟨fun w hfull => pushGarbage_full hfull w, fun w hroom => ⟨slotIndex_bounds hroom, ?push⟩,
    popGarbage_empty, fun hheld => ?pop⟩
  case push =>
    exact ⟨_, pushGarbage_room hroom w, Memory.write_wf hwf _ _, fun a => Memory.read_write hwf _ a w⟩
  case pop =>
    exact ⟨_, popGarbage_nonempty hheld, Memory.write_wf hwf _ _, fun a => Memory.read_write hwf _ a 0#32⟩

/-! ### The values held -/

/-- The states O46 speaks of: canonical memory, and the values held within capacity (R57). -/
structure State.StackWf (s : State) : Prop where
  canonical : s.mem.wf = true
  capacity : s.gsp ≤ s.cfg.gSize

theorem State.StackWf.afterPush {s : State} (h : s.StackWf) (hroom : s.gsp < s.cfg.gSize) (w : Word) :
    (s.afterPush w).StackWf :=
  ⟨Memory.write_wf h.canonical _ _, hroom⟩

theorem State.StackWf.afterPop {s : State} (h : s.StackWf) : s.afterPop.StackWf :=
  ⟨Memory.write_wf h.canonical _ _, (Nat.sub_le _ _).trans h.capacity⟩

theorem State.held_of_empty {s : State} (h : s.gsp = 0) : s.held = [] := by
  simp [State.held, h]

/-- The newest value is in the slot under the pointer, the others are held below it. -/
theorem State.held_of_gsp_succ {s : State} {n : Nat} (h : s.gsp = n + 1) :
    s.held = s.mem.read (slotIndex s.cfg n) :: State.held { s with gsp := n } := by
  simp [State.held, h, List.range_succ]

/-- A write at the slot above the `n` oldest values leaves those values as they are. -/
theorem State.held_write_above {s : State} {n : Nat} (hwf : s.mem.wf = true) (hn : n < s.cfg.gSize) (w : Word) :
    State.held { s with mem := s.mem.write (slotIndex s.cfg n) w, gsp := n } = State.held { s with gsp := n } := by
  simp only [State.held]
  congr 1
  refine List.map_congr_left fun k hk => ?_
  have hkn : k < n := List.mem_range.mp hk
  refine Memory.read_write_other hwf w fun heq => ?_
  exact hkn.ne (slotIndex_inj (hkn.trans hn) hn heq)

theorem State.held_afterPush {s : State} (h : s.StackWf) (hroom : s.gsp < s.cfg.gSize) (w : Word) :
    (s.afterPush w).held = w :: s.held := by
  rw [State.held_of_gsp_succ (n := s.gsp) rfl]
  congr 1
  · exact Memory.read_write_same h.canonical _ w
  · exact State.held_write_above h.canonical hroom w

theorem State.held_eq_newest_cons {s : State} (h : s.StackWf) (hheld : 0 < s.gsp) :
    s.held = s.newest :: s.afterPop.held := by
  have hlt : s.gsp - 1 < s.cfg.gSize := by
    have := h.capacity
    omega
  rw [State.held_of_gsp_succ (n := s.gsp - 1) (by omega), State.newest, State.afterPop,
    State.held_write_above h.canonical hlt]

/-! ### Sequences of calls -/

/-- What a sequence of calls shows: the values popped and the values held at the end, `none` on an error. -/
def stackResult (ops : List StackOp) (s : State) : Option (List Word × List Word) :=
  (stackRun ops s).toOption.map fun r => (r.1, r.2.held)

theorem stackResult_eq_some_iff {ops : List StackOp} {s : State} {r : List Word × List Word} :
    stackResult ops s = some r ↔ ∃ ws t, stackRun ops s = .ok (ws, t) ∧ r = (ws, t.held) := by
  unfold stackResult
  cases stackRun ops s with
  | error k => simp [Except.toOption]
  | ok p => simp [Except.toOption, Prod.ext_iff, eq_comm]

theorem stackResult_push_full {s : State} (h : s.cfg.gSize ≤ s.gsp) (w : Word) (ops : List StackOp) :
    stackResult (.push w :: ops) s = none := by
  rw [stackResult, stackRun, pushGarbage_full h]
  rfl

theorem stackResult_push_room {s : State} (h : s.gsp < s.cfg.gSize) (w : Word) (ops : List StackOp) :
    stackResult (.push w :: ops) s = stackResult ops (s.afterPush w) := by
  rw [stackResult, stackRun, pushGarbage_room h]
  rfl

theorem stackResult_pop_empty {s : State} (h : s.gsp = 0) (ops : List StackOp) :
    stackResult (.pop :: ops) s = none := by
  rw [stackResult, stackRun, popGarbage_empty h]
  rfl

theorem stackResult_pop_nonempty {s : State} (h : 0 < s.gsp) (ops : List StackOp) :
    stackResult (.pop :: ops) s = (stackResult ops s.afterPop).map fun r => (s.newest :: r.1, r.2) := by
  rw [stackResult, stackResult, stackRun, popGarbage_nonempty h]
  dsimp only [bind, Except.bind]
  cases stackRun ops s.afterPop <;> rfl

theorem roomForPushes_push_room {cap n : Nat} (h : n < cap) (w : Word) (ops : List StackOp) :
    roomForPushes cap (.push w :: ops) n = roomForPushes cap ops (n + 1) := by
  simp [roomForPushes, h]

theorem roomForPushes_push_full {cap n : Nat} (h : cap ≤ n) (w : Word) (ops : List StackOp) :
    roomForPushes cap (.push w :: ops) n = false := by
  simp [roomForPushes, h]

theorem listRun_pop_cons (w : Word) (st : List Word) (ops : List StackOp) :
    listRun (.pop :: ops) (w :: st) = (listRun ops st).map fun r => (w :: r.1, r.2) := by
  rw [listRun]
  cases listRun ops st <;> rfl

/-- The refinement of R60, with the errors: the calls show what the list run gives, and fail exactly when the list run
underflows or a push meets a full stack. -/
theorem stackResult_eq_listRun (ops : List StackOp) {s : State} (h : s.StackWf) :
    stackResult ops s = if roomForPushes s.cfg.gSize ops s.gsp then listRun ops s.held else none := by
  induction ops generalizing s with
  | nil => rfl
  | cons op ops ih =>
    cases op with
    | push w =>
      rcases Nat.lt_or_ge s.gsp s.cfg.gSize with hroom | hfull
      · rw [stackResult_push_room hroom, ih (h.afterPush hroom w), State.held_afterPush h hroom,
          roomForPushes_push_room hroom]
        rfl
      · rw [stackResult_push_full hfull, roomForPushes_push_full hfull]
        rfl
    | pop =>
      rcases Nat.eq_zero_or_pos s.gsp with hempty | hheld
      · rw [stackResult_pop_empty hempty, State.held_of_empty hempty, listRun, ite_self]
      · rw [stackResult_pop_nonempty hheld, ih h.afterPop, State.held_eq_newest_cons h hheld, listRun_pop_cons,
          apply_ite (Option.map _)]
        rfl

/-- Settles O46: both clauses are read off the refinement equation. -/
theorem garbageStackIsLastInFirstOut : Obligations.GarbageStackIsLastInFirstOut := by
  intro ops s hwf hcap
  have hrefines := stackResult_eq_listRun ops ⟨hwf, hcap⟩
  constructor
  · intro ws t hrun
    rw [stackResult_eq_some_iff.mpr ⟨ws, t, hrun, rfl⟩] at hrefines
    split at hrefines
    · exact hrefines.symm
    · contradiction
  · intro r hlist hroom
    rw [if_pos hroom, hlist] at hrefines
    exact stackResult_eq_some_iff.mp hrefines

end Sys2Proof.Machine

/-! SUPPORT. The decoder against the list of illegal words (`30_encoding.md` R93): the bit fields both read, when each
stage of the decoder refuses, and, opcode by opcode, the fields that make a word illegal. -/

namespace Sys2Proof

/-! ### The bit ranges of R93 are the decoder's fields -/

theorem bitField_eq_toNat (w : Word) (hi lo : Nat) : bitField w hi lo = (w.extractLsb' lo (hi - lo + 1)).toNat :=
  (BitVec.extractLsb'_toNat ..).symm

@[simp] theorem bitField_opcode (w : Word) : bitField w 5 0 = (fieldOpcode w).toNat := bitField_eq_toNat w 5 0
@[simp] theorem bitField_fieldA (w : Word) : bitField w 31 27 = (fieldA w).toNat := bitField_eq_toNat w 31 27
@[simp] theorem bitField_fieldB (w : Word) : bitField w 26 22 = (fieldB w).toNat := bitField_eq_toNat w 26 22
@[simp] theorem bitField_fieldF16 (w : Word) : bitField w 21 6 = (fieldF16 w).toNat := bitField_eq_toNat w 21 6
@[simp] theorem bitField_fieldFunc5 (w : Word) : bitField w 10 6 = (fieldFunc5 w).toNat := bitField_eq_toNat w 10 6
@[simp] theorem bitField_fieldFunc11 (w : Word) : bitField w 16 6 = (fieldFunc11 w).toNat := bitField_eq_toNat w 16 6
@[simp] theorem bitField_31_6 (w : Word) : bitField w 31 6 = (w.extractLsb' 6 26).toNat := bitField_eq_toNat w 31 6
@[simp] theorem bitField_26_6 (w : Word) : bitField w 26 6 = (w.extractLsb' 6 21).toNat := bitField_eq_toNat w 26 6

/-! ### The opcode map -/

/-- The opcode's number in the map of R88. -/
def Opcode.code : Opcode → Nat
  | .halt => 0x00
  | .special => 0x01
  | .exch => 0x02
  | .imm => 0x03
  | .mexch => 0x04
  | .del => 0x05
  | .mdel => 0x06
  | .cswap => 0x07
  | .cswapi => 0x08
  | .blt => 0x10
  | .bltu => 0x11
  | .bge => 0x12
  | .bgeu => 0x13
  | .beq => 0x14
  | .bne => 0x15
  | .bevn => 0x16
  | .bodd => 0x17
  | .swb => 0x18
  | .rswb => 0x19
  | .vspecial => 0x21
  | .vexch => 0x22
  | .vimm => 0x23
  | .vmexch => 0x24
  | .vdel => 0x25
  | .vmdel => 0x26
  | .vcswap => 0x27
  | .vcswapi => 0x28

theorem toNat_of_decodeOpcode {op : BitVec 6} {opc : Opcode} (h : decodeOpcode op = some opc) :
    op.toNat = opc.code := by
  have hmap : ∀ op : BitVec 6, ∀ opc ∈ decodeOpcode op, op.toNat = opc.code := by decide
  exact hmap op opc h

/-- The opcodes outside the map are those of R93 (a). -/
theorem decodeOpcode_eq_none_iff (op : BitVec 6) :
    decodeOpcode op = none ↔
      0x09 ≤ op.toNat ∧ op.toNat ≤ 0x0F ∨ 0x1A ≤ op.toNat ∧ op.toNat ≤ 0x20 ∨ 0x29 ≤ op.toNat := by
  revert op
  decide

theorem unassignedOpcode_iff (w : Word) : unassignedOpcode w = true ↔ decodeOpcode (fieldOpcode w) = none := by
  rw [decodeOpcode_eq_none_iff]
  simp [unassignedOpcode, or_assoc]

/-! ### The function codes -/

theorem decodeFunction_eq_none_iff (c : BitVec 16) : decodeFunction c = none ↔ 0x0B < c.toNat := by
  unfold decodeFunction
  split <;> grind

theorem decodeFunction_eq_neg_iff (c : BitVec 16) : decodeFunction c = some .neg ↔ c.toNat = 0x01 := by
  unfold decodeFunction
  split <;> grind

/-! ### When each stage of the decoder refuses -/

theorem whenZero_error_iff {n : Nat} (reserved : BitVec n) (i : Instr) :
    (∃ e, whenZero reserved i = .error e) ↔ reserved ≠ 0 := by
  unfold whenZero
  split
  next hzero => simp [hzero]
  next hset => simpa using hset

theorem specialInstr_error_iff (f : Fn) (rd rs : XReg) :
    (∃ e, specialInstr f rd rs = .error e) ↔ f = .neg ∧ rs ≠ 0 := by
  cases f <;> simp [specialInstr, whenZero_error_iff]

theorem immInstr_error_iff (f : Fn) (rd : XReg) (imm : Imm16) :
    (∃ e, immInstr f rd imm = .error e) ↔ f = .neg := by
  cases f <;> simp [immInstr]

theorem vspecialInstr_error_iff (f : Fn) (vd vs : VReg) :
    (∃ e, vspecialInstr f vd vs = .error e) ↔ f = .neg ∧ vs ≠ 0 := by
  cases f <;> simp [vspecialInstr, whenZero_error_iff]

theorem vimmInstr_error_iff (f : Fn) (vd : VReg) (imm : Imm16) :
    (∃ e, vimmInstr f vd imm = .error e) ↔ f = .neg := by
  cases f <;> simp [vimmInstr]

/-- Of the functions only negate is ever refused, under the condition `p`: then stage two refuses exactly the codes
that are not listed, and negate's code under `p`. -/
theorem withFunction_error_iff {p : Prop} (code : BitVec 16) {k : Fn → Except Illegal Instr}
    (hk : ∀ f, (∃ e, k f = .error e) ↔ f = .neg ∧ p) :
    (∃ e, withFunction code k = .error e) ↔ 0x0B < code.toNat ∨ code.toNat = 0x01 ∧ p := by
  rw [← decodeFunction_eq_none_iff, ← decodeFunction_eq_neg_iff, withFunction]
  cases decodeFunction code with
  | none => simp
  | some f => simp [hk]

/-- The same for the 5-bit code of `IMM` and `VIMM`, where negate is refused outright (R93 (c)). -/
theorem withFunction_func5_error_iff (code : BitVec 5) {k : Fn → Except Illegal Instr}
    (hk : ∀ f, (∃ e, k f = .error e) ↔ f = .neg) :
    (∃ e, withFunction (code.zeroExtend 16) k = .error e) ↔ 0x0B < code.toNat ∨ code.toNat = 0x01 := by
  have hwiden : (code.zeroExtend 16).toNat = code.toNat := BitVec.toNat_setWidth_of_le (by decide)
  rw [withFunction_error_iff (p := True) _ (by simpa using hk), hwiden, and_true]

/-! ### The illegal fields of each opcode -/

/-- The clauses (b) to (j) of R93 as a function of the opcode. -/
def Opcode.IllegalFields (opc : Opcode) (w : Word) : Prop :=
  match opc with
  | .special | .vspecial => 0x0B < (fieldF16 w).toNat ∨ (fieldF16 w).toNat = 0x01 ∧ fieldB w ≠ 0
  | .imm | .vimm => 0x0B < (fieldFunc5 w).toNat ∨ (fieldFunc5 w).toNat = 0x01
  | .halt => w.extractLsb' 6 26 ≠ 0
  | .exch | .vexch => fieldF16 w ≠ 0
  | .del | .vdel | .swb | .rswb => w.extractLsb' 6 21 ≠ 0
  | .mdel | .vmdel => fieldA w ≠ 0
  | .cswap | .vcswap => fieldFunc11 w ≠ 0
  | .bevn | .bodd => fieldFunc5 w ≠ 0
  | .mexch | .vmexch | .cswapi | .vcswapi | .blt | .bltu | .bge | .bgeu | .beq | .bne => False

theorem decodeClass_error_iff (opc : Opcode) (w : Word) :
    (∃ e, decodeClass opc w = .error e) ↔ opc.IllegalFields w := by
  cases opc with
  | special => exact withFunction_error_iff _ fun f => specialInstr_error_iff f _ _
  | vspecial => exact withFunction_error_iff _ fun f => vspecialInstr_error_iff f _ _
  | imm => exact withFunction_func5_error_iff _ fun f => immInstr_error_iff f _ _
  | vimm => exact withFunction_func5_error_iff _ fun f => vimmInstr_error_iff f _ _
  | halt | exch | vexch | del | vdel | swb | rswb | mdel | vmdel | cswap | vcswap | bevn | bodd =>
    exact whenZero_error_iff _ _
  | mexch | vmexch | cswapi | vcswapi | blt | bltu | bge | bgeu | beq | bne =>
    simp [decodeClass, Opcode.IllegalFields]

/-- Once the opcode is known, the opcode's part of each clause of R93 is decided; what is left is the clause's condition
on the other fields. -/
theorem illegalWord_iff_of_opcode {w : Word} {opc : Opcode} (h : decodeOpcode (fieldOpcode w) = some opc) :
    illegalWord w = true ↔ opc.IllegalFields w := by
  have hcode := toNat_of_decodeOpcode h
  cases opc <;>
    simp [illegalWord, unassignedOpcode, unassignedSpecial, unassignedImm, reservedNeg, reservedHalt, reservedExch,
      reservedOneReg, reservedMdel, reservedCswap, reservedParity, opcodeOrVector, hcode, Opcode.code,
      Opcode.IllegalFields, BitVec.toNat_eq]

theorem decode_of_opcode {w : Word} {opc : Opcode} (h : decodeOpcode (fieldOpcode w) = some opc) :
    decode w = decodeClass opc w := by
  simp [decode, h]

theorem decode_of_unassigned {w : Word} (h : decodeOpcode (fieldOpcode w) = none) :
    decode w = .error .unassignedOpcode := by
  simp [decode, h]

/-- The list of R93 and the decoder of R119 refuse the same words. -/
theorem illegalWord_iff_decode_error (w : Word) : illegalWord w = true ↔ ∃ e, decode w = .error e := by
  cases h : decodeOpcode (fieldOpcode w) with
  | none =>
    have hlisted : illegalWord w = true := by simp [illegalWord, (unassignedOpcode_iff w).mpr h]
    exact iff_of_true hlisted ⟨_, decode_of_unassigned h⟩
  | some opc => rw [illegalWord_iff_of_opcode h, decode_of_opcode h, decodeClass_error_iff]

open Machine in
/-- Settles O5: list and decoder agree opcode by opcode, and a word the decoder refuses raises at fetch. -/
theorem illegalWordsExactlyAsListed : Obligations.IllegalWordsExactlyAsListed := by
  refine ⟨illegalWord_iff_decode_error, fun s hrun hpc hillegal => ?step⟩
  case step =>
    obtain ⟨e, hdecode⟩ := (illegalWord_iff_decode_error _).mp hillegal
    exact step_of_fetchInstr_error hrun (fetchInstr_illegal hpc hdecode)

end Sys2Proof

/-! SUPPORT. The encoders as natural numbers (`30_encoding.md` R97). -/

namespace Sys2Proof

/-- A field of width `n` that is moved up to bit `k` and still ends within the word loses nothing. -/
theorem toNat_zeroExtend_shiftLeft {n k : Nat} (field : BitVec n) (hfits : n + k ≤ 32) :
    (field.zeroExtend 32 <<< k).toNat = field.toNat <<< k := by
  have hshifted : field.toNat <<< k < 2 ^ 32 := by
    calc field.toNat <<< k < 2 ^ (n + k) := Nat.shiftLeft_lt field.isLt
      _ ≤ 2 ^ 32 := Nat.pow_le_pow_right (by decide) hfits
  rw [BitVec.toNat_shiftLeft, BitVec.toNat_setWidth_of_le (by omega), Nat.mod_eq_of_lt hshifted]

theorem encR_toNat (op : BitVec 6) (rd rs : BitVec 5) (f16 : BitVec 16) :
    (encR op rd rs f16).toNat = (rd.toNat <<< 27) ||| (rs.toNat <<< 22) ||| (f16.toNat <<< 6) ||| op.toNat := by
  simp (disch := decide) only [encR, BitVec.toNat_or, toNat_zeroExtend_shiftLeft, BitVec.toNat_setWidth_of_le]

theorem encI_toNat (op : BitVec 6) (rd : BitVec 5) (imm16 : BitVec 16) (func5 : BitVec 5) :
    (encI op rd imm16 func5).toNat =
      (rd.toNat <<< 27) ||| (imm16.toNat <<< 11) ||| (func5.toNat <<< 6) ||| op.toNat := by
  simp (disch := decide) only [encI, BitVec.toNat_or, toNat_zeroExtend_shiftLeft, BitVec.toNat_setWidth_of_le]

theorem encR3_toNat (op : BitVec 6) (ra rb rc : BitVec 5) (func11 : BitVec 11) :
    (encR3 op ra rb rc func11).toNat =
      (ra.toNat <<< 27) ||| (rb.toNat <<< 22) ||| (rc.toNat <<< 17) ||| (func11.toNat <<< 6) ||| op.toNat := by
  simp (disch := decide) only [encR3, BitVec.toNat_or, toNat_zeroExtend_shiftLeft, BitVec.toNat_setWidth_of_le]

/-- `encB` and `encR` are one formula: their layouts differ in the fields' meanings only (R82, R85). -/
theorem encB_toNat (op : BitVec 6) (ra rb : BitVec 5) (imm16 : BitVec 16) :
    (encB op ra rb imm16).toNat = (ra.toNat <<< 27) ||| (rb.toNat <<< 22) ||| (imm16.toNat <<< 6) ||| op.toNat :=
  encR_toNat op ra rb imm16

/-- Settles O2: the formula of each layout, and R97's example by evaluation. -/
theorem encodersShiftAndOr : Obligations.EncodersShiftAndOr :=
  ⟨encR_toNat, encI_toNat, encR3_toNat, encB_toNat, by decide⟩

end Sys2Proof

/-! SUPPORT. The decoder and the encoder are inverse to each other (`40_decoder.md` R113, R118): each stage of the
decoder on an encoded instruction, and the encoding of what each stage accepts. -/

namespace Sys2Proof

/-! ### The decoder on an encoded instruction -/

theorem decodeOpcode_encode (i : Instr) : decodeOpcode (fieldOpcode (encode i)) = some i.opcode := by
  cases i <;> simp only [encode, fieldOpcode_encR, fieldOpcode_encI, fieldOpcode_encR3, fieldOpcode_encB] <;> rfl

theorem bits31_6_encR_zero (op : BitVec 6) : (encR op 0 0 0).extractLsb' 6 26 = 0#26 :=
  (bits31_6_eq_zero_iff _).mpr ⟨fieldA_encR .., fieldB_encR .., fieldF16_encR ..⟩

theorem bits26_6_encR_zero (op : BitVec 6) (rd : BitVec 5) : (encR op rd 0 0).extractLsb' 6 21 = 0#21 :=
  (bits26_6_eq_zero_iff _).mpr ⟨fieldB_encR .., fieldF16_encR ..⟩

/-- Every field that stage two reads is an operand, a function code or a reserved zero of the encoding, so that stage
two computes. -/
theorem decodeClass_encode (i : Instr) : decodeClass i.opcode (encode i) = .ok i := by
  cases i <;>
    simp only [encode, Instr.opcode, decodeClass, fieldA_encR, fieldB_encR, fieldF16_encR, fieldA_encI, fieldImmI_encI,
      fieldFunc5_encI, fieldA_encR3, fieldB_encR3, fieldC_encR3, fieldFunc11_encR3, fieldA_encB, fieldB_encB,
      fieldF16_encB, bits31_6_encR_zero, bits26_6_encR_zero] <;> rfl

theorem decode_encode (i : Instr) : decode (encode i) = .ok i := by
  rw [decode_of_opcode (decodeOpcode_encode i), decodeClass_encode]

/-! ### The encoder on a decoded word -/

/-- The function code of a function (R89). -/
def Fn.code : Fn → BitVec 16
  | .xor => 0x00#16
  | .neg => 0x01#16
  | .add => 0x02#16
  | .sub => 0x03#16
  | .mul => 0x04#16
  | .div => 0x05#16
  | .rr => 0x06#16
  | .rl => 0x07#16
  | .fadd => 0x08#16
  | .fsub => 0x09#16
  | .fmul => 0x0A#16
  | .fdiv => 0x0B#16

theorem eq_code_of_decodeFunction {c : BitVec 16} {f : Fn} (h : decodeFunction c = some f) : c = f.code := by
  apply BitVec.eq_of_toNat_eq
  revert h
  unfold decodeFunction
  split <;> rintro ⟨⟩ <;> assumption

theorem whenZero_ok_iff {n : Nat} (reserved : BitVec n) (i j : Instr) :
    whenZero reserved i = .ok j ↔ reserved = 0 ∧ i = j := by
  unfold whenZero
  split
  next hzero => simp [hzero]
  next hset => simpa using fun hzero => absurd hzero hset

theorem whenZero_of_eq_zero {n : Nat} {reserved : BitVec n} (h : reserved = 0) (i : Instr) :
    whenZero reserved i = .ok i := if_pos h

theorem withFunction_ok_iff (code : BitVec 16) (k : Fn → Except Illegal Instr) (i : Instr) :
    withFunction code k = .ok i ↔ ∃ f, decodeFunction code = some f ∧ k f = .ok i := by
  unfold withFunction
  cases decodeFunction code <;> simp

theorem withFunction_ok {code c : BitVec 16} {f : Fn} {k : Fn → Except Illegal Instr} {i : Instr} (hcode : code = c)
    (hf : decodeFunction c = some f) (hi : k f = .ok i) : withFunction code k = .ok i :=
  (withFunction_ok_iff ..).mpr ⟨f, hcode ▸ hf, hi⟩

theorem encode_of_specialInstr {f : Fn} {rd rs : XReg} {i : Instr} (h : specialInstr f rd rs = .ok i) :
    encode i = encR 0x01#6 rd rs f.code := by
  cases f with
  | neg =>
    obtain ⟨rfl, rfl⟩ := (whenZero_ok_iff ..).mp h
    rfl
  | _ => cases h; rfl

theorem encode_of_vspecialInstr {f : Fn} {vd vs : VReg} {i : Instr} (h : vspecialInstr f vd vs = .ok i) :
    encode i = encR 0x21#6 vd vs f.code := by
  cases f with
  | neg =>
    obtain ⟨rfl, rfl⟩ := (whenZero_ok_iff ..).mp h
    rfl
  | _ => cases h; rfl

theorem encode_of_immInstr {f : Fn} {rd : XReg} {imm : Imm16} {i : Instr} (h : immInstr f rd imm = .ok i) :
    encode i = encI 0x03#6 rd imm (f.code.truncate 5) := by
  cases f <;> cases h <;> rfl

theorem encode_of_vimmInstr {f : Fn} {vd : VReg} {imm : Imm16} {i : Instr} (h : vimmInstr f vd imm = .ok i) :
    encode i = encI 0x23#6 vd imm (f.code.truncate 5) := by
  cases f <;> cases h <;> rfl

theorem fieldOpcode_of_decodeOpcode {w : Word} {opc : Opcode} (h : decodeOpcode (fieldOpcode w) = some opc) :
    fieldOpcode w = BitVec.ofNat 6 opc.code := by
  rw [← toNat_of_decodeOpcode h, BitVec.ofNat_toNat, BitVec.setWidth_eq]

theorem encR_eq_of_fields {w : Word} {op : BitVec 6} {rd rs : BitVec 5} {f16 : BitVec 16} (hop : fieldOpcode w = op)
    (ha : fieldA w = rd) (hb : fieldB w = rs) (hf : fieldF16 w = f16) : encR op rd rs f16 = w := by
  rw [← hop, ← ha, ← hb, ← hf, encR_fields]

theorem encI_eq_of_fields {w : Word} {op : BitVec 6} {rd : BitVec 5} {imm16 : BitVec 16} {func5 : BitVec 5}
    (hop : fieldOpcode w = op) (ha : fieldA w = rd) (himm : fieldImmI w = imm16) (hf : fieldFunc5 w = func5) :
    encI op rd imm16 func5 = w := by
  rw [← hop, ← ha, ← himm, ← hf, encI_fields]

theorem encR3_eq_of_fields {w : Word} {op : BitVec 6} {ra rb rc : BitVec 5} {func11 : BitVec 11}
    (hop : fieldOpcode w = op) (ha : fieldA w = ra) (hb : fieldB w = rb) (hc : fieldC w = rc)
    (hf : fieldFunc11 w = func11) : encR3 op ra rb rc func11 = w := by
  rw [← hop, ← ha, ← hb, ← hc, ← hf, encR3_fields]

theorem eq_truncate_code_of_decodeFunction {c : BitVec 5} {f : Fn} (h : decodeFunction (c.zeroExtend 16) = some f) :
    c = f.code.truncate 5 := by
  rw [← eq_code_of_decodeFunction h]
  simp

/-- Stage two writes into the instruction, or checks, every field of the word other than the opcode. -/
theorem encode_of_decodeClass {opc : Opcode} {w : Word} {i : Instr} (hop : fieldOpcode w = BitVec.ofNat 6 opc.code)
    (h : decodeClass opc w = .ok i) : encode i = w := by
  cases opc with
  | special =>
    obtain ⟨f, hf, hi⟩ := (withFunction_ok_iff ..).mp h
    exact (encode_of_specialInstr hi).trans (encR_eq_of_fields hop rfl rfl (eq_code_of_decodeFunction hf))
  | vspecial =>
    obtain ⟨f, hf, hi⟩ := (withFunction_ok_iff ..).mp h
    exact (encode_of_vspecialInstr hi).trans (encR_eq_of_fields hop rfl rfl (eq_code_of_decodeFunction hf))
  | imm =>
    obtain ⟨f, hf, hi⟩ := (withFunction_ok_iff ..).mp h
    exact (encode_of_immInstr hi).trans (encI_eq_of_fields hop rfl rfl (eq_truncate_code_of_decodeFunction hf))
  | vimm =>
    obtain ⟨f, hf, hi⟩ := (withFunction_ok_iff ..).mp h
    exact (encode_of_vimmInstr hi).trans (encI_eq_of_fields hop rfl rfl (eq_truncate_code_of_decodeFunction hf))
  | halt =>
    obtain ⟨hzero, rfl⟩ := (whenZero_ok_iff ..).mp h
    obtain ⟨ha, hb, hf⟩ := (bits31_6_eq_zero_iff w).mp hzero
    exact encR_eq_of_fields hop ha hb hf
  | del | vdel | swb | rswb =>
    obtain ⟨hzero, rfl⟩ := (whenZero_ok_iff ..).mp h
    obtain ⟨hb, hf⟩ := (bits26_6_eq_zero_iff w).mp hzero
    exact encR_eq_of_fields hop rfl hb hf
  | exch | vexch =>
    obtain ⟨hf, rfl⟩ := (whenZero_ok_iff ..).mp h
    exact encR_eq_of_fields hop rfl rfl hf
  | mdel | vmdel =>
    obtain ⟨ha, rfl⟩ := (whenZero_ok_iff ..).mp h
    exact encR_eq_of_fields hop ha rfl rfl
  | cswap | vcswap =>
    obtain ⟨hf, rfl⟩ := (whenZero_ok_iff ..).mp h
    exact encR3_eq_of_fields hop rfl rfl rfl hf
  | bevn | bodd =>
    obtain ⟨hf, rfl⟩ := (whenZero_ok_iff ..).mp h
    exact encI_eq_of_fields hop rfl rfl hf
  | mexch | vmexch | cswapi | vcswapi | blt | bltu | bge | bgeu | beq | bne =>
    cases h
    exact encR_eq_of_fields hop rfl rfl rfl

theorem encode_of_decode {w : Word} {i : Instr} (h : decode w = .ok i) : encode i = w := by
  cases hop : decodeOpcode (fieldOpcode w) with
  | none =>
    rw [decode_of_unassigned hop] at h
    contradiction
  | some opc =>
    rw [decode_of_opcode hop] at h
    exact encode_of_decodeClass (fieldOpcode_of_decodeOpcode hop) h

end Sys2Proof

/-! SUPPORT. The opcode table (`40_decoder.md` R118): each mask as a selection of fields, the row of an instruction, and
the words that match it. -/

namespace Sys2Proof

/-! ### The masks of the table as selections of fields -/

theorem and_all (w : Word) : w &&& 0xFFFFFFFF#32 = w := BitVec.and_allOnes

theorem and_opcode (w : Word) : w &&& 0x0000003F#32 = encR (fieldOpcode w) 0 0 0 := by
  apply BitVec.eq_of_getLsbD_eq
  intro i hi
  interval_cases i <;> simp [encR, fieldOpcode]

theorem and_opcode_f16 (w : Word) : w &&& 0x003FFFFF#32 = encR (fieldOpcode w) 0 0 (fieldF16 w) := by
  apply BitVec.eq_of_getLsbD_eq
  intro i hi
  interval_cases i <;> simp [encR, fieldOpcode, fieldF16]

theorem and_opcode_f16_b (w : Word) : w &&& 0x07FFFFFF#32 = encR (fieldOpcode w) 0 (fieldB w) (fieldF16 w) := by
  apply BitVec.eq_of_getLsbD_eq
  intro i hi
  interval_cases i <;> simp [encR, fieldOpcode, fieldB, fieldF16]

theorem and_opcode_a (w : Word) : w &&& 0xF800003F#32 = encR (fieldOpcode w) (fieldA w) 0 0 := by
  apply BitVec.eq_of_getLsbD_eq
  intro i hi
  interval_cases i <;> simp [encR, fieldOpcode, fieldA]

theorem and_opcode_func5 (w : Word) : w &&& 0x000007FF#32 = encI (fieldOpcode w) 0 0 (fieldFunc5 w) := by
  apply BitVec.eq_of_getLsbD_eq
  intro i hi
  interval_cases i <;> simp [encI, fieldOpcode, fieldFunc5]

theorem and_opcode_func11 (w : Word) : w &&& 0x0001FFFF#32 = encR3 (fieldOpcode w) 0 0 0 (fieldFunc11 w) := by
  apply BitVec.eq_of_getLsbD_eq
  intro i hi
  interval_cases i <;> simp [encR3, fieldOpcode, fieldFunc11]

/-! ### The row of an instruction -/

/-- The bits that are the same in every word of the instruction, whatever its operands (R91, R118). -/
def Instr.mask (i : Instr) : Word :=
  match i with
  | .halt => 0xFFFFFFFF#32
  | .neg _ | .vneg _ | .del _ | .vdel _ | .swb _ | .rswb _ => 0x07FFFFFF#32
  | .exch _ _ | .xor _ _ | .add _ _ | .sub _ _ | .mul _ _ | .div _ _ | .rr _ _ | .rl _ _
  | .fadd _ _ | .fsub _ _ | .fmul _ _ | .fdiv _ _
  | .vexch _ _ | .vxor _ _ | .vadd _ _ | .vsub _ _ | .vmul _ _ | .vdiv _ _ | .vrr _ _ | .vrl _ _
  | .vfadd _ _ | .vfsub _ _ | .vfmul _ _ | .vfdiv _ _ => 0x003FFFFF#32
  | .xori _ _ | .addi _ _ | .subi _ _ | .muli _ _ | .divi _ _ | .rri _ _ | .rli _ _
  | .faddi _ _ | .fsubi _ _ | .fmuli _ _ | .fdivi _ _ | .bevn _ _ | .bodd _ _
  | .vxori _ _ | .vaddi _ _ | .vsubi _ _ | .vmuli _ _ | .vdivi _ _ | .vrri _ _ | .vrli _ _
  | .vfaddi _ _ | .vfsubi _ _ | .vfmuli _ _ | .vfdivi _ _ => 0x000007FF#32
  | .mdel _ _ | .vmdel _ _ => 0xF800003F#32
  | .cswap _ _ _ | .vcswap _ _ _ => 0x0001FFFF#32
  | .mexch _ _ _ | .vmexch _ _ _ | .cswapi _ _ _ | .vcswapi _ _ _
  | .blt _ _ _ | .bltu _ _ _ | .bge _ _ _ | .bgeu _ _ _ | .beq _ _ _ | .bne _ _ _ => 0x0000003F#32

/-- The instruction's row of the table: its mask, and what the mask keeps of its encoding. -/
def Instr.row (i : Instr) : OpcodeRow :=
  ⟨i.mnemonic, i.mask, encode i &&& i.mask⟩

theorem opcodeRows_mnemonic_nodup : (opcodeRows.map OpcodeRow.mnemonic).Nodup := by decide

/-- The mask selects no operand of the encoding, so the row is one closed row. -/
theorem row_mem_opcodeRows (i : Instr) : i.row ∈ opcodeRows := by
  cases i <;>
    simp only [Instr.row, Instr.mnemonic, Instr.mask, encode, and_opcode, and_opcode_f16, and_opcode_f16_b,
      and_opcode_func5, and_opcode_a, and_opcode_func11, and_all, fieldOpcode_encR, fieldA_encR, fieldB_encR,
      fieldF16_encR, fieldOpcode_encI, fieldFunc5_encI, fieldOpcode_encR3, fieldFunc11_encR3, fieldOpcode_encB] <;>
    decide

/-- The table has no other rows: each is the row of the instruction that its bits, all operands 0, decode to. -/
theorem exists_row_of_mem : ∀ r ∈ opcodeRows, ∃ i ∈ (decode r.bits).toOption, i.row = r := by decide

/-! ### Words that agree with an encoding under its mask -/

/-- Words that agree under a mask agree on every field that the mask selects whole. -/
theorem extractLsb'_eq_of_and_eq {w b m : Word} {lo n : Nat} (h : w &&& m = b &&& m)
    (hm : m.extractLsb' lo n = BitVec.allOnes n) {v : BitVec n} (hb : b.extractLsb' lo n = v) :
    w.extractLsb' lo n = v := by
  simpa [BitVec.extractLsb'_and, hm, hb] using congrArg (BitVec.extractLsb' lo n) h

theorem mask_selects_opcode (i : Instr) : i.mask.extractLsb' 0 6 = BitVec.allOnes 6 := by
  unfold Instr.mask
  split <;> rfl

theorem decodeOpcode_of_agrees {i : Instr} {w : Word} (h : w &&& i.mask = encode i &&& i.mask) :
    decodeOpcode (fieldOpcode w) = some i.opcode := by
  have hop : fieldOpcode w = fieldOpcode (encode i) := extractLsb'_eq_of_and_eq h (mask_selects_opcode i) rfl
  rw [hop, decodeOpcode_encode]

/-- Stage two checks only fields that the mask selects. -/
theorem decodeClass_of_agrees {i : Instr} {w : Word} (h : w &&& i.mask = encode i &&& i.mask) :
    ∃ j, decodeClass i.opcode w = .ok j ∧ j.mnemonic = i.mnemonic := by
  cases i with
  | halt =>
    have hzero : w.extractLsb' 6 26 = 0 := extractLsb'_eq_of_and_eq (m := 0xFFFFFFFF#32) h rfl (bits31_6_encR_zero _)
    exact ⟨_, whenZero_of_eq_zero hzero _, rfl⟩
  | del | vdel | swb | rswb =>
    have hzero : w.extractLsb' 6 21 = 0 := extractLsb'_eq_of_and_eq (m := 0x07FFFFFF#32) h rfl (bits26_6_encR_zero ..)
    exact ⟨_, whenZero_of_eq_zero hzero _, rfl⟩
  | exch | vexch =>
    have hzero : fieldF16 w = 0 := extractLsb'_eq_of_and_eq (m := 0x003FFFFF#32) h rfl (fieldF16_encR ..)
    exact ⟨_, whenZero_of_eq_zero hzero _, rfl⟩
  | mdel | vmdel =>
    have hzero : fieldA w = 0 := extractLsb'_eq_of_and_eq (m := 0xF800003F#32) h rfl (fieldA_encR ..)
    exact ⟨_, whenZero_of_eq_zero hzero _, rfl⟩
  | cswap | vcswap =>
    have hzero : fieldFunc11 w = 0 := extractLsb'_eq_of_and_eq (m := 0x0001FFFF#32) h rfl (fieldFunc11_encR3 ..)
    exact ⟨_, whenZero_of_eq_zero hzero _, rfl⟩
  | bevn | bodd =>
    have hzero : fieldFunc5 w = 0 := extractLsb'_eq_of_and_eq (m := 0x000007FF#32) h rfl (fieldFunc5_encI ..)
    exact ⟨_, whenZero_of_eq_zero hzero _, rfl⟩
  | xor | add | sub | mul | div | rr | rl | fadd | fsub | fmul | fdiv
  | vxor | vadd | vsub | vmul | vdiv | vrr | vrl | vfadd | vfsub | vfmul | vfdiv =>
    have hcode : fieldF16 w = _ := extractLsb'_eq_of_and_eq (m := 0x003FFFFF#32) h rfl (fieldF16_encR ..)
    exact ⟨_, withFunction_ok hcode rfl rfl, rfl⟩
  | neg | vneg =>
    have hcode : fieldF16 w = _ := extractLsb'_eq_of_and_eq (m := 0x07FFFFFF#32) h rfl (fieldF16_encR ..)
    have hzero : fieldB w = 0 := extractLsb'_eq_of_and_eq (m := 0x07FFFFFF#32) h rfl (fieldB_encR ..)
    exact ⟨_, withFunction_ok hcode rfl (whenZero_of_eq_zero hzero _), rfl⟩
  | xori | addi | subi | muli | divi | rri | rli | faddi | fsubi | fmuli | fdivi
  | vxori | vaddi | vsubi | vmuli | vdivi | vrri | vrli | vfaddi | vfsubi | vfmuli | vfdivi =>
    have hcode : fieldFunc5 w = _ := extractLsb'_eq_of_and_eq (m := 0x000007FF#32) h rfl (fieldFunc5_encI ..)
    exact ⟨_, withFunction_ok (congrArg (BitVec.zeroExtend 16) hcode) rfl rfl, rfl⟩
  | mexch | vmexch | cswapi | vcswapi | blt | bltu | bge | bgeu | beq | bne => exact ⟨_, rfl, rfl⟩

/-! ### A row and the words that match it -/

theorem row_eq_of_mnemonic_eq {r q : OpcodeRow} (hr : r ∈ opcodeRows) (hq : q ∈ opcodeRows)
    (h : r.mnemonic = q.mnemonic) : r = q :=
  List.inj_on_of_nodup_map opcodeRows_mnemonic_nodup hr hq h

theorem encode_matches_row (i : Instr) : encode i &&& i.row.mask = i.row.bits := rfl

/-- Forward, the mask holds every field that the decoder checks; backward, the row is the one that the instruction's
encoding matches. -/
theorem matches_row_iff {r : OpcodeRow} (hr : r ∈ opcodeRows) (w : Word) :
    w &&& r.mask = r.bits ↔ ∃ i, decode w = .ok i ∧ i.mnemonic = r.mnemonic := by
  constructor
  · intro h
    obtain ⟨i, -, rfl⟩ := exists_row_of_mem r hr
    rw [decode_of_opcode (decodeOpcode_of_agrees h)]
    exact decodeClass_of_agrees h
  · rintro ⟨i, hdecode, hname⟩
    rw [← encode_of_decode hdecode, ← row_eq_of_mnemonic_eq (row_mem_opcodeRows i) hr hname, encode_matches_row]

/-- Settles O6: a row's words are those that decode to its mnemonic, mnemonics name rows uniquely, and every
instruction has a row. -/
theorem matchAndMaskSelectOneInstruction : Obligations.MatchAndMaskSelectOneInstruction := by
  refine ⟨rfl, fun w r hr => matches_row_iff hr w, ?unique, ?total, ?legal⟩
  case unique =>
    intro w r q hr hq hwr hwq
    obtain ⟨i, hi, hname⟩ := (matches_row_iff hr w).mp hwr
    obtain ⟨j, hj, hname'⟩ := (matches_row_iff hq w).mp hwq
    obtain rfl : i = j := Except.ok.inj (hi.symm.trans hj)
    exact row_eq_of_mnemonic_eq hr hq (hname.symm.trans hname')
  case total =>
    intro w
    cases hdecode : decode w with
    | error e => exact .inl ⟨e, rfl⟩
    | ok i => exact .inr ⟨i.row, row_mem_opcodeRows i, encode_of_decode hdecode ▸ encode_matches_row i⟩
  case legal =>
    intro i
    refine ⟨?_, decode_encode i⟩
    rw [Bool.eq_false_iff, Ne, illegalWord_iff_decode_error, decode_encode]
    simp

end Sys2Proof

/-! SUPPORT. The immediate of the decoded record (`40_decoder.md` R115), and the worked decodes. -/

namespace Sys2Proof

/-- The opcodes of layout I: their immediate is bits 26:11. -/
def immIOpcodes : List (BitVec 6) := [0x03, 0x23, 0x16, 0x17]

/-- The other opcodes with an immediate: it is bits 21:6. -/
def immF16Opcodes : List (BitVec 6) := [0x04, 0x24, 0x06, 0x26, 0x08, 0x28, 0x10, 0x11, 0x12, 0x13, 0x14, 0x15]

theorem decodeOpcode_ne_none_of_immediate :
    ∀ op ∈ immIOpcodes ++ immF16Opcodes, decodeOpcode op ≠ none := by decide

theorem not_mem_immIOpcodes_of_immF16 : ∀ op ∈ immF16Opcodes, op ∉ immIOpcodes := by decide

/-- Whether a word carries an immediate, and in which field, is decided by its opcode alone, legal or not. -/
theorem immediateField_eq (w : Word) :
    immediateField w =
      if fieldOpcode w ∈ immIOpcodes then some (fieldImmI w)
      else if fieldOpcode w ∈ immF16Opcodes then some (fieldF16 w) else none := by
  cases hop : decodeOpcode (fieldOpcode w) with
  | none =>
    have hnone : fieldOpcode w ∉ immIOpcodes ++ immF16Opcodes := fun hmem =>
      decodeOpcode_ne_none_of_immediate _ hmem hop
    obtain ⟨hI, hF16⟩ := not_or.mp (List.mem_append.not.mp hnone)
    rw [if_neg hI, if_neg hF16, immediateField, hop]
  | some opc =>
    rw [fieldOpcode_of_decodeOpcode hop, immediateField, hop]
    cases opc <;> rfl

theorem decodeRecord_immFlag (w : Word) : (decodeRecord w).immFlag = (immediateField w).isSome := rfl

theorem decodeRecord_imm_of_some {w : Word} {v : Imm16} (h : immediateField w = some v) :
    (decodeRecord w).imm = sext32 v := by
  simp [decodeRecord, h]

theorem decodeRecord_imm_of_none {w : Word} (h : immediateField w = none) : (decodeRecord w).imm = 0#32 := by
  simp [decodeRecord, h]

theorem immFlag_eq_true_iff (w : Word) :
    (decodeRecord w).immFlag = true ↔ fieldOpcode w ∈ immIOpcodes ∨ fieldOpcode w ∈ immF16Opcodes := by
  rw [decodeRecord_immFlag, immediateField_eq]
  split_ifs with hI hF16
  · simp [hI]
  · simp [hF16]
  · simp [hI, hF16]

/-- Settles O8: flag and value are read off the record's immediate field, which the opcode alone selects. -/
theorem immediateFlagAndValue : Obligations.ImmediateFlagAndValue := by
  intro w
  refine ⟨(immFlag_eq_true_iff w).trans ?flag, fun hI => ?layoutI, fun hF16 => ?other, fun hflag => ?absent⟩
  case flag =>
    change _ ↔ fieldOpcode w ∈ _
    generalize fieldOpcode w = op
    revert op
    decide
  case layoutI => exact decodeRecord_imm_of_some ((immediateField_eq w).trans (if_pos hI))
  case other =>
    have hI : fieldOpcode w ∉ immIOpcodes := not_mem_immIOpcodes_of_immF16 _ hF16
    exact decodeRecord_imm_of_some ((immediateField_eq w).trans ((if_neg hI).trans (if_pos hF16)))
  case absent =>
    rw [decodeRecord_immFlag, Option.isSome_eq_false_iff, Option.isNone_iff_eq_none] at hflag
    exact decodeRecord_imm_of_none hflag

/-- Settles O7: each legal word is the written encoding of its instruction; records and refusals are computed. -/
theorem workedDecodes : Obligations.WorkedDecodes :=
  ⟨by decide, by decide, decode_encode .halt, rfl, rfl, decode_encode (.cswap 3 4 5),
    decode_encode (.cswapi 3 4 0xFFFF), decode_encode (.bge 2 3 0xFFFE), decode_encode (.bodd 2 0xFFFD),
    decode_encode (.rswb 2), decode_encode (.mexch 5 4 0xFFFE), decode_encode (.mdel 4 2),
    decode_encode (.vaddi 2 5), decode_encode (.vmdel 4 2)⟩

end Sys2Proof

/-! SUPPORT. Signed words: the integers that `wrap32` keeps and how it passes through the word
operations (`00_scope.md` R10). -/

namespace Sys2Proof

open Machine

theorem fitsWord_toInt (a : Word) : fitsWord a.toInt := by
  have hlo := a.le_toInt
  have hhi := a.toInt_lt
  unfold fitsWord
  omega

theorem toInt_wrap32 {t : Int} (h : fitsWord t) : (wrap32 t).toInt = t := by
  obtain ⟨hlo, hhi⟩ := h
  exact BitVec.toInt_ofInt_eq_self (by decide) (by omega) (by omega)

theorem wrap32_eq_iff {t : Int} (h : fitsWord t) (a : Word) : wrap32 t = a ↔ t = a.toInt := by
  rw [← BitVec.toInt_inj, toInt_wrap32 h]

theorem wrap32_toInt (a : Word) : wrap32 a.toInt = a := BitVec.ofInt_toInt

theorem wrap32_toNat (a : Word) : wrap32 (a.toNat : Int) = a := by
  rw [wrap32, BitVec.ofInt_natCast, BitVec.ofNat_toNat, BitVec.setWidth_eq]

theorem wrap32_neg (x : Int) : wrap32 (-x) = -wrap32 x := BitVec.ofInt_neg

theorem wrap32_add (x y : Int) : wrap32 (x + y) = wrap32 x + wrap32 y := BitVec.ofInt_add x y

theorem wrap32_mul (x y : Int) : wrap32 (x * y) = wrap32 x * wrap32 y := BitVec.ofInt_mul x y

theorem wrap32_sub (x y : Int) : wrap32 (x - y) = wrap32 x - wrap32 y := by
  rw [Int.sub_eq_add_neg, wrap32_add, wrap32_neg, BitVec.sub_eq_add_neg]

end Sys2Proof

/-! SUPPORT. The integer functions that cannot fault (`41_function_library.md` R133 to R137, R150), each as the word
operation it is, and what undoes it. -/

namespace Sys2Proof.Machine

theorem fnXor_fnXor (a b : Word) : fnXor (fnXor a b) b = a := by
  rw [fnXor, fnXor, BitVec.xor_assoc, BitVec.xor_self, BitVec.xor_zero]

theorem fnNeg_eq_neg (a : Word) : fnNeg a = -a := by
  rw [fnNeg, Int.zero_sub, wrap32_neg, wrap32_toInt]

theorem fnNeg_fnNeg (a : Word) : fnNeg (fnNeg a) = a := by
  rw [fnNeg_eq_neg, fnNeg_eq_neg, BitVec.neg_neg]

theorem fnNeg_eq_self_iff (a : Word) : fnNeg a = a ↔ a = 0#32 ∨ a = 0x80000000#32 := by
  rw [fnNeg_eq_neg]
  constructor
  · intro h
    bv_omega
  · rintro (rfl | rfl) <;> rfl

theorem fnAdd_eq_wrap32_toInt (a b : Word) : fnAdd a b = wrap32 (a.toInt + b.toInt) := by
  rw [wrap32_add, wrap32_toInt, wrap32_toInt, fnAdd]

theorem fnAdd_eq_wrap32_toNat (a b : Word) : fnAdd a b = wrap32 ((a.toNat : Int) + b.toNat) := by
  rw [wrap32_add, wrap32_toNat, wrap32_toNat, fnAdd]

theorem fnSub_eq_wrap32_toInt (a b : Word) : fnSub a b = wrap32 (a.toInt - b.toInt) := by
  rw [wrap32_sub, wrap32_toInt, wrap32_toInt, fnSub]

theorem fnSub_eq_wrap32_toNat (a b : Word) : fnSub a b = wrap32 ((a.toNat : Int) - b.toNat) := by
  rw [wrap32_sub, wrap32_toNat, wrap32_toNat, fnSub]

theorem fnSub_fnAdd (a b : Word) : fnSub (fnAdd a b) b = a := BitVec.add_sub_cancel a b

theorem fnAdd_fnSub (a b : Word) : fnAdd (fnSub a b) b = a := BitVec.sub_add_cancel a b

theorem fnMul_eq_mul (a b : Word) : fnMul a b = a * b := by
  rw [fnMul, wrap32_mul, wrap32_toInt, wrap32_toInt]

theorem fnMul_eq_wrap32_toNat (a b : Word) : fnMul a b = wrap32 ((a.toNat : Int) * b.toNat) := by
  rw [wrap32_mul, wrap32_toNat, wrap32_toNat, fnMul_eq_mul]

/-- Settles O9: one formula per function and reading, with the inverses. -/
theorem integerFunctionsWrap : Obligations.IntegerFunctionsWrap := by
  intro a b
  refine ⟨⟨rfl, fun i _ => BitVec.getLsbD_xor, fnXor_fnXor a b, BitVec.xor_self⟩,
    ⟨rfl, rfl, ?complement, fnNeg_eq_self_iff a, fnNeg_fnNeg a⟩,
    ⟨rfl, fnAdd_eq_wrap32_toNat a b, fnAdd_eq_wrap32_toInt a b⟩,
    ⟨rfl, fnSub_eq_wrap32_toNat a b, fnSub_eq_wrap32_toInt a b, fnSub_fnAdd a b, fnAdd_fnSub a b⟩,
    ⟨rfl, rfl, fnMul_eq_wrap32_toNat a b, ?zero⟩⟩
  case complement => rw [fnNeg_eq_neg, BitVec.neg_eq_not_add]
  case zero => rw [fnMul_eq_mul, BitVec.mul_zero]

end Sys2Proof.Machine

/-! SUPPORT. Signed division (`41_function_library.md` R138): its two faults, and otherwise the truncated quotient,
which always fits a word. -/

namespace Sys2Proof.Machine

theorem fnDiv_of_zero {a b : Word} (hb : b.toInt = 0) : fnDiv a b = .error .arithmeticFault := if_pos hb

theorem fnDiv_of_overflow {a b : Word} (ha : a.toInt = -2147483648) (hb : b.toInt = -1) :
    fnDiv a b = .error .arithmeticFault := by
  rw [fnDiv, if_neg (by omega), if_pos ⟨ha, hb⟩]

theorem fnDiv_of_quotient {a b : Word} (hb : b.toInt ≠ 0) (h : ¬ (a.toInt = -2147483648 ∧ b.toInt = -1)) :
    fnDiv a b = .ok (wrap32 (a.toInt.tdiv b.toInt)) := by
  rw [fnDiv, if_neg hb, if_neg h]

/-- A quotient is negative exactly when the signs differ and it is not 0. -/
theorem tdiv_neg_iff (m n : Int) :
    m.tdiv n < 0 ↔ ((m < 0 ∧ 0 < n) ∨ (0 < m ∧ n < 0)) ∧ (m.tdiv n).natAbs ≠ 0 := by
  have hzero : m = 0 ∨ n = 0 → m.tdiv n = 0 := by rintro (rfl | rfl) <;> simp
  rcases le_total 0 m with hm | hm <;> rcases le_total 0 n with hn | hn
  · have hnonneg := Int.tdiv_nonneg hm hn
    omega
  · have hnonpos := Int.tdiv_nonpos_of_nonneg_of_nonpos hm hn
    omega
  · have hnonpos : 0 ≤ -(m.tdiv n) := Int.neg_tdiv .. ▸ Int.tdiv_nonneg (neg_nonneg.mpr hm) hn
    omega
  · have hnonneg := Int.tdiv_nonneg_of_nonpos_of_nonpos hm hn
    omega

/-- Only `-2^31 / -1` leaves the range: a divisor of magnitude 2 or more at least halves the dividend. -/
theorem fitsWord_tdiv {a b : Word} (h : ¬ (a.toInt = -2147483648 ∧ b.toInt = -1)) :
    fitsWord (a.toInt.tdiv b.toInt) := by
  obtain ⟨hlo, hhi⟩ := fitsWord_toInt a
  have habs : (a.toInt.tdiv b.toInt).natAbs = a.toInt.natAbs / b.toInt.natAbs := Int.natAbs_tdiv ..
  have hle := Nat.div_le_self a.toInt.natAbs b.toInt.natAbs
  unfold fitsWord
  rcases Nat.lt_or_ge b.toInt.natAbs 2 with hsmall | hlarge
  · obtain hb | hb | hb : b.toInt = 0 ∨ b.toInt = 1 ∨ b.toInt = -1 := by omega
    · rw [hb, Int.tdiv_zero]
      omega
    · rw [hb, Int.tdiv_one]
      omega
    · rw [hb, Int.tdiv_neg, Int.tdiv_one]
      omega
  · have hhalf := Nat.div_le_div_left hlarge (by decide) (a := a.toInt.natAbs)
    omega

theorem fnDiv_ok {a b q : Word} (h : fnDiv a b = .ok q) : b.toInt ≠ 0 ∧ q.toInt = a.toInt.tdiv b.toInt := by
  by_cases hb : b.toInt = 0
  · rw [fnDiv_of_zero hb] at h
    cases h
  · by_cases ho : a.toInt = -2147483648 ∧ b.toInt = -1
    · rw [fnDiv_of_overflow ho.1 ho.2] at h
      cases h
    · rw [fnDiv_of_quotient hb ho] at h
      cases h
      exact ⟨hb, toInt_wrap32 (fitsWord_tdiv ho)⟩

/-- Settles O10: `q` is Lean's truncated quotient; its magnitude and sign are those of R138. -/
theorem divisionTruncatesTowardZero : Obligations.DivisionTruncatesTowardZero := fun a b =>
  ⟨fnDiv_of_zero, fnDiv_of_overflow, fun hb ho =>
    ⟨a.toInt.tdiv b.toInt, fnDiv_of_quotient hb ho, Int.natAbs_tdiv .., tdiv_neg_iff .., fun _ hr => (fnDiv_ok hr).2⟩⟩

end Sys2Proof.Machine

/-! SUPPORT. The rotates bit by bit (`41_function_library.md` R140). -/

namespace Sys2Proof.Machine

theorem rotateCount_lt (n : Word) : rotateCount n < 32 := Nat.mod_lt _ (by decide)

theorem toNat_and_31 (n : Word) : (n &&& 31#32).toNat = n.toNat % 32 := by
  rw [BitVec.toNat_and]
  exact Nat.and_two_pow_sub_one_eq_mod n.toNat 5

/-- The two readings of a word differ by a multiple of 32. -/
theorem toNat_mod_32_eq_toInt_mod (n : Word) : ((n.toNat % 32 : Nat) : Int) = n.toInt % 32 := by
  rw [BitVec.toInt_eq_toNat_cond]
  split <;> omega

theorem getLsbD_fnRr (a n : Word) {i : Nat} (hi : i < 32) :
    (fnRr a n).getLsbD i = a.getLsbD ((i + rotateCount n) % 32) := by
  have hk := rotateCount_lt n
  rw [fnRr, BitVec.getLsbD_rotateRight, Nat.mod_eq_of_lt hk]
  by_cases hlow : i < 32 - rotateCount n
  · rw [decide_eq_true hlow, cond_true]
    congr 1
    omega
  · rw [decide_eq_false hlow, decide_eq_true hi, cond_false, Bool.true_and]
    congr 1
    omega

theorem getLsbD_fnRl (a n : Word) {i : Nat} (hi : i < 32) :
    (fnRl a n).getLsbD ((i + rotateCount n) % 32) = a.getLsbD i := by
  have hk := rotateCount_lt n
  rw [fnRl, BitVec.getLsbD_rotateLeft, Nat.mod_eq_of_lt hk]
  by_cases hlow : (i + rotateCount n) % 32 < rotateCount n
  · rw [decide_eq_true hlow, cond_true]
    congr 1
    omega
  · rw [decide_eq_false hlow, decide_eq_true (Nat.mod_lt _ (by decide)), cond_false, Bool.true_and]
    congr 1
    omega

theorem fnRr_fnRl (a n : Word) : fnRr (fnRl a n) n = a :=
  BitVec.eq_of_getLsbD_eq fun _ hi => (getLsbD_fnRr _ n hi).trans (getLsbD_fnRl a n hi)

/-- Every bit index is one that the left rotate moves a bit to. -/
theorem exists_rotated_index (n : Word) {j : Nat} (hj : j < 32) : ∃ i < 32, (i + rotateCount n) % 32 = j := by
  have hk := rotateCount_lt n
  exact ⟨(j + 32 - rotateCount n) % 32, by omega, by omega⟩

theorem fnRl_fnRr (a n : Word) : fnRl (fnRr a n) n = a := by
  refine BitVec.eq_of_getLsbD_eq fun j hj => ?_
  obtain ⟨i, hi, rfl⟩ := exists_rotated_index n hj
  rw [getLsbD_fnRl _ n hi, getLsbD_fnRr a n hi]

theorem fnRr_eq_shiftRight (a n : Word) : fnRr a n = shiftRight a (rotateCount n) := by
  rw [fnRr, BitVec.rotateRight_def, Nat.mod_eq_of_lt (rotateCount_lt n), shiftRight]

theorem fnRl_eq_shiftLeft (a n : Word) : fnRl a n = shiftLeft a (rotateCount n) := by
  rw [fnRl, BitVec.rotateLeft_def, Nat.mod_eq_of_lt (rotateCount_lt n), shiftLeft]

/-- Settles O11: where each bit goes, the shift forms, and the inverses bit by bit. -/
theorem rotatesMoveEveryBit : Obligations.RotatesMoveEveryBit := fun a n =>
  ⟨⟨toNat_and_31 n, toNat_mod_32_eq_toInt_mod n⟩, rfl, rfl, fun _ => getLsbD_fnRr a n, fun _ => getLsbD_fnRl a n,
    fnRr_eq_shiftRight a n, fnRl_eq_shiftLeft a n, fnRl_fnRr a n, fnRr_fnRl a n⟩

end Sys2Proof.Machine

/-! SUPPORT. The conditional swap (`41_function_library.md` R141, R150) and the inverse map of the backward mode
(R132). -/

namespace Sys2Proof.Machine

theorem getLsbD_fnCswap_fst (a b m : Word) (i : Nat) :
    (fnCswap a b m).1.getLsbD i = if m.getLsbD i then b.getLsbD i else a.getLsbD i := by
  rw [fnCswap, BitVec.getLsbD_xor, BitVec.getLsbD_and, BitVec.getLsbD_xor]
  cases m.getLsbD i <;> simp

theorem getLsbD_fnCswap_snd (a b m : Word) (i : Nat) :
    (fnCswap a b m).2.getLsbD i = if m.getLsbD i then a.getLsbD i else b.getLsbD i := by
  rw [fnCswap, BitVec.getLsbD_xor, BitVec.getLsbD_and, BitVec.getLsbD_xor]
  cases m.getLsbD i <;> simp [Bool.xor_left_comm (b.getLsbD i)]

/-- A pair of words is what a conditional swap gives when each bit is the one the mask selects. -/
theorem fnCswap_eq {a b m x y : Word} (hx : ∀ i < 32, (if m.getLsbD i then b.getLsbD i else a.getLsbD i) = x.getLsbD i)
    (hy : ∀ i < 32, (if m.getLsbD i then a.getLsbD i else b.getLsbD i) = y.getLsbD i) : fnCswap a b m = (x, y) :=
  Prod.ext (BitVec.eq_of_getLsbD_eq fun i hi => (getLsbD_fnCswap_fst a b m i).trans (hx i hi))
    (BitVec.eq_of_getLsbD_eq fun i hi => (getLsbD_fnCswap_snd a b m i).trans (hy i hi))

theorem getLsbD_allOnes_word {i : Nat} (hi : i < 32) : (0xFFFFFFFF#32).getLsbD i = true :=
  (BitVec.getLsbD_allOnes (v := 32)).trans (decide_eq_true hi)

theorem fnCswap_allOnes (a b : Word) : fnCswap a b 0xFFFFFFFF#32 = (b, a) :=
  fnCswap_eq (fun _ hi => if_pos (getLsbD_allOnes_word hi)) fun _ hi => if_pos (getLsbD_allOnes_word hi)

theorem fnCswap_zero (a b : Word) : fnCswap a b 0#32 = (a, b) :=
  fnCswap_eq (fun _ _ => by simp) fun _ _ => by simp

/-- A bit under the mask is exchanged twice, any other is kept twice. -/
theorem fnCswap_fnCswap (a b m : Word) : fnCswap (fnCswap a b m).1 (fnCswap a b m).2 m = (a, b) := by
  refine fnCswap_eq (fun i _ => ?_) fun i _ => ?_ <;>
    rw [getLsbD_fnCswap_fst, getLsbD_fnCswap_snd] <;> cases m.getLsbD i <;> rfl

/-- Settles O12: the swap bit by bit, from which the masks and the double swap follow. -/
theorem conditionalSwapAndInvolutions : Obligations.ConditionalSwapAndInvolutions := fun a b m =>
  ⟨rfl, fun i _ => ⟨getLsbD_fnCswap_fst a b m i, getLsbD_fnCswap_snd a b m i⟩, fnCswap_allOnes a b, fnCswap_zero a b,
    fnCswap_fnCswap a b m, fnXor_fnXor a b, fnNeg_fnNeg a⟩

/-- On codes the inverse map keeps 0 and 1 and flips the last bit of the others. -/
theorem decodeFunction_inverse_code (f : Fn) :
    decodeFunction (if f.code.toNat < 2 then f.code else f.code ^^^ 1#16) = some (invFn f) := by
  cases f <;> rfl

/-- `CSWAP` neither reads nor writes the direction. -/
theorem exec_cswap_flip {ra rb rc : XReg} {s t : State} (h : exec (.cswap ra rb rc) s = .next t) :
    exec (.cswap ra rb rc) { s with dir := s.dir.flip } = .next { t with dir := s.dir.flip } := by
  cases h
  rfl

/-- Settles O13: a table, its reading on the twelve codes, and the one body of `CSWAP`. -/
theorem backwardInverseMap : Obligations.BackwardInverseMap := by
  refine ⟨by decide, fun c f hc => ?code, fun f => ⟨rfl, rfl⟩, fun _ _ _ _ _ => exec_cswap_flip⟩
  case code =>
    rw [eq_code_of_decodeFunction hc]
    exact decodeFunction_inverse_code f

end Sys2Proof.Machine

/-! SUPPORT. When multiply and divide undo each other (`41_function_library.md` R151). -/

namespace Sys2Proof.Machine

theorem toInt_fnMul {a b : Word} (h : fitsWord (a.toInt * b.toInt)) : (fnMul a b).toInt = a.toInt * b.toInt :=
  toInt_wrap32 h

/-- A product that fits is no overflow for the division: `-2^31 = a * -1` has no word `a`. -/
theorem fnDiv_fnMul {a b : Word} (hb : b.toInt ≠ 0) (h : fitsWord (a.toInt * b.toInt)) :
    fnDiv (fnMul a b) b = .ok a := by
  obtain ⟨-, ha⟩ := fitsWord_toInt a
  have hno : ¬ ((fnMul a b).toInt = -2147483648 ∧ b.toInt = -1) := by
    rw [toInt_fnMul h]
    rintro ⟨hprod, hone⟩
    rw [hone] at hprod
    omega
  rw [fnDiv_of_quotient hb hno, toInt_fnMul h, Int.mul_tdiv_cancel _ hb, wrap32_toInt]

/-- The exact product `-2^31 * -1` wraps to `-2^31`, which `-1` does not divide. -/
theorem fnDiv_fnMul_of_overflow {a b : Word} (ha : a.toInt = -2147483648) (hb : b.toInt = -1) :
    fnDiv (fnMul a b) b ≠ .ok a := by
  have hprod : (fnMul a b).toInt = -2147483648 := by
    rw [fnMul, ha, hb]
    decide
  rw [fnDiv_of_overflow hprod hb]
  exact nofun

/-- Multiplying the quotient back gives the dividend without the remainder, which lies between 0 and the dividend. -/
theorem fnMul_fnDiv_iff {a b q : Word} (h : fnDiv a b = .ok q) : fnMul q b = a ↔ b.toInt ∣ a.toInt := by
  obtain ⟨-, hq⟩ := fnDiv_ok h
  obtain ⟨hlo, hhi⟩ := fitsWord_toInt a
  have hsum := Int.tdiv_mul_add_tmod a.toInt b.toInt
  have hfits : fitsWord (q.toInt * b.toInt) := by
    have hmod : (a.toInt.tmod b.toInt).natAbs ≤ a.toInt.natAbs := by
      rw [Int.natAbs_tmod]
      exact Nat.mod_le ..
    have hneg : a.toInt < 0 → 0 ≤ -(a.toInt.tmod b.toInt) := fun ha =>
      Int.neg_tmod .. ▸ Int.tmod_nonneg _ (neg_nonneg.mpr ha.le)
    have hpos : 0 ≤ a.toInt → 0 ≤ a.toInt.tmod b.toInt := Int.tmod_nonneg _
    rw [hq]
    unfold fitsWord
    omega
  rw [fnMul, wrap32_eq_iff hfits, Int.dvd_iff_tmod_eq_zero, hq]
  omega

/-- Settles O14: the inverses of O9 and O11, and the exact conditions for multiply and divide. -/
theorem pairedIntegerInverses : Obligations.PairedIntegerInverses := fun a b =>
  ⟨⟨fnSub_fnAdd a b, fnAdd_fnSub a b, fnRl_fnRr a b, fnRr_fnRl a b⟩, fnDiv_fnMul, fnDiv_fnMul_of_overflow,
    fun _ => fnMul_fnDiv_iff⟩

end Sys2Proof.Machine

/-! SUPPORT. The two conversions between words and binary32 (`41_function_library.md` R143, R144). -/

namespace Sys2Proof.Machine

/-! ### From words to binary32 -/

/-- Up to `2^24` an integer is itself a datum, so it is its own nearest one. -/
theorem i2f_nearest_exact (w : Word) : ∃ r : FloatVal, i2f w = .fin r ∧ NearestEven (w.toInt : ℚ) r ∧
    (w.toInt.natAbs ≤ 2 ^ 24 → r.value = (w.toInt : ℚ)) := by
  obtain ⟨r, hr, hnear⟩ := i2f_nearest w
  refine ⟨r, hr, hnear, fun hsmall => ?_⟩
  obtain ⟨u, hu, hval⟩ := exists_datum_int hsmall
  exact hnear.eq_of_datum hu hval

theorem i2f_zero : i2f 0#32 = floatZero false := rfl

/-- Settles O15: the nearest datum, exact where the integer is a datum. -/
theorem integersConvertToNearestBinary32 : Obligations.IntegersConvertToNearestBinary32 :=
  ⟨i2f_nearest_exact, i2f_zero⟩

/-! ### From binary32 to words -/

theorem f2i_of_fits {r : FloatVal} (h : fitsWord (truncateQ r.value)) :
    f2i (.fin r) = .ok (wrap32 (truncateQ r.value)) := by
  obtain ⟨hlo, hhi⟩ := h
  rw [truncateQ_value] at hlo hhi ⊢
  exact if_neg (by omega)

theorem f2i_of_not_fits {r : FloatVal} (h : ¬ fitsWord (truncateQ r.value)) :
    f2i (.fin r) = .error .arithmeticFault := by
  rw [fitsWord, truncateQ_value] at h
  exact if_pos (by omega)

theorem f2i_error_iff (r : FloatVal) :
    f2i (.fin r) = .error .arithmeticFault ↔ ¬ fitsWord (truncateQ r.value) := by
  refine ⟨fun herr hfits => ?_, f2i_of_not_fits⟩
  rw [f2i_of_fits hfits] at herr
  cases herr

/-- The integer that a finite datum converts to is its truncation. -/
theorem toInt_of_f2i {r : FloatVal} {w : Word} (h : f2i (.fin r) = .ok w) : w.toInt = truncToInt r := by
  by_cases hfits : fitsWord (truncateQ r.value)
  · rw [f2i_of_fits hfits] at h
    cases h
    rw [toInt_wrap32 hfits, truncateQ_value]
  · rw [f2i_of_not_fits hfits] at h
    cases h

/-- The datum below `2^31` with the greatest magnitude is `(2^24 - 1) * 2^7`: with an exponent above 7 the leading bit
of the significand alone is `2^31`. -/
theorem truncMagnitude_le_of_datum {r : FloatVal} (hr : r.isDatum) (h : truncMagnitude r ≤ 2147483647) :
    truncMagnitude r ≤ 2147483520 := by
  obtain ⟨hsig, -, -, hnormal⟩ := hr
  unfold truncMagnitude at h ⊢
  split
  case isFalse =>
    have := Nat.div_le_self r.sig (2 ^ (-r.exp).toNat)
    omega
  case isTrue hexp =>
    rw [if_pos hexp] at h
    rcases Nat.lt_or_ge r.exp.toNat 8 with hlow | hhigh
    · have hpow : 2 ^ r.exp.toNat ≤ 2 ^ 7 := Nat.pow_le_pow_right (by decide) (by omega)
      calc r.sig * 2 ^ r.exp.toNat ≤ (2 ^ 24 - 1) * 2 ^ 7 := Nat.mul_le_mul (by omega) hpow
        _ = 2147483520 := by norm_num
    · have hpow : 2 ^ 8 ≤ 2 ^ r.exp.toNat := Nat.pow_le_pow_right (by decide) hhigh
      have hbig : 2 ^ 23 * 2 ^ 8 ≤ r.sig * 2 ^ r.exp.toNat := Nat.mul_le_mul (by omega) hpow
      omega

theorem toInt_le_of_f2i {r : FloatVal} {w : Word} (hr : r.isDatum) (h : f2i (.fin r) = .ok w) :
    w.toInt ≤ 2147483520 := by
  have hw := toInt_of_f2i h
  obtain ⟨-, hhi⟩ := fitsWord_toInt w
  cases hneg : r.neg with
  | true =>
    rw [truncToInt, if_pos hneg] at hw
    omega
  | false =>
    rw [truncToInt, if_neg (by simp [hneg])] at hw
    have hmag := truncMagnitude_le_of_datum hr (by omega)
    omega

/-- Settles O16: the two cases of a finite value by its truncation, and the greatest datum that converts. -/
theorem floatsConvertBackByTruncation : Obligations.FloatsConvertBackByTruncation :=
  ⟨rfl, fun _ => rfl, fun _ => ⟨f2i_of_fits, f2i_of_not_fits⟩, fun _ _ => toInt_le_of_f2i⟩

end Sys2Proof.Machine

/-! SUPPORT. The four float functions (`41_function_library.md` R145, R146): operands are integers of at most `2^31` in
magnitude, so each exact result is 0 or far from the subnormals, and far from overflow. -/

namespace Sys2Proof.Machine

/-! ### Operands -/

/-- A converted word is an integer, not beyond `2^31`, and 0 for the word 0 only. -/
theorem i2f_int (w : Word) : ∃ (x : FloatVal) (k : Int), i2f w = .fin x ∧ x.value = k ∧ |(k : ℚ)| ≤ 2 ^ 31 ∧
    (w ≠ 0#32 → 1 ≤ |(k : ℚ)|) := by
  obtain ⟨x, hx, hnear⟩ := i2f_nearest w
  obtain ⟨k, hk⟩ := hnear.exists_int
  have hword : |(w.toInt : ℚ)| ≤ 2 ^ (31 : Int) := by
    have hint : |w.toInt| ≤ 2 ^ 31 := abs_le.mpr ⟨w.le_toInt, w.toInt_lt.le⟩
    exact_mod_cast hint
  refine ⟨x, k, hx, hk, ?_, fun hw => ?_⟩
  · rw [← hk]
    exact_mod_cast hnear.abs_le_pow (by decide) (by decide) hword
  · have hone : 1 ≤ |w.toInt| := Int.one_le_abs (BitVec.toInt_ne.mpr hw)
    have hlow : (2 : ℚ) ^ (0 : Int) ≤ |(w.toInt : ℚ)| := by exact_mod_cast hone
    rw [← hk]
    exact_mod_cast hnear.pow_le_abs (by decide) (by decide) hlow

theorem sig_ne_zero_of_int {x : FloatVal} {k : Int} (hx : x.value = k) (hk : 1 ≤ |(k : ℚ)|) : x.sig ≠ 0 := by
  rw [Ne, ← x.value_eq_zero_iff, hx, ← abs_eq_zero]
  linarith

/-! ### One rounding -/

theorem int_zero_or_normal (n : Int) : (n : ℚ) = 0 ∨ (2 : ℚ) ^ (-126 : Int) ≤ |(n : ℚ)| := by
  rcases eq_or_ne n 0 with rfl | hn
  · exact .inl Int.cast_zero
  · have hone : (1 : ℚ) ≤ |(n : ℚ)| := by exact_mod_cast Int.one_le_abs hn
    exact .inr ((zpow_le_one_of_nonpos₀ one_le_two (by decide)).trans hone)

/-- The float function of `op` converts its operands, rounds the exact result once, to 0 or a normal number, and
converts back; `bound` is what R146 says of the exact result. -/
def RoundsOnce (op : Binary32 → Binary32 → Binary32) (exact : ℚ → ℚ → ℚ) (bound : ℚ → Prop) (a b : Word) : Prop :=
  ∃ x y r : FloatVal, i2f a = .fin x ∧ i2f b = .fin y ∧ op (.fin x) (.fin y) = .fin r ∧
    NearestEven (exact x.value y.value) r ∧ f2i (op (i2f a) (i2f b)) = f2i (.fin r) ∧ bound (exact x.value y.value) ∧
    (r.sig = 0 ∨ 2 ^ 23 ≤ r.sig) ∧
    (f2i (op (i2f a) (i2f b)) = .error .arithmeticFault ↔ ¬ fitsWord (truncateQ r.value))

section
variable {op : Binary32 → Binary32 → Binary32} {exact : ℚ → ℚ → ℚ}

theorem roundsOnce_of_nearest {bound : ℚ → Prop} {a b : Word} {x y : FloatVal} (hx : i2f a = .fin x)
    (hy : i2f b = .fin y) (hop : ∃ v : FloatVal, op (.fin x) (.fin y) = .fin v ∧ NearestEven (exact x.value y.value) v)
    (hbound : bound (exact x.value y.value))
    (hsize : exact x.value y.value = 0 ∨ (2 : ℚ) ^ (-126 : Int) ≤ |exact x.value y.value|) :
    RoundsOnce op exact bound a b := by
  obtain ⟨r, hr, hnear⟩ := hop
  have hconv : f2i (op (i2f a) (i2f b)) = f2i (.fin r) := by rw [hx, hy, hr]
  exact ⟨x, y, r, hx, hy, hr, hnear, hconv, hbound, hnear.normal hsize, by rw [hconv, f2i_error_iff]⟩

/-- An operation that takes integers to integers: its exact results are never subnormal, so only overflow is left to
exclude. -/
theorem roundsOnce_of_int {intOp : Int → Int → Int} {c : ℚ}
    (hop : ∀ {x y : FloatVal}, |exact x.value y.value| < 2 ^ (100 : Int) →
      ∃ v : FloatVal, op (.fin x) (.fin y) = .fin v ∧ NearestEven (exact x.value y.value) v)
    (hint : ∀ k l : Int, exact k l = (intOp k l : Int))
    (hbound : ∀ p q : ℚ, |p| ≤ 2 ^ 31 → |q| ≤ 2 ^ 31 → |exact p q| ≤ c) (hc : c < 2 ^ (100 : Int)) (a b : Word) :
    RoundsOnce op exact (|·| ≤ c) a b := by
  obtain ⟨x, k, hx, hxk, hk, -⟩ := i2f_int a
  obtain ⟨y, l, hy, hyl, hl, -⟩ := i2f_int b
  have hle : |exact x.value y.value| ≤ c := by
    rw [hxk, hyl]
    exact hbound k l hk hl
  have hsize : exact x.value y.value = 0 ∨ (2 : ℚ) ^ (-126 : Int) ≤ |exact x.value y.value| := by
    rw [hxk, hyl, hint]
    exact int_zero_or_normal _
  exact roundsOnce_of_nearest hx hy (hop (hle.trans_lt hc)) hle hsize

end

theorem fnFadd_roundsOnce (a b : Word) : RoundsOnce floatAdd (· + ·) (|·| ≤ 2 ^ 32) a b := by
  refine roundsOnce_of_int floatAdd_nearest (fun k l => (Int.cast_add k l).symm) (fun p q hp hq => ?_) (by norm_num) a b
  linarith [abs_add_le p q]

theorem fnFsub_roundsOnce (a b : Word) : RoundsOnce floatSub (· - ·) (|·| ≤ 2 ^ 32) a b := by
  refine roundsOnce_of_int floatSub_nearest (fun k l => (Int.cast_sub k l).symm) (fun p q hp hq => ?_) (by norm_num) a b
  linarith [abs_sub p q]

theorem fnFmul_roundsOnce (a b : Word) : RoundsOnce floatMul (· * ·) (|·| ≤ 2 ^ 62) a b := by
  refine roundsOnce_of_int floatMul_nearest (fun k l => (Int.cast_mul k l).symm) (fun p q hp hq => ?_) (by norm_num) a b
  rw [abs_mul]
  exact (mul_le_mul hp hq (abs_nonneg q) (by norm_num)).trans_eq (by norm_num)

/-- A quotient is least when 1 is divided by `2^31`. -/
theorem pow_le_abs_div {k l : Int} (hne : (k : ℚ) / l ≠ 0) (hl : |(l : ℚ)| ≤ 2 ^ 31) :
    (2 : ℚ) ^ (-31 : Int) ≤ |(k : ℚ) / l| := by
  obtain ⟨hk0, hl0⟩ := div_ne_zero_iff.mp hne
  have hk : (1 : ℚ) ≤ |(k : ℚ)| := by exact_mod_cast Int.one_le_abs (Int.cast_ne_zero.mp hk0)
  calc (2 : ℚ) ^ (-31 : Int) = 1 / 2 ^ 31 := by norm_num
    _ ≤ |(k : ℚ)| / |(l : ℚ)| := div_le_div₀ (abs_nonneg _) hk (abs_pos.mpr hl0) hl
    _ = |(k : ℚ) / l| := (abs_div _ _).symm

theorem fnFdiv_roundsOnce (a : Word) {b : Word} (hb : b ≠ 0#32) :
    RoundsOnce floatDiv (· / ·) (fun q => q ≠ 0 → (2 : ℚ) ^ (-31 : Int) ≤ |q|) a b := by
  obtain ⟨x, k, hx, hxk, hk, -⟩ := i2f_int a
  obtain ⟨y, l, hy, hyl, hl, hl1⟩ := i2f_int b
  have hlow : x.value / y.value ≠ 0 → (2 : ℚ) ^ (-31 : Int) ≤ |x.value / y.value| := by
    rw [hxk, hyl]
    exact fun hne => pow_le_abs_div hne hl
  have hbound : |x.value / y.value| ≤ 2 ^ 31 := by
    rw [hxk, hyl, abs_div]
    exact (div_le_self (abs_nonneg _) (hl1 hb)).trans hk
  have hsig : y.sig ≠ 0 := sig_ne_zero_of_int hyl (hl1 hb)
  have hsize : x.value / y.value = 0 ∨ (2 : ℚ) ^ (-126 : Int) ≤ |x.value / y.value| :=
    or_iff_not_imp_left.mpr fun hne => (zpow_le_zpow_right₀ one_le_two (by decide)).trans (hlow hne)
  exact roundsOnce_of_nearest hx hy (floatDiv_nearest hsig (hbound.trans_lt (by norm_num))) hlow hsize

/-! ### Division by zero -/

theorem floatDiv_floatZero {x : FloatVal} (hx : x.sig ≠ 0) (neg : Bool) :
    floatDiv (.fin x) (floatZero neg) = .inf (x.neg != neg) := by
  simp [floatDiv, floatZero, hx]

theorem floatDiv_zero {a : Word} (ha : a ≠ 0#32) : ∃ n, floatDiv (i2f a) (i2f 0#32) = .inf n := by
  obtain ⟨x, k, hx, hxk, -, hk⟩ := i2f_int a
  rw [hx, i2f_zero]
  exact ⟨_, floatDiv_floatZero (sig_ne_zero_of_int hxk (hk ha)) false⟩

theorem floatDiv_zero_zero : floatDiv (i2f 0#32) (i2f 0#32) = .nan := rfl

theorem fnFdiv_zero (a : Word) : fnFdiv a 0#32 = .error .arithmeticFault := by
  unfold fnFdiv
  rcases eq_or_ne a 0#32 with rfl | ha
  · rw [floatDiv_zero_zero]
    rfl
  · obtain ⟨n, hn⟩ := floatDiv_zero ha
    rw [hn]
    rfl

theorem f2i_floatZero (neg : Bool) : f2i (floatZero neg) = .ok 0#32 := by
  cases neg <;> rfl

/-- Settles O17: one rounding for each of the four operations, then the divisions by zero and two worked faults. -/
theorem floatOperationsRoundOnce : Obligations.FloatOperationsRoundOnce := fun a b =>
  ⟨fnFadd_roundsOnce a b, fnFsub_roundsOnce a b, fnFmul_roundsOnce a b, fnFdiv_roundsOnce a, rfl, fnFdiv_zero a,
    floatDiv_zero, floatDiv_zero_zero, rfl, fun _ => rfl, f2i_floatZero, rfl, rfl⟩

end Sys2Proof.Machine

/-! SUPPORT. The float functions on integers up to `2^24` (`41_function_library.md` R152): operands and result are data,
so nothing is rounded. -/

namespace Sys2Proof.Machine

theorem truncateQ_intCast (n : Int) : truncateQ (n : ℚ) = n := by
  rw [truncateQ, Int.floor_intCast, Int.ceil_intCast, ite_self]

theorem f2i_of_value_eq {r : FloatVal} {w : Word} (h : r.value = (w.toInt : ℚ)) : f2i (.fin r) = .ok w := by
  have htrunc : truncateQ r.value = w.toInt := by rw [h, truncateQ_intCast]
  rw [f2i_of_fits (htrunc ▸ fitsWord_toInt w), htrunc, wrap32_toInt]

/-- An exact result that is a word of magnitude up to `2^24` is the function's result. -/
theorem f2i_of_exact {op : Binary32 → Binary32 → Binary32} {q : ℚ → ℚ → ℚ} {a b w : Word}
    (hop : ∀ x y : FloatVal, x.value = (a.toInt : ℚ) → y.value = (b.toInt : ℚ) → |q x.value y.value| < 2 ^ (100 : Int) →
      ∃ v : FloatVal, op (.fin x) (.fin y) = .fin v ∧ NearestEven (q x.value y.value) v)
    (ha : a.toInt.natAbs ≤ 2 ^ 24) (hb : b.toInt.natAbs ≤ 2 ^ 24) (hw : w.toInt.natAbs ≤ 2 ^ 24)
    (hq : q a.toInt b.toInt = w.toInt) : f2i (op (i2f a) (i2f b)) = .ok w := by
  obtain ⟨x, hx, -, hxa⟩ := i2f_nearest_exact a
  obtain ⟨y, hy, -, hyb⟩ := i2f_nearest_exact b
  have hvalue : q x.value y.value = w.toInt := by rw [hxa ha, hyb hb, hq]
  have hlim : |q x.value y.value| < 2 ^ (100 : Int) := by
    have hint : |w.toInt| < 2 ^ 100 := by
      rw [Int.abs_eq_natAbs]
      omega
    rw [hvalue]
    exact_mod_cast hint
  obtain ⟨v, hv, hnear⟩ := hop x y (hxa ha) (hyb hb) hlim
  obtain ⟨u, hu, hval⟩ := exists_datum_int hw
  rw [hvalue] at hnear
  rw [hx, hy, hv, f2i_of_value_eq (hnear.eq_of_datum hu hval)]

section
variable {a b : Word} (ha : a.toInt.natAbs ≤ 2 ^ 24) (hb : b.toInt.natAbs ≤ 2 ^ 24)
include ha hb

theorem fnFadd_exact {w : Word} (hw : w.toInt.natAbs ≤ 2 ^ 24) (h : a.toInt + b.toInt = w.toInt) :
    fnFadd a b = .ok w :=
  f2i_of_exact (q := (· + ·)) (fun _ _ _ _ => floatAdd_nearest) ha hb hw (by exact_mod_cast h)

theorem fnFsub_exact {w : Word} (hw : w.toInt.natAbs ≤ 2 ^ 24) (h : a.toInt - b.toInt = w.toInt) :
    fnFsub a b = .ok w :=
  f2i_of_exact (q := (· - ·)) (fun _ _ _ _ => floatSub_nearest) ha hb hw (by exact_mod_cast h)

theorem fnFmul_exact {w : Word} (hw : w.toInt.natAbs ≤ 2 ^ 24) (h : a.toInt * b.toInt = w.toInt) :
    fnFmul a b = .ok w :=
  f2i_of_exact (q := (· * ·)) (fun _ _ _ _ => floatMul_nearest) ha hb hw (by exact_mod_cast h)

theorem fnFdiv_exact {w : Word} (hw : w.toInt.natAbs ≤ 2 ^ 24) (hb0 : b.toInt ≠ 0)
    (h : a.toInt = w.toInt * b.toInt) : fnFdiv a b = .ok w := by
  have hb0' : (b.toInt : ℚ) ≠ 0 := Int.cast_ne_zero.mpr hb0
  refine f2i_of_exact (q := (· / ·)) (fun x y _ hy => floatDiv_nearest ?_) ha hb hw ?_
  · rw [Ne, ← y.value_eq_zero_iff, hy]
    exact hb0'
  · rw [div_eq_iff hb0']
    exact_mod_cast h

end

theorem toInt_add_of_fits {a b : Word} (h : fitsWord (a.toInt + b.toInt)) : (a + b).toInt = a.toInt + b.toInt := by
  rw [← fnAdd, fnAdd_eq_wrap32_toInt, toInt_wrap32 h]

theorem fitsWord_of_natAbs_le {t : Int} (h : t.natAbs ≤ 2 ^ 24) : fitsWord t := by
  unfold fitsWord
  omega

/-- Settles O18: sum and product are words of magnitude up to `2^24`, and so is what the inverse restores. -/
theorem floatPairsInvertWithinBounds : Obligations.FloatPairsInvertWithinBounds := by
  intro a b ha hb
  refine ⟨fun hsum => ?pair_add, fun hb0 hprod => ?pair_mul⟩
  case pair_add =>
    have heq := toInt_add_of_fits (fitsWord_of_natAbs_le hsum)
    rw [← heq] at hsum
    exact ⟨fnFadd_exact ha hb hsum heq.symm, fnFsub_exact hsum hb ha (by omega)⟩
  case pair_mul =>
    have heq := toInt_fnMul (fitsWord_of_natAbs_le hprod)
    rw [fnMul_eq_mul] at heq
    rw [← heq] at hprod
    exact ⟨fnFmul_exact ha hb hprod heq.symm, fnFdiv_exact hprod hb ha hb0 heq⟩

end Sys2Proof.Machine

/-! SUPPORT. The encoding of an instruction and its row of the opcode table in one statement (`30_encoding.md` R91,
`40_decoder.md` R118). -/

namespace Sys2Proof

/-- Mnemonics name rows uniquely, so the row of the table with an instruction's name is the one its encoding matches. -/
theorem encodes_of_row {i : Instr} {mask bits : Word} (name : String) (hname : i.mnemonic = name)
    (hrow : ⟨name, mask, bits⟩ ∈ opcodeRows) : Encodes i (encode i) mask bits := by
  have hi : i.row = ⟨name, mask, bits⟩ := row_eq_of_mnemonic_eq (row_mem_opcodeRows i) hrow hname
  obtain ⟨rfl, rfl, rfl⟩ := OpcodeRow.mk.inj hi
  exact ⟨rfl, decode_encode i, rfl⟩

end Sys2Proof

/-! SUPPORT. The function a direction selects (`41_function_library.md` R132, `42_scalar_arith.md` R160): the results of
the functions that cannot fault, both directions in one equation. -/

namespace Sys2Proof.Machine

theorem fnInDirection_of_forward {d : Direction} (h : d = .forward) (f : Fn) : fnInDirection d f = f := by
  rw [h, fnInDirection]

theorem fnInDirection_of_backward {d : Direction} (h : d = .backward) (f : Fn) : fnInDirection d f = invFn f := by
  rw [h, fnInDirection]

theorem applyFn_fnInDirection_pick {d : Direction} {f : Fn} {a b x y : Word} (hforward : applyFn f a b = .ok x)
    (hbackward : applyFn (invFn f) a b = .ok y) : applyFn (fnInDirection d f) a b = .ok (d.pick x y) := by
  cases d with
  | forward => exact hforward
  | backward => exact hbackward

section
variable (d : Direction) (a b : Word)

theorem applyFn_xor_inDirection : applyFn (fnInDirection d .xor) a b = .ok (a ^^^ b) := by
  cases d <;> rfl

theorem applyFn_neg_inDirection : applyFn (fnInDirection d .neg) a b = .ok (wrap32 (0 - a.toInt)) := by
  cases d <;> rfl

theorem applyFn_add : applyFn .add a b = .ok (wrap32 ((a.toNat : Int) + b.toNat)) :=
  congrArg Except.ok (fnAdd_eq_wrap32_toNat a b)

theorem applyFn_sub : applyFn .sub a b = .ok (wrap32 ((a.toNat : Int) - b.toNat)) :=
  congrArg Except.ok (fnSub_eq_wrap32_toNat a b)

theorem applyFn_rr : applyFn .rr a b = .ok (shiftRight a (b.toNat % 32)) :=
  congrArg Except.ok (fnRr_eq_shiftRight a b)

theorem applyFn_rl : applyFn .rl a b = .ok (shiftLeft a (b.toNat % 32)) :=
  congrArg Except.ok (fnRl_eq_shiftLeft a b)

theorem applyFn_add_inDirection : applyFn (fnInDirection d .add) a b =
    .ok (d.pick (wrap32 ((a.toNat : Int) + b.toNat)) (wrap32 ((a.toNat : Int) - b.toNat))) :=
  applyFn_fnInDirection_pick (applyFn_add a b) (applyFn_sub a b)

theorem applyFn_sub_inDirection : applyFn (fnInDirection d .sub) a b =
    .ok (d.pick (wrap32 ((a.toNat : Int) - b.toNat)) (wrap32 ((a.toNat : Int) + b.toNat))) :=
  applyFn_fnInDirection_pick (applyFn_sub a b) (applyFn_add a b)

theorem applyFn_rr_inDirection : applyFn (fnInDirection d .rr) a b =
    .ok (d.pick (shiftRight a (b.toNat % 32)) (shiftLeft a (b.toNat % 32))) :=
  applyFn_fnInDirection_pick (applyFn_rr a b) (applyFn_rl a b)

theorem applyFn_rl_inDirection : applyFn (fnInDirection d .rl) a b =
    .ok (d.pick (shiftLeft a (b.toNat % 32)) (shiftRight a (b.toNat % 32))) :=
  applyFn_fnInDirection_pick (applyFn_rl a b) (applyFn_rr a b)

end

/-- Settles O19: the row of each mnemonic, and the function that each direction performs on the two registers. -/
theorem scalarRegisterInteger : Obligations.ScalarRegisterInteger := fun _ _ _ =>
  ⟨⟨encodes_of_row "XOR" rfl (by decide), scalarFn_ok (applyFn_xor_inDirection ..)⟩,
    ⟨encodes_of_row "NEG" rfl (by decide), scalarFn_ok (applyFn_neg_inDirection ..)⟩,
    ⟨encodes_of_row "ADD" rfl (by decide), scalarFn_ok (applyFn_add_inDirection ..)⟩,
    ⟨encodes_of_row "SUB" rfl (by decide), scalarFn_ok (applyFn_sub_inDirection ..)⟩,
    ⟨encodes_of_row "RR" rfl (by decide), scalarFn_ok (applyFn_rr_inDirection ..)⟩,
    ⟨encodes_of_row "RL" rfl (by decide), scalarFn_ok (applyFn_rl_inDirection ..)⟩⟩

/-- Settles O21: as O19, with the sign-extended immediate as second operand. -/
theorem scalarImmediateInteger : Obligations.ScalarImmediateInteger := fun _ _ _ =>
  ⟨⟨encodes_of_row "XORI" rfl (by decide), scalarFn_ok (applyFn_xor_inDirection ..)⟩,
    ⟨encodes_of_row "ADDI" rfl (by decide), scalarFn_ok (applyFn_add_inDirection ..)⟩,
    ⟨encodes_of_row "SUBI" rfl (by decide), scalarFn_ok (applyFn_sub_inDirection ..)⟩,
    ⟨encodes_of_row "RRI" rfl (by decide), scalarFn_ok (applyFn_rr_inDirection ..)⟩,
    ⟨encodes_of_row "RLI" rfl (by decide), scalarFn_ok (applyFn_rl_inDirection ..)⟩⟩

end Sys2Proof.Machine

/-! SUPPORT. The scalar instructions that multiply in one direction and divide in the other (`42_scalar_arith.md` R165,
R166, R177, R178), by the function that the direction selects. -/

namespace Sys2Proof.Machine

/-! ### When there is no quotient -/

theorem noQuotient_iff_toInt (a b : Word) :
    noQuotient a b ↔ b.toInt = 0 ∨ a.toInt = -2147483648 ∧ b.toInt = -1 :=
  or_congr BitVec.toInt_inj.symm (and_congr BitVec.toInt_inj.symm BitVec.toInt_inj.symm)

theorem fnDiv_of_noQuotient {a b : Word} (h : noQuotient a b) : fnDiv a b = .error .arithmeticFault := by
  obtain hzero | ⟨hleast, hone⟩ := (noQuotient_iff_toInt a b).mp h
  · exact fnDiv_of_zero hzero
  · exact fnDiv_of_overflow hleast hone

theorem fnDiv_of_not_noQuotient {a b : Word} (h : ¬ noQuotient a b) :
    fnDiv a b = .ok (wrap32 (a.toInt.tdiv b.toInt)) := by
  obtain ⟨hzero, hover⟩ := not_or.mp ((noQuotient_iff_toInt a b).not.mp h)
  exact fnDiv_of_quotient hzero hover

theorem sext32_inj {imm imm' : Imm16} : sext32 imm = sext32 imm' ↔ imm = imm' := by
  rw [← BitVec.toInt_inj, sext32_toInt, sext32_toInt, BitVec.toInt_inj]

/-- Sign extension keeps immediates apart, and takes 0 to 0 and `0xFFFF` to `0xFFFFFFFF`. -/
theorem noQuotient_sext32_iff (a : Word) (imm : Imm16) :
    noQuotient a (sext32 imm) ↔ imm = 0#16 ∨ imm = 0xFFFF#16 ∧ a = 0x80000000#32 := by
  have hzero : sext32 imm = 0#32 ↔ imm = 0#16 := sext32_inj (imm' := 0#16)
  have hones : sext32 imm = 0xFFFFFFFF#32 ↔ imm = 0xFFFF#16 := sext32_inj (imm' := 0xFFFF#16)
  rw [noQuotient, hzero, hones, and_comm]

/-! ### The two functions on a register -/

section
variable {f : Fn} {rd : XReg} {b : Word} {s : State}

theorem scalarFn_of_mul (hf : fnInDirection s.dir f = .mul) :
    scalarFn f rd b s = .next (s.setX rd (wrap32 ((s.getX rd).toInt * b.toInt))) :=
  scalarFn_ok (by rw [hf]; rfl)

theorem scalarFn_of_div (hf : fnInDirection s.dir f = .div) (h : ¬ noQuotient (s.getX rd) b) :
    scalarFn f rd b s = .next (s.setX rd (wrap32 ((s.getX rd).toInt.tdiv b.toInt))) :=
  scalarFn_ok (by rw [hf]; exact fnDiv_of_not_noQuotient h)

theorem scalarFn_of_div_noQuotient (hf : fnInDirection s.dir f = .div) (h : noQuotient (s.getX rd) b) :
    scalarFn f rd b s = .next { s with status := .error .arithmeticFault } :=
  scalarFn_error (by rw [hf]; exact fnDiv_of_noQuotient h)

end

/-- Settles O20: forward the function named, backward its inverse, so that one of them multiplies and one divides. -/
theorem scalarRegisterMultiplyDivide : Obligations.ScalarRegisterMultiplyDivide := fun _ _ _ =>
  ⟨⟨encodes_of_row "MUL" rfl (by decide),
      fun hd => scalarFn_of_mul (fnInDirection_of_forward hd .mul),
      fun hd => scalarFn_of_div (fnInDirection_of_backward hd .mul),
      fun hd => scalarFn_of_div_noQuotient (fnInDirection_of_backward hd .mul)⟩,
    ⟨encodes_of_row "DIV" rfl (by decide),
      fun hd => scalarFn_of_mul (fnInDirection_of_backward hd .div),
      fun hd => scalarFn_of_div (fnInDirection_of_forward hd .div),
      fun hd => scalarFn_of_div_noQuotient (fnInDirection_of_forward hd .div)⟩⟩

/-- Settles O22: as O20; the fault condition on the immediate is the one on its sign extension. -/
theorem scalarImmediateMultiplyDivide : Obligations.ScalarImmediateMultiplyDivide := by
  intro rd imm s
  rw [← noQuotient_sext32_iff]
  exact ⟨⟨encodes_of_row "MULI" rfl (by decide),
      fun hd => scalarFn_of_mul (fnInDirection_of_forward hd .mul),
      fun hd => scalarFn_of_div (fnInDirection_of_backward hd .mul),
      fun hd => scalarFn_of_div_noQuotient (fnInDirection_of_backward hd .mul)⟩,
    ⟨encodes_of_row "DIVI" rfl (by decide),
      fun hd => scalarFn_of_mul (fnInDirection_of_backward hd .div),
      fun hd => scalarFn_of_div (fnInDirection_of_forward hd .div),
      fun hd => scalarFn_of_div_noQuotient (fnInDirection_of_forward hd .div)⟩⟩

end Sys2Proof.Machine

/-! SUPPORT. The scalar float instructions (`42_scalar_arith.md` R169 to R172, R181 to R184): one binary32 operation per
direction, and the division by zero. -/

namespace Sys2Proof.Machine

/-- The finite result of the direction's operation goes to the register as far as `f2i` converts it. -/
theorem scalarFloat_of_scalarFn {i : Instr} {f : Fn} {rd : XReg} {b : Word} {s : State}
    {forward backward : Binary32 → Binary32 → Binary32} (hexec : exec i s = scalarFn f rd b s)
    (hforward : ∀ a, applyFn f a b = f2i (forward (i2f a) (i2f b)))
    (hbackward : ∀ a, applyFn (invFn f) a b = f2i (backward (i2f a) (i2f b))) :
    ScalarFloat i rd b forward backward s := by
  intro r hr
  have hresult : applyFn (fnInDirection s.dir f) (s.getX rd) b = f2i (.fin r) := by
    rw [← hr]
    cases s.dir with
    | forward => exact hforward _
    | backward => exact hbackward _
  rw [hexec]
  exact ⟨fun hfits => scalarFn_ok (hresult.trans (f2i_of_fits hfits)),
    fun hover => scalarFn_error (hresult.trans (f2i_of_not_fits hover))⟩

theorem scalarFn_of_fdiv_zero {f : Fn} {rd : XReg} {b : Word} {s : State} (hf : fnInDirection s.dir f = .fdiv)
    (hb : b = 0#32) : scalarFn f rd b s = .next { s with status := .error .arithmeticFault } :=
  scalarFn_error (by rw [hf, hb]; exact fnFdiv_zero _)

/-- Settles O23: each function's definition names its operation and its inverse's; a zero divisor is met by the function
that divides, forward in `FDIV` and backward in `FMUL`. -/
theorem scalarFloatInstructions : Obligations.ScalarFloatInstructions := fun _ _ _ _ =>
  ⟨⟨encodes_of_row "FADD" rfl (by decide), scalarFloat_of_scalarFn rfl (fun _ => rfl) fun _ => rfl⟩,
    ⟨encodes_of_row "FSUB" rfl (by decide), scalarFloat_of_scalarFn rfl (fun _ => rfl) fun _ => rfl⟩,
    ⟨encodes_of_row "FMUL" rfl (by decide), scalarFloat_of_scalarFn rfl (fun _ => rfl) fun _ => rfl,
      fun hd => scalarFn_of_fdiv_zero (fnInDirection_of_backward hd .fmul)⟩,
    ⟨encodes_of_row "FDIV" rfl (by decide), scalarFloat_of_scalarFn rfl (fun _ => rfl) fun _ => rfl,
      fun hd => scalarFn_of_fdiv_zero (fnInDirection_of_forward hd .fdiv)⟩,
    ⟨encodes_of_row "FADDI" rfl (by decide), scalarFloat_of_scalarFn rfl (fun _ => rfl) fun _ => rfl⟩,
    ⟨encodes_of_row "FSUBI" rfl (by decide), scalarFloat_of_scalarFn rfl (fun _ => rfl) fun _ => rfl⟩,
    ⟨encodes_of_row "FMULI" rfl (by decide), scalarFloat_of_scalarFn rfl (fun _ => rfl) fun _ => rfl,
      fun hd himm => scalarFn_of_fdiv_zero (fnInDirection_of_backward hd .fmul) (congrArg sext32 himm)⟩,
    ⟨encodes_of_row "FDIVI" rfl (by decide), scalarFloat_of_scalarFn rfl (fun _ => rfl) fun _ => rfl,
      fun hd himm => scalarFn_of_fdiv_zero (fnInDirection_of_forward hd .fdiv) (congrArg sext32 himm)⟩⟩

end Sys2Proof.Machine

/-! SUPPORT. The scalar conditional swap (`42_scalar_arith.md` R185, R186): the masks that exchange or keep everything,
and a register swapped with itself. -/

namespace Sys2Proof.Machine

@[simp] theorem State.setX_getX (s : State) (r : XReg) : s.setX r (s.getX r) = s := by
  simp [State.setX, State.getX]

theorem scalarCswap_of_eq {ra rb : XReg} {m y z : Word} {s : State} (h : fnCswap (s.getX ra) (s.getX rb) m = (y, z)) :
    scalarCswap ra rb m s = .next ((s.setX ra y).setX rb z) := by
  rw [scalarCswap, h]

theorem scalarCswap_allOnes (ra rb : XReg) (s : State) :
    scalarCswap ra rb 0xFFFFFFFF#32 s = .next ((s.setX ra (s.getX rb)).setX rb (s.getX ra)) :=
  scalarCswap_of_eq (fnCswap_allOnes ..)

theorem scalarCswap_zero (ra rb : XReg) (s : State) : scalarCswap ra rb 0#32 s = .next s := by
  rw [scalarCswap_of_eq (fnCswap_zero ..), State.setX_getX, State.setX_getX]

theorem fnCswap_same (a m : Word) : fnCswap a a m = (a, a) :=
  fnCswap_eq (fun _ _ => ite_self _) fun _ _ => ite_self _

theorem scalarCswap_same (r : XReg) (m : Word) (s : State) : scalarCswap r r m s = .next s := by
  rw [scalarCswap_of_eq (fnCswap_same ..), State.setX_getX, State.setX_getX]

/-- Settles O24: the body is the formula of R141 on the old values; the immediates -1 and 0 are the masks of R141. -/
theorem scalarConditionalSwap : Obligations.ScalarConditionalSwap := fun ra rb _ _ s =>
  ⟨⟨encodes_of_row "CSWAP" rfl (by decide), rfl⟩,
    ⟨encodes_of_row "CSWAPI" rfl (by decide), rfl⟩,
    scalarCswap_allOnes ra rb s, scalarCswap_zero ra rb s, scalarCswap_same ra _ s, scalarCswap_same ra _ s⟩

end Sys2Proof.Machine

/-! SUPPORT. The vector integer instructions (`43_vector_arith.md` R204 to R211, R216 to R222): each is the scalar
function of its direction on every lane (`vectorFn_ok`, `vectorFn_error`). -/

namespace Sys2Proof.Machine

/-- Settles O25: on every lane the equation of the scalar function in the state's direction. -/
theorem vectorRegisterInteger : Obligations.VectorRegisterInteger := fun _ _ _ =>
  ⟨⟨encodes_of_row "VXOR" rfl (by decide), vectorFn_ok fun _ => applyFn_xor_inDirection ..⟩,
    ⟨encodes_of_row "VNEG" rfl (by decide), vectorFn_ok fun _ => applyFn_neg_inDirection ..⟩,
    ⟨encodes_of_row "VADD" rfl (by decide), vectorFn_ok fun _ => applyFn_add_inDirection ..⟩,
    ⟨encodes_of_row "VSUB" rfl (by decide), vectorFn_ok fun _ => applyFn_sub_inDirection ..⟩,
    ⟨encodes_of_row "VRR" rfl (by decide), vectorFn_ok fun _ => applyFn_rr_inDirection ..⟩,
    ⟨encodes_of_row "VRL" rfl (by decide), vectorFn_ok fun _ => applyFn_rl_inDirection ..⟩⟩

/-- Settles O27: as O25, with the sign-extended immediate as second operand of every lane. -/
theorem vectorImmediateInteger : Obligations.VectorImmediateInteger := fun _ _ _ =>
  ⟨⟨encodes_of_row "VXORI" rfl (by decide), vectorFn_ok fun _ => applyFn_xor_inDirection ..⟩,
    ⟨encodes_of_row "VADDI" rfl (by decide), vectorFn_ok fun _ => applyFn_add_inDirection ..⟩,
    ⟨encodes_of_row "VSUBI" rfl (by decide), vectorFn_ok fun _ => applyFn_sub_inDirection ..⟩,
    ⟨encodes_of_row "VRRI" rfl (by decide), vectorFn_ok fun _ => applyFn_rr_inDirection ..⟩,
    ⟨encodes_of_row "VRLI" rfl (by decide), vectorFn_ok fun _ => applyFn_rl_inDirection ..⟩⟩

/-! ### The two functions on all lanes of a register -/

section
variable {f : Fn} {vd : VReg} {b : Lane → Word} {s : State}

theorem vectorFn_of_mul (hf : fnInDirection s.dir f = .mul) :
    vectorFn f vd b s = .next { s with
      v := s.v.set vd.toNat (Vector.ofFn fun l => wrap32 ((s.getLane vd l).toInt * (b l).toInt)) vd.isLt } :=
  vectorFn_ok fun _ => by rw [hf]; rfl

theorem vectorFn_of_div (hf : fnInDirection s.dir f = .div) (h : ¬ ∃ l, noQuotient (s.getLane vd l) (b l)) :
    vectorFn f vd b s = .next { s with
      v := s.v.set vd.toNat (Vector.ofFn fun l => wrap32 ((s.getLane vd l).toInt.tdiv (b l).toInt)) vd.isLt } :=
  vectorFn_ok fun l => by rw [hf]; exact fnDiv_of_not_noQuotient (not_exists.mp h l)

theorem vectorFn_of_div_noQuotient (hf : fnInDirection s.dir f = .div) (h : ∃ l, noQuotient (s.getLane vd l) (b l)) :
    vectorFn f vd b s = .next { s with status := .error .arithmeticFault } := by
  obtain ⟨l, hl⟩ := h
  exact vectorFn_error ⟨l, _, by rw [hf]; exact fnDiv_of_noQuotient hl⟩

end

/-- Settles O26: as O20 on every lane; one lane without a quotient faults the instruction. -/
theorem vectorRegisterMultiplyDivide : Obligations.VectorRegisterMultiplyDivide := fun _ _ _ =>
  ⟨⟨encodes_of_row "VMUL" rfl (by decide),
      fun hd => vectorFn_of_mul (fnInDirection_of_forward hd .mul),
      fun hd => vectorFn_of_div (fnInDirection_of_backward hd .mul),
      fun hd => vectorFn_of_div_noQuotient (fnInDirection_of_backward hd .mul)⟩,
    ⟨encodes_of_row "VDIV" rfl (by decide),
      fun hd => vectorFn_of_mul (fnInDirection_of_backward hd .div),
      fun hd => vectorFn_of_div (fnInDirection_of_forward hd .div),
      fun hd => vectorFn_of_div_noQuotient (fnInDirection_of_forward hd .div)⟩⟩

/-- An immediate 0 leaves every lane without a quotient, an immediate -1 the lanes that hold the least integer. -/
theorem exists_noQuotient_sext32_iff (a : Lane → Word) (imm : Imm16) :
    (∃ l, noQuotient (a l) (sext32 imm)) ↔ imm = 0#16 ∨ imm = 0xFFFF#16 ∧ ∃ l, a l = 0x80000000#32 := by
  simp only [noQuotient_sext32_iff, exists_or, exists_const, exists_and_left]

/-- Settles O28: as O26; the fault condition on the immediate is the one on its sign extension in some lane. -/
theorem vectorImmediateMultiplyDivide : Obligations.VectorImmediateMultiplyDivide := by
  intro vd imm s
  rw [← exists_noQuotient_sext32_iff]
  exact ⟨⟨encodes_of_row "VMULI" rfl (by decide),
      fun hd => vectorFn_of_mul (fnInDirection_of_forward hd .mul),
      fun hd => vectorFn_of_div (fnInDirection_of_backward hd .mul),
      fun hd => vectorFn_of_div_noQuotient (fnInDirection_of_backward hd .mul)⟩,
    ⟨encodes_of_row "VDIVI" rfl (by decide),
      fun hd => vectorFn_of_mul (fnInDirection_of_backward hd .div),
      fun hd => vectorFn_of_div (fnInDirection_of_forward hd .div),
      fun hd => vectorFn_of_div_noQuotient (fnInDirection_of_forward hd .div)⟩⟩

end Sys2Proof.Machine

/-! SUPPORT. The vector float instructions (`43_vector_arith.md` R212 to R215, R223 to R226): one binary32 operation per
lane and direction, and the division by zero in some lane. -/

namespace Sys2Proof.Machine

/-- The finite results of the direction's operation go to the lanes when `f2i` converts all of them. -/
theorem vectorFloat_of_vectorFn {i : Instr} {f : Fn} {vd : VReg} {b : Lane → Word} {s : State}
    {forward backward : Binary32 → Binary32 → Binary32} (hexec : exec i s = vectorFn f vd b s)
    (hforward : ∀ a c, applyFn f a c = f2i (forward (i2f a) (i2f c)))
    (hbackward : ∀ a c, applyFn (invFn f) a c = f2i (backward (i2f a) (i2f c))) :
    VectorFloat i vd b forward backward s := by
  intro r hr
  have hresult (l : Lane) : applyFn (fnInDirection s.dir f) (s.getLane vd l) (b l) = f2i (.fin (r l)) := by
    rw [← hr l]
    cases s.dir with
    | forward => exact hforward _ _
    | backward => exact hbackward _ _
  rw [hexec]
  exact ⟨fun hfits => vectorFn_ok fun l => (hresult l).trans (f2i_of_fits (hfits l)),
    fun ⟨l, hover⟩ => vectorFn_error ⟨l, _, (hresult l).trans (f2i_of_not_fits hover)⟩⟩

theorem vectorFn_of_fdiv_zero {f : Fn} {vd : VReg} {b : Lane → Word} {s : State} (hf : fnInDirection s.dir f = .fdiv)
    (hb : ∃ l, b l = 0#32) : vectorFn f vd b s = .next { s with status := .error .arithmeticFault } := by
  obtain ⟨l, hl⟩ := hb
  exact vectorFn_error ⟨l, _, by rw [hf, hl]; exact fnFdiv_zero _⟩

/-- Settles O29: as O23 on every lane; a zero immediate is a zero divisor in every lane, so in lane 0. -/
theorem vectorFloatInstructions : Obligations.VectorFloatInstructions := fun _ _ _ _ =>
  ⟨⟨encodes_of_row "VFADD" rfl (by decide), vectorFloat_of_vectorFn rfl (fun _ _ => rfl) fun _ _ => rfl⟩,
    ⟨encodes_of_row "VFSUB" rfl (by decide), vectorFloat_of_vectorFn rfl (fun _ _ => rfl) fun _ _ => rfl⟩,
    ⟨encodes_of_row "VFMUL" rfl (by decide), vectorFloat_of_vectorFn rfl (fun _ _ => rfl) fun _ _ => rfl,
      fun hd => vectorFn_of_fdiv_zero (fnInDirection_of_backward hd .fmul)⟩,
    ⟨encodes_of_row "VFDIV" rfl (by decide), vectorFloat_of_vectorFn rfl (fun _ _ => rfl) fun _ _ => rfl,
      fun hd => vectorFn_of_fdiv_zero (fnInDirection_of_forward hd .fdiv)⟩,
    ⟨encodes_of_row "VFADDI" rfl (by decide), vectorFloat_of_vectorFn rfl (fun _ _ => rfl) fun _ _ => rfl⟩,
    ⟨encodes_of_row "VFSUBI" rfl (by decide), vectorFloat_of_vectorFn rfl (fun _ _ => rfl) fun _ _ => rfl⟩,
    ⟨encodes_of_row "VFMULI" rfl (by decide), vectorFloat_of_vectorFn rfl (fun _ _ => rfl) fun _ _ => rfl,
      fun hd himm => vectorFn_of_fdiv_zero (fnInDirection_of_backward hd .fmul) ⟨0, congrArg sext32 himm⟩⟩,
    ⟨encodes_of_row "VFDIVI" rfl (by decide), vectorFloat_of_vectorFn rfl (fun _ _ => rfl) fun _ _ => rfl,
      fun hd himm => vectorFn_of_fdiv_zero (fnInDirection_of_forward hd .fdiv) ⟨0, congrArg sext32 himm⟩⟩⟩

end Sys2Proof.Machine

/-! SUPPORT. Loops that write the same lane of two vector registers, from values read before the loop: the vector
conditional swap (`43_vector_arith.md` R227, R228) and the vector exchange that the mask of all ones makes of it. -/

namespace Sys2Proof.Machine

/-! ### Writing all lanes of two registers -/

theorem State.setLane_comm {l m : Lane} (h : m ≠ l) (s : State) (q r : VReg) (u w : Word) :
    (s.setLane q l u).setLane r m w = (s.setLane r m w).setLane q l u := by
  have hv : ((s.setLane q l u).setLane r m w).v = ((s.setLane r m w).setLane q l u).v :=
    State.v_ext fun p n => by
      simp only [State.getLane_setLane]
      by_cases hn : n = l
      · simp [hn, h.symm]
      · simp [hn]
  exact State.ext_fields rfl rfl hv rfl rfl rfl rfl rfl rfl

/-- A write to a lane that the loop does not visit can come after the loop. -/
theorem foldl_setLane_comm (g : Lane → Word) (q r : VReg) {l : Lane} (w : Word) {ls : List Lane} (hl : l ∉ ls)
    (s : State) : ls.foldl (fun t m => t.setLane r m (g m)) (s.setLane q l w) =
      (ls.foldl (fun t m => t.setLane r m (g m)) s).setLane q l w := by
  induction ls generalizing s with
  | nil => rfl
  | cons m ls ih =>
    obtain ⟨hlm, hls⟩ := not_or.mp (List.mem_cons.not.mp hl)
    rw [List.foldl_cons, State.setLane_comm (Ne.symm hlm), ih hls, List.foldl_cons]

/-- One loop over two registers is the loop over the first and then the loop over the second. -/
theorem foldl_setLane_pair (g h : Lane → Word) (q r : VReg) {ls : List Lane} (hls : ls.Nodup) (s : State) :
    ls.foldl (fun t l => (t.setLane q l (g l)).setLane r l (h l)) s =
      ls.foldl (fun t l => t.setLane r l (h l)) (ls.foldl (fun t l => t.setLane q l (g l)) s) := by
  induction ls generalizing s with
  | nil => rfl
  | cons l ls ih =>
    obtain ⟨hl, hls⟩ := List.nodup_cons.mp hls
    simp only [List.foldl_cons]
    rw [ih hls, foldl_setLane_comm g r q _ hl]

/-- A loop that writes two words per lane sets the two registers, the second one last. -/
theorem forLanes_setLane_pair (g h : Lane → Word) (q r : VReg) (s : State) :
    forLanes (fun l t => .ok ((t.setLane q l (g l)).setLane r l (h l))) lanesUp s =
      .ok { s with v := (s.v.set q.toNat (Vector.ofFn g) q.isLt).set r.toNat (Vector.ofFn h) r.isLt } := by
  rw [forLanes_eq_foldl, foldl_setLane_pair g h q r nodup_lanesUp, foldl_setLane_all, foldl_setLane_all]
  rfl

theorem State.set_ofFn_getLane (s : State) (r : VReg) : s.v.set r.toNat (Vector.ofFn (s.getLane r)) r.isLt = s.v :=
  State.v_ext fun q m =>
    (getLane_set_ofFn (s.getLane r) r s q m).trans (ite_eq_right_iff.mpr fun hq => by rw [hq])

/-! ### The swap and the exchange -/

theorem vectorCswap_of_eq {va vb : VReg} {m y z : Lane → Word} {s : State}
    (h : ∀ l, fnCswap (s.getLane va l) (s.getLane vb l) (m l) = (y l, z l)) :
    vectorCswap va vb m s = .next { s with
      v := (s.v.set va.toNat (Vector.ofFn y) va.isLt).set vb.toNat (Vector.ofFn z) vb.isLt } := by
  simp only [vectorCswap, h]
  exact commit_ok (forLanes_setLane_pair y z va vb s)

theorem vectorCswap_eq (va vb : VReg) (m : Lane → Word) (s : State) :
    vectorCswap va vb m s = .next { s with
      v := (s.v.set va.toNat (Vector.ofFn fun l =>
          s.getLane va l ^^^ ((s.getLane va l ^^^ s.getLane vb l) &&& m l)) va.isLt).set vb.toNat
        (Vector.ofFn fun l => s.getLane vb l ^^^ ((s.getLane va l ^^^ s.getLane vb l) &&& m l)) vb.isLt } :=
  vectorCswap_of_eq fun _ => rfl

theorem execVexch_eq (vd vs : VReg) (s : State) :
    execVexch vd vs s = .next { s with
      v := (s.v.set vd.toNat (Vector.ofFn (s.getLane vs)) vd.isLt).set vs.toNat
        (Vector.ofFn (s.getLane vd)) vs.isLt } :=
  commit_ok (forLanes_setLane_pair ..)

theorem vectorCswap_allOnes (va vb : VReg) (s : State) :
    vectorCswap va vb (fun _ => 0xFFFFFFFF#32) s = execVexch va vb s := by
  rw [vectorCswap_of_eq fun _ => fnCswap_allOnes .., execVexch_eq]

theorem vectorCswap_same (r : VReg) (m : Lane → Word) (s : State) : vectorCswap r r m s = .next s := by
  rw [vectorCswap_of_eq fun _ => fnCswap_same .., Vector.set_set, State.set_ofFn_getLane]

/-- Settles O30: on every lane the formula of R141 on the old lanes; the immediate -1 is the mask of all ones. -/
theorem vectorConditionalSwap : Obligations.VectorConditionalSwap := fun va vb _ imm s =>
  ⟨⟨encodes_of_row "VCSWAP" rfl (by decide), vectorCswap_eq va vb _ s⟩,
    ⟨encodes_of_row "VCSWAPI" rfl (by decide), vectorCswap_eq va vb (fun _ => sext32 imm) s⟩,
    vectorCswap_allOnes va vb s, vectorCswap_same va _ s⟩

end Sys2Proof.Machine

/-! SUPPORT. The end of a step (`47_sequencer.md` R283 to R286): the program-counter update as one equation in integers,
and a step in terms of what the body of the fetched instruction answers. -/

namespace Sys2Proof.Machine

/-! ### The direction bit -/

theorem Direction.flip_eq_pick (d : Direction) : d.flip = d.pick .backward .forward := by
  cases d <;> rfl

theorem Direction.pick_flip {α : Type} (d : Direction) (a b : α) : d.flip.pick a b = d.pick b a := by
  cases d <;> rfl

/-! ### The program-counter update -/

theorem wrap32_toNat_add_toInt (p d : Word) : wrap32 ((p.toNat : Int) + d.toInt) = p + d := by
  rw [wrap32_add, wrap32_toNat, wrap32_toInt]

theorem wrap32_toNat_sub_toInt (p d : Word) : wrap32 ((p.toNat : Int) - d.toInt) = p - d := by
  rw [wrap32_sub, wrap32_toNat, wrap32_toInt]

/-- The update (R284) by the readings of R28: `br` moves `pc` when it is not zero, and is zero afterwards. -/
theorem advance_eq (s : State) : advance s = { s with
    pc := if s.br = 0#32 then s.dir.pick (wrap32 ((s.pc.toNat : Int) + 1)) (wrap32 ((s.pc.toNat : Int) - 1))
      else wrap32 ((s.pc.toNat : Int) + s.br.toInt)
    br := 0#32 } := by
  have hup : wrap32 ((s.pc.toNat : Int) + 1) = s.pc + 1#32 := wrap32_toNat_add_toInt s.pc 1#32
  have hdown : wrap32 ((s.pc.toNat : Int) - 1) = s.pc - 1#32 := wrap32_toNat_sub_toInt s.pc 1#32
  rw [hup, hdown, wrap32_toNat_add_toInt]
  by_cases hbr : s.br = 0#32
  · rw [advance, if_neg (not_not.mpr hbr), if_pos hbr, ← hbr]
    cases hdir : s.dir <;> rfl
  · rw [advance, if_pos hbr, if_neg hbr]

/-! ### The step, by the answer of the body -/

theorem afterBody_of_running {t : State} (hrun : t.status = .running) (hgsp : t.gsp ≤ t.cfg.gSize) :
    afterBody t = advance t := by
  simp only [afterBody, hrun, checkGarbage, advance_gsp, advance_cfg, if_neg (Nat.not_lt.mpr hgsp)]

theorem Fetches.running {s : State} {i : Instr} (hf : Fetches s i) : s.status = .running := hf.1

theorem step_of_fetches {s t : State} {i : Instr} (hf : Fetches s i) (hexec : exec i s = .next t) :
    step s = .next (afterBody t) := by
  obtain ⟨hrun, hpc, hdecode⟩ := hf
  simp only [step, hrun, fetchInstr_ok hpc hdecode, hexec, finishStep]

/-- The step of a body that goes on with the garbage stack within its capacity. -/
theorem step_of_fetches_running {s t : State} {i : Instr} (hf : Fetches s i) (hexec : exec i s = .next t)
    (hrun : t.status = .running) (hgsp : t.gsp ≤ t.cfg.gSize) : step s = .next (advance t) := by
  rw [step_of_fetches hf hexec, afterBody_of_running hrun hgsp]

end Sys2Proof.Machine

/-! SUPPORT. The branches (`44_control.md` R240 to R250): each is the branch template on the offset and condition that
`branchCase` lists for it, as a body and as a step. -/

namespace Sys2Proof.Machine

/-! ### The template -/

theorem branch_taken (off : Imm16) (s : State) :
    branch true off s = .next { s with br := s.dir.pick (s.br + sext32 off) (s.br - sext32 off) } := by
  cases hdir : s.dir <;> simp only [branch, hdir] <;> rfl

theorem branch_not_taken (off : Imm16) (s : State) : branch false off s = .next s := rfl

/-! ### The conditions on bit 0 -/

theorem condOdd_eq (a : Word) : condOdd a = decide (a.toNat % 2 = 1) := Nat.testBit_zero _

theorem condEven_eq (a : Word) : condEven a = decide (a.toNat % 2 = 0) := by
  rw [show condEven a = !condOdd a from rfl, condOdd_eq, ← decide_not, decide_eq_decide]
  exact Nat.mod_two_ne_one

/-! ### The bodies -/

/-- The conditions of the model are those of `branchCase`, for the two parities by their readings as numbers. -/
theorem exec_of_branchCase {i : Instr} {s : State} {off : Imm16} {taken : Bool}
    (h : branchCase i s = some (off, taken)) : exec i s = branch taken off s := by
  cases i with
  | blt | bltu | bge | bgeu | beq | bne => cases h; rfl
  | bevn => cases h; exact congrArg (branch · off s) (condEven_eq _)
  | bodd => cases h; exact congrArg (branch · off s) (condOdd_eq _)
  | _ => cases h

theorem branchesWhen_of_branchCase {i : Instr} {cond : Prop} [Decidable cond] {off : Imm16} {s : State}
    (h : branchCase i s = some (off, decide cond)) : BranchesWhen i cond off s := by
  have hexec := exec_of_branchCase h
  constructor
  · intro hcond
    rw [hexec, decide_eq_true hcond, branch_taken, sext32]
  · intro hcond
    rw [hexec, decide_eq_false hcond, branch_not_taken]

/-- Settles O31: the row of each mnemonic, and the branch template on the offset and condition of each branch. -/
theorem branchesAccumulateTheOffset : Obligations.BranchesAccumulateTheOffset := fun _ _ _ _ _ =>
  ⟨⟨encodes_of_row "BLT" rfl (by decide), branchesWhen_of_branchCase rfl⟩,
    ⟨encodes_of_row "BLTU" rfl (by decide), branchesWhen_of_branchCase rfl⟩,
    ⟨encodes_of_row "BGE" rfl (by decide), branchesWhen_of_branchCase rfl⟩,
    ⟨encodes_of_row "BGEU" rfl (by decide), branchesWhen_of_branchCase rfl⟩,
    ⟨encodes_of_row "BEQ" rfl (by decide), branchesWhen_of_branchCase rfl⟩,
    ⟨encodes_of_row "BNE" rfl (by decide), branchesWhen_of_branchCase rfl⟩,
    ⟨encodes_of_row "BEVN" rfl (by decide), branchesWhen_of_branchCase rfl⟩,
    ⟨encodes_of_row "BODD" rfl (by decide), branchesWhen_of_branchCase rfl⟩⟩

/-! ### The steps -/

theorem sext32_eq_zero_iff (off : Imm16) : sext32 off = 0#32 ↔ off = 0#16 :=
  sext32_inj (imm' := 0#16)

/-- The signed delta that a taken branch leaves in `br` is zero only for offset 0. -/
theorem pick_sext32_eq_zero_iff (d : Direction) (off : Imm16) :
    d.pick (0#32 + sext32 off) (0#32 - sext32 off) = 0#32 ↔ off = 0#16 := by
  cases d with
  | forward => rw [Direction.pick, BitVec.zero_add, sext32_eq_zero_iff]
  | backward => rw [Direction.pick, BitVec.zero_sub, BitVec.neg_eq_zero_iff, sext32_eq_zero_iff]

/-- Adding that delta to an index adds the offset forward and subtracts it backward. -/
theorem wrap32_add_pick_sext32 (d : Direction) (p : Word) (off : Imm16) :
    wrap32 ((p.toNat : Int) + (d.pick (0#32 + sext32 off) (0#32 - sext32 off)).toInt) =
      d.pick (wrap32 ((p.toNat : Int) + off.toInt)) (wrap32 ((p.toNat : Int) - off.toInt)) := by
  rw [wrap32_toNat_add_toInt, ← sext32_toInt, wrap32_toNat_add_toInt, wrap32_toNat_sub_toInt]
  cases d with
  | forward => rw [Direction.pick, Direction.pick, BitVec.zero_add]
  | backward => rw [Direction.pick, Direction.pick, BitVec.zero_sub, BitVec.sub_eq_add_neg]

theorem step_branch {s : State} {i : Instr} {off : Imm16} {taken : Bool} (hf : Fetches s i) (hbr : s.br = 0#32)
    (hgsp : s.gsp ≤ s.cfg.gSize) (hcase : branchCase i s = some (off, taken)) :
    step s = .next { s with
      pc := if taken = true ∧ off ≠ 0#16 then
          s.dir.pick (wrap32 ((s.pc.toNat : Int) + off.toInt)) (wrap32 ((s.pc.toNat : Int) - off.toInt))
        else s.dir.pick (wrap32 ((s.pc.toNat : Int) + 1)) (wrap32 ((s.pc.toNat : Int) - 1)) } := by
  have hexec := exec_of_branchCase hcase
  cases taken with
  | false =>
    rw [branch_not_taken] at hexec
    rw [step_of_fetches_running hf hexec hf.running hgsp, advance_eq, if_pos hbr, hbr]
    rfl
  | true =>
    rw [branch_taken, hbr] at hexec
    rw [step_of_fetches_running hf hexec hf.running hgsp, advance_eq]
    simp only [pick_sext32_eq_zero_iff, wrap32_add_pick_sext32, true_and, ite_not, hbr]

/-- Settles O32: the delta in `br` is zero exactly when the branch falls through, and a target outside memory raises at
the next fetch. -/
theorem branchTargets : Obligations.BranchTargets := fun _ _ _ _ hf hbr hgsp hcase =>
  ⟨_, step_branch hf hbr hgsp hcase, rfl, step_of_pc_outside hf.running⟩

end Sys2Proof.Machine

/-! SUPPORT. The branch-register swaps and the halt (`44_control.md` R251 to R253). -/

namespace Sys2Proof.Machine

theorem exec_swb (rd : XReg) (s : State) :
    exec (.swb rd) s = .next { s with x := s.x.set rd.toNat s.br rd.isLt, br := s.getX rd } := rfl

theorem exec_rswb (rd : XReg) (s : State) :
    exec (.rswb rd) s = .next { s with
      x := s.x.set rd.toNat s.br rd.isLt, br := s.getX rd, dir := s.dir.pick .backward .forward } := by
  rw [← Direction.flip_eq_pick]
  rfl

/-- Settles O33: from a step boundary the exchange moves the register into an empty `br`, by which the step advances. -/
theorem branchRegisterSwap : Obligations.BranchRegisterSwap := by
  refine ⟨fun rd s => ⟨encodes_of_row "SWB" rfl (by decide), exec_swb rd s⟩, fun rd s hf hbr hgsp => ?step⟩
  case step => rw [step_of_fetches_running hf (exec_swb rd s) hf.running hgsp, advance_eq, hbr]

/-- Settles O34: as O33, with the update made in the flipped direction. -/
theorem branchRegisterSwapAndReverse : Obligations.BranchRegisterSwapAndReverse := by
  refine ⟨fun rd s => ⟨encodes_of_row "RSWB" rfl (by decide), exec_rswb rd s⟩, fun rd s hf hbr hgsp => ?step⟩
  case step =>
    rw [step_of_fetches_running hf (exec_rswb rd s) hf.running hgsp, advance_eq, hbr, ← Direction.flip_eq_pick,
      Direction.pick_flip]

theorem eq_zero_of_decode_halt {w : Word} (h : decode w = .ok .halt) : w = 0#32 :=
  (encode_of_decode h).symm

theorem step_ne_next_of_halted {s : State} (hs : s.status = .halted) (t : State) : step s ≠ .next t := by
  simp [step, hs]

/-- Settles O35: a decoded word is the encoding of its instruction, and the sequencer leaves a halted body as it is. -/
theorem haltStopsTheRun : Obligations.HaltStopsTheRun :=
  ⟨encodes_of_row "HALT" rfl (by decide), fun _ => eq_zero_of_decode_halt, fun _ => rfl,
    fun _ hf => step_of_fetches hf rfl, fun _ t hs => step_ne_next_of_halted hs t⟩

end Sys2Proof.Machine

/-! SUPPORT. The register exchanges (`45_exchange.md` R261, R262) on one register named twice. -/

namespace Sys2Proof.Machine

theorem execExch_same (r : XReg) (s : State) : execExch r r s = .next s := by
  rw [execExch, State.setX_getX, State.setX_getX]

theorem execVexch_same (r : VReg) (s : State) : execVexch r r s = .next s :=
  (vectorCswap_allOnes r r s).symm.trans (vectorCswap_same r _ s)

/-- Settles O36: the row of each mnemonic and the two writes of each body, the second from a value read before the
first. -/
theorem registerExchanges : Obligations.RegisterExchanges := fun rd _ vd vs s =>
  ⟨⟨encodes_of_row "EXCH" rfl (by decide), rfl, execExch_same rd s⟩,
    ⟨encodes_of_row "VEXCH" rfl (by decide), execVexch_eq vd vs s, execVexch_same vd s⟩⟩

end Sys2Proof.Machine

/-! SUPPORT. The exchanges with memory (`45_exchange.md` R263, R264): each body with its addresses inside memory, and the
fault when one lies outside. -/

namespace Sys2Proof.Machine

section

variable {rs : XReg} {off : Imm16} {s : State}

/-! ### One word -/

theorem execMexch_inside (rd : XReg) (h0 : 0 ≤ effectiveAddress rs off s)
    (hw : effectiveAddress rs off s < s.cfg.words) :
    execMexch rd rs off s = .next { s with
      x := s.x.set rd.toNat (s.mem.read (effectiveAddress rs off s).toNat) rd.isLt
      mem := s.mem.write (effectiveAddress rs off s).toNat (s.getX rd) } := by
  refine commit_ok ?_
  simp only [memRead_eq, memWrite_eq, if_pos (And.intro h0 hw)]
  rfl

theorem execMexch_outside (rd : XReg)
    (h : effectiveAddress rs off s < 0 ∨ (s.cfg.words : Int) ≤ effectiveAddress rs off s) :
    execMexch rd rs off s = .next { s with status := .error .addressOutOfBounds } := by
  refine commit_error ?_
  dsimp only
  rw [memRead_eq, if_neg (by omega)]
  rfl

/-! ### One word per lane -/

/-- The loop of R264 with its check passed, on all lanes. -/
theorem execVmexch_inside (vd : VReg) (hwf : s.mem.wf = true) (h0 : 0 ≤ effectiveAddress rs off s)
    (hw : effectiveAddress rs off s + 31 < s.cfg.words) :
    ∃ m : Memory, m.wf = true ∧
      execVmexch vd rs off s = .next { s with
        v := s.v.set vd.toNat
          (Vector.ofFn fun l : Lane => s.mem.read ((effectiveAddress rs off s).toNat + l.val)) vd.isLt
        mem := m } ∧
      (∀ l : Lane, m.read ((effectiveAddress rs off s).toNat + l.val) = s.getLane vd l) ∧
      (∀ a : Nat, (∀ l : Lane, a ≠ (effectiveAddress rs off s).toNat + l.val) → m.read a = s.mem.read a) := by
  obtain ⟨m, hm, hrun, hin, hout⟩ := forLanes_exchange (vd := vd) lanesUp 0 s ascending_lanesUp hwf h0 (by omega)
  rw [foldl_setLane_all] at hrun
  refine ⟨m, hm, commit_ok ?_, fun l => hin l (mem_lanesUp l), fun a ha => hout a fun l _ => ha l⟩
  dsimp only
  rw [requireInBounds_eq, if_pos (by omega)]
  exact hrun

theorem execVmexch_outside (vd : VReg)
    (h : effectiveAddress rs off s < 0 ∨ (s.cfg.words : Int) ≤ effectiveAddress rs off s + 31) :
    execVmexch vd rs off s = .next { s with status := .error .addressOutOfBounds } := by
  refine commit_error ?_
  dsimp only
  rw [requireInBounds_eq, if_neg (by omega)]
  rfl

end

/-- Settles O37: the memory after the exchange is one write, by the read-after-write rule. -/
theorem memoryExchange : Obligations.MemoryExchange := fun rd _ _ _ hwf =>
  ⟨encodes_of_row "MEXCH" rfl (by decide),
    fun h0 hw => ⟨_, Memory.write_wf hwf .., execMexch_inside rd h0 hw, fun a => Memory.read_write hwf _ a _⟩,
    execMexch_outside rd⟩

/-- Settles O38: the one check covers all 32 lanes, so the loop runs through or does not start. -/
theorem vectorMemoryExchange : Obligations.VectorMemoryExchange := fun vd _ _ _ hwf =>
  ⟨encodes_of_row "VMEXCH" rfl (by decide), execVmexch_inside vd hwf, execVmexch_outside vd⟩

end Sys2Proof.Machine

/-! SUPPORT. The deletes (`46_delete.md` R271 to R274): the outcome of each check they make before their first write, and
each body in each direction when its checks pass. -/

namespace Sys2Proof.Machine

theorem Direction.forward_or_backward (d : Direction) : d = .forward ∨ d = .backward := by
  cases d with
  | forward => exact .inl rfl
  | backward => exact .inr rfl

/-! ### The checks -/

section

variable {ea : Int} {n : Nat} {s : State}

theorem requireInBounds_outside (h : ea < 0 ∨ (s.cfg.words : Int) < ea + n) :
    requireInBounds ea n s = .error .addressOutOfBounds := by
  rw [requireInBounds_eq, if_neg (by omega)]

theorem requireInBounds_inside (h0 : 0 ≤ ea) (hw : ea + n ≤ s.cfg.words) : requireInBounds ea n s = .ok () := by
  rw [requireInBounds_eq, if_pos ⟨h0, hw⟩]

theorem requireRoom_full (h : s.cfg.gSize < s.gsp + n) : requireRoom n s = .error .garbageOverflow := by
  rw [requireRoom_eq, if_neg (by omega)]

theorem requireRoom_room (h : s.gsp + n ≤ s.cfg.gSize) : requireRoom n s = .ok () := by
  rw [requireRoom_eq, if_pos h]

theorem requireHeld_short (h : s.gsp < n) : requireHeld n s = .error .garbageUnderflow := by
  rw [requireHeld_eq, if_neg (by omega)]

theorem requireHeld_held (h : n ≤ s.gsp) : requireHeld n s = .ok () := by
  rw [requireHeld_eq, if_pos h]

end

/-! ### DEL -/

section

variable {s : State} (rd : XReg)

theorem execDel_push (hdir : s.dir = .forward) (hroom : s.gsp < s.cfg.gSize) :
    execDel rd s = .next ((s.afterPush (s.getX rd)).setX rd 0#32) := by
  rw [execDel_forward hdir, pushGarbage_room hroom]
  rfl

theorem execDel_full (hdir : s.dir = .forward) (hfull : s.cfg.gSize ≤ s.gsp) :
    execDel rd s = .next { s with status := .error .garbageOverflow } := by
  rw [execDel_forward hdir, pushGarbage_full hfull]
  rfl

theorem execDel_pop (hdir : s.dir = .backward) (hheld : 0 < s.gsp) :
    execDel rd s = .next (s.afterPop.setX rd s.newest) := by
  rw [execDel_backward hdir, popGarbage_nonempty hheld]
  rfl

theorem execDel_empty (hdir : s.dir = .backward) (hempty : s.gsp = 0) :
    execDel rd s = .next { s with status := .error .garbageUnderflow } := by
  rw [execDel_backward hdir, popGarbage_empty hempty]
  rfl

end

/-- Settles O39: the body is one call of the garbage stack and one register write, the new memory being the write at the
slot. -/
theorem deleteRegister : Obligations.DeleteRegister := by
  intro rd s hwf
  refine ⟨encodes_of_row "DEL" rfl (by decide), fun hdir hroom => ?push, execDel_full rd, fun hdir hheld => ?pop,
    execDel_empty rd⟩
  case push => exact ⟨_, Memory.write_wf hwf .., execDel_push rd hdir hroom, fun a => Memory.read_write hwf _ a _⟩
  case pop => exact ⟨_, Memory.write_wf hwf .., execDel_pop rd hdir hheld, fun a => Memory.read_write hwf _ a _⟩

/-! ### MDEL -/

section

variable {rs : XReg} {off : Imm16} {s : State}

/-- In either direction the address is checked before the stack. -/
theorem execMdel_outside (h : effectiveAddress rs off s < 0 ∨ (s.cfg.words : Int) ≤ effectiveAddress rs off s) :
    execMdel rs off s = .next { s with status := .error .addressOutOfBounds } := by
  have hcheck : requireInBounds (effectiveAddress rs off s) 1 s = .error .addressOutOfBounds :=
    requireInBounds_outside (by omega)
  rcases s.dir.forward_or_backward with hdir | hdir
  · rw [execMdel_forward hdir, hcheck]; rfl
  · rw [execMdel_backward hdir, hcheck]; rfl

theorem execMdel_full (h0 : 0 ≤ effectiveAddress rs off s) (hw : effectiveAddress rs off s < s.cfg.words)
    (hdir : s.dir = .forward) (hfull : s.cfg.gSize ≤ s.gsp) :
    execMdel rs off s = .next { s with status := .error .garbageOverflow } := by
  rw [execMdel_forward hdir, requireInBounds_inside h0 hw, requireRoom_full (by omega)]
  rfl

theorem execMdel_empty (h0 : 0 ≤ effectiveAddress rs off s) (hw : effectiveAddress rs off s < s.cfg.words)
    (hdir : s.dir = .backward) (hempty : s.gsp = 0) :
    execMdel rs off s = .next { s with status := .error .garbageUnderflow } := by
  rw [execMdel_backward hdir, requireInBounds_inside h0 hw, requireHeld_short (by omega)]
  rfl

theorem execMdel_push (h0 : 0 ≤ effectiveAddress rs off s) (hw : effectiveAddress rs off s < s.cfg.words)
    (hdir : s.dir = .forward) (hroom : s.gsp < s.cfg.gSize) :
    execMdel rs off s = .next { s with
      mem := (s.mem.write (effectiveAddress rs off s).toNat 0#32).write (slotIndex s.cfg s.gsp)
        (s.mem.read (effectiveAddress rs off s).toNat)
      gsp := s.gsp + 1 } := by
  rw [execMdel_forward hdir, requireInBounds_inside h0 hw, requireRoom_room hroom, memRead_inside h0 hw,
    memWrite_inside h0 hw]
  exact commit_ok (pushGarbage_room
    (s := { s with mem := s.mem.write (effectiveAddress rs off s).toNat 0#32 }) hroom _)

theorem execMdel_pop (h0 : 0 ≤ effectiveAddress rs off s) (hw : effectiveAddress rs off s < s.cfg.words)
    (hdir : s.dir = .backward) (hheld : 0 < s.gsp) :
    execMdel rs off s = .next { s with
      mem := (s.mem.write (slotIndex s.cfg (s.gsp - 1)) 0#32).write (effectiveAddress rs off s).toNat
        (s.mem.read (slotIndex s.cfg (s.gsp - 1)))
      gsp := s.gsp - 1 } := by
  rw [execMdel_backward hdir, requireInBounds_inside h0 hw, requireHeld_held hheld, popGarbage_nonempty hheld]
  exact commit_ok (memWrite_inside (s := s.afterPop) h0 hw _)

end

/-- Settles O40: the two writes of a move that passed its checks are `moveWord`, whichever cells they meet. -/
theorem deleteMemory : Obligations.DeleteMemory := by
  intro rs off s hwf
  refine ⟨encodes_of_row "MDEL" rfl (by decide), execMdel_outside, fun h0 hw =>
    ⟨execMdel_full h0 hw, execMdel_empty h0 hw, fun hdir hroom => ?push, fun hdir hheld => ?pop⟩⟩
  case push =>
    exact ⟨_, Memory.write_wf (Memory.write_wf hwf ..) .., execMdel_push h0 hw hdir hroom, moveWord_write hwf ..⟩
  case pop =>
    exact ⟨_, Memory.write_wf (Memory.write_wf hwf ..) .., execMdel_pop h0 hw hdir hheld, moveWord_write hwf ..⟩

/-! ### VDEL -/

section

variable {s : State} (vd : VReg)

theorem execVdel_full (hdir : s.dir = .forward) (hfull : s.cfg.gSize < s.gsp + 32) :
    execVdel vd s = .next { s with status := .error .garbageOverflow } := by
  rw [execVdel_forward hdir, requireRoom_full hfull]
  rfl

theorem execVdel_short (hdir : s.dir = .backward) (hshort : s.gsp < 32) :
    execVdel vd s = .next { s with status := .error .garbageUnderflow } := by
  rw [execVdel_backward hdir, requireHeld_short hshort]
  rfl

theorem ofFn_zero_eq_replicate : (Vector.ofFn fun _ : Lane => 0#32) = Vector.replicate 32 0#32 :=
  Vector.ext fun _ _ => by rw [Vector.getElem_ofFn, Vector.getElem_replicate]

/-- The upward loop of R273 with its check passed, on all lanes. -/
theorem execVdel_push (hwf : s.mem.wf = true) (hdir : s.dir = .forward) (hroom : s.gsp + 32 ≤ s.cfg.gSize) :
    ∃ m : Memory, m.wf = true ∧
      execVdel vd s = .next { s with
        v := s.v.set vd.toNat (Vector.replicate 32 0#32) vd.isLt, mem := m, gsp := s.gsp + 32 } ∧
      (∀ l : Lane, m.read (slotIndex s.cfg (s.gsp + l.val)) = s.getLane vd l) ∧
      (∀ a : Nat, (∀ l : Lane, a ≠ slotIndex s.cfg (s.gsp + l.val)) → m.read a = s.mem.read a) := by
  obtain ⟨m, hm, hrun, hin, hout⟩ :=
    forLanes_pushUp (vd := vd) s.gsp lanesUp 0 s ascending_lanesUp hwf rfl hroom
  rw [foldl_setLane_all, ofFn_zero_eq_replicate] at hrun
  refine ⟨m, hm, ?_, fun l => hin l (mem_lanesUp l), fun a ha => hout a fun l _ => ha l⟩
  rw [execVdel_forward hdir, requireRoom_room hroom]
  exact commit_ok hrun

/-- The downward loop of R273 with its check passed, on all lanes. -/
theorem execVdel_pop (hwf : s.mem.wf = true) (hcap : s.gsp ≤ s.cfg.gSize) (hdir : s.dir = .backward)
    (hheld : 32 ≤ s.gsp) :
    ∃ m : Memory, m.wf = true ∧
      execVdel vd s = .next { s with
        v := s.v.set vd.toNat
          (Vector.ofFn fun l : Lane => s.mem.read (slotIndex s.cfg (s.gsp - 32 + l.val))) vd.isLt
        mem := m, gsp := s.gsp - 32 } ∧
      (∀ l : Lane, m.read (slotIndex s.cfg (s.gsp - 32 + l.val)) = 0#32) ∧
      (∀ a : Nat, (∀ l : Lane, a ≠ slotIndex s.cfg (s.gsp - 32 + l.val)) → m.read a = s.mem.read a) := by
  have hgsp : s.gsp = s.gsp - 32 + 0 + 32 := by omega
  obtain ⟨m, hm, hrun, hin, hout⟩ :=
    forLanes_popDown (vd := vd) (s.gsp - 32) lanesUp 0 s ascending_lanesUp hwf hgsp hcap
  rw [← lanesDown, foldl_setLane_complete _ _ _ mem_lanesDown] at hrun
  refine ⟨m, hm, ?_, fun l => hin l (mem_lanesUp l), fun a ha => hout a fun l _ => ha l⟩
  rw [execVdel_backward hdir, requireHeld_held hheld]
  exact commit_ok hrun

end

/-- Settles O41: the one check covers all 32 lanes, so the loop runs through or does not start. -/
theorem deleteVector : Obligations.DeleteVector := fun vd _ hwf hcap =>
  ⟨encodes_of_row "VDEL" rfl (by decide), execVdel_push vd hwf, execVdel_full vd, execVdel_pop vd hwf hcap,
    execVdel_short vd⟩

/-! ### VMDEL -/

section

variable {rs : XReg} {off : Imm16} {s : State}

/-- In either direction the block is checked before the stack. -/
theorem execVmdel_outside (h : effectiveAddress rs off s < 0 ∨ (s.cfg.words : Int) ≤ effectiveAddress rs off s + 31) :
    execVmdel rs off s = .next { s with status := .error .addressOutOfBounds } := by
  have hcheck : requireInBounds (effectiveAddress rs off s) 32 s = .error .addressOutOfBounds :=
    requireInBounds_outside (by omega)
  rcases s.dir.forward_or_backward with hdir | hdir
  · rw [execVmdel_forward hdir, hcheck]; rfl
  · rw [execVmdel_backward hdir, hcheck]; rfl

theorem execVmdel_full (h0 : 0 ≤ effectiveAddress rs off s) (hw : effectiveAddress rs off s + 31 < s.cfg.words)
    (hdir : s.dir = .forward) (hfull : s.cfg.gSize < s.gsp + 32) :
    execVmdel rs off s = .next { s with status := .error .garbageOverflow } := by
  rw [execVmdel_forward hdir, requireInBounds_inside h0 (by omega), requireRoom_full hfull]
  rfl

theorem execVmdel_short (h0 : 0 ≤ effectiveAddress rs off s) (hw : effectiveAddress rs off s + 31 < s.cfg.words)
    (hdir : s.dir = .backward) (hshort : s.gsp < 32) :
    execVmdel rs off s = .next { s with status := .error .garbageUnderflow } := by
  rw [execVmdel_backward hdir, requireInBounds_inside h0 (by omega), requireHeld_short hshort]
  rfl

/-- The upward loop of R274 with its checks passed, on all lanes. -/
theorem execVmdel_push (hwf : s.mem.wf = true) (h0 : 0 ≤ effectiveAddress rs off s)
    (hw : effectiveAddress rs off s + 31 < s.cfg.words) (hdir : s.dir = .forward)
    (hroom : s.gsp + 32 ≤ s.cfg.gSize) :
    ∃ m : Memory, m.wf = true ∧
      execVmdel rs off s = .next { s with mem := m, gsp := s.gsp + 32 } ∧
      m.read = moveLanes (fun l => (effectiveAddress rs off s).toNat + l.val)
        (fun l => slotIndex s.cfg (s.gsp + l.val)) lanesUp s.mem.read := by
  have hblock : effectiveAddress rs off s + 32 ≤ s.cfg.words := by omega
  obtain ⟨m, hm, hrun, hread⟩ := forLanes_moveUp s.gsp lanesUp 0 s ascending_lanesUp hwf rfl hroom h0 hblock
  refine ⟨m, hm, ?_, hread⟩
  rw [execVmdel_forward hdir, requireInBounds_inside h0 hblock, requireRoom_room hroom]
  exact commit_ok hrun

/-- The downward loop of R274 with its checks passed, on all lanes. -/
theorem execVmdel_pop (hwf : s.mem.wf = true) (h0 : 0 ≤ effectiveAddress rs off s)
    (hw : effectiveAddress rs off s + 31 < s.cfg.words) (hdir : s.dir = .backward) (hheld : 32 ≤ s.gsp) :
    ∃ m : Memory, m.wf = true ∧
      execVmdel rs off s = .next { s with mem := m, gsp := s.gsp - 32 } ∧
      m.read = moveLanes (fun l => slotIndex s.cfg (s.gsp - 32 + l.val))
        (fun l => (effectiveAddress rs off s).toNat + l.val) lanesDown s.mem.read := by
  have hblock : effectiveAddress rs off s + 32 ≤ s.cfg.words := by omega
  have hgsp : s.gsp = s.gsp - 32 + 0 + 32 := by omega
  obtain ⟨m, hm, hrun, hread⟩ := forLanes_moveDown (s.gsp - 32) lanesUp 0 s ascending_lanesUp hwf hgsp h0 hblock
  refine ⟨m, hm, ?_, hread⟩
  rw [execVmdel_backward hdir, requireInBounds_inside h0 hblock, requireHeld_held hheld]
  exact commit_ok hrun

end

/-- Settles O42: the checks cover the whole block and all 32 slots, so the loop runs through or does not start; the
loops' own lemmas follow it move by move. -/
theorem deleteVectorMemory : Obligations.DeleteVectorMemory := fun _ _ _ hwf _ =>
  ⟨encodes_of_row "VMDEL" rfl (by decide), execVmdel_outside, fun h0 hw =>
    ⟨execVmdel_full h0 hw, execVmdel_short h0 hw, execVmdel_push hwf h0 hw, execVmdel_pop hwf h0 hw⟩⟩

end Sys2Proof.Machine

/-! SUPPORT. Settling O3 and O4: the decoder and the encoder are inverse to each other (`40_decoder.md` section 4). -/

namespace Sys2Proof

/-- Settles O3: stage one reads the opcode back, stage two the operands. -/
theorem encodedInstructionDecodesBack : Obligations.EncodedInstructionDecodesBack := decode_encode

/-- Settles O4: stage two writes into the instruction, or checks, every field of the word other than the opcode. -/
theorem decodedWordReencodes : Obligations.DecodedWordReencodes := fun _ _ => encode_of_decode

end Sys2Proof

/-! SUPPORT. What an instruction body can do, said once for all 69 instructions (`10_state.md` R43, `60_exceptions.md`
R300, R304): it halts, or it raises a kind that R300 lists for it, or it runs to its end and then has written only what
R43 lists for its opcode. -/

namespace Sys2Proof.Machine

/-! ### Computations that can raise -/

/-- The computation gives a result that satisfies `Q`, or raises a kind that satisfies `E`. -/
def Yields {α : Type} (Q : α → Prop) (E : ErrorKind → Prop) (r : Except ErrorKind α) : Prop :=
  match r with
  | .ok a => Q a
  | .error k => E k

theorem Yields.bind {α β : Type} {P : α → Prop} {Q : β → Prop} {E : ErrorKind → Prop} {r : Except ErrorKind α}
    {f : α → Except ErrorKind β} (h : Yields P E r) (hf : ∀ a, P a → Yields Q E (f a)) : Yields Q E (r >>= f) := by
  cases r with
  | ok a => exact hf a h
  | error k => exact h

theorem Yields.ite {α : Type} {Q : α → Prop} {E : ErrorKind → Prop} {p : Prop} [Decidable p] {a : α} {k : ErrorKind}
    (ha : p → Q a) (hk : E k) : Yields Q E (if p then .ok a else .error k) := by
  split
  next hp => exact ha hp
  next => exact hk

/-- A property that every lane's body keeps, raising only kinds in `E`, is what the loop yields. -/
theorem Yields.forLanes {P : State → Prop} {E : ErrorKind → Prop} {body : Lane → State → Except ErrorKind State}
    (hbody : ∀ l s, P s → Yields P E (body l s)) (ls : List Lane) {s : State} (hs : P s) :
    Yields P E (forLanes body ls s) := by
  induction ls generalizing s with
  | nil => exact hs
  | cons l ls ih => exact (hbody l s hs).bind fun _ => ih

section
variable {E : ErrorKind → Prop}

theorem yields_requireInBounds (hE : E .addressOutOfBounds) (ea : Int) (n : Nat) (s : State) :
    Yields (fun _ => True) E (requireInBounds ea n s) := by
  rw [requireInBounds_eq]
  exact .ite (fun _ => trivial) hE

theorem yields_requireRoom (hE : E .garbageOverflow) (n : Nat) (s : State) :
    Yields (fun _ => True) E (requireRoom n s) := by
  rw [requireRoom_eq]
  exact .ite (fun _ => trivial) hE

theorem yields_requireHeld (hE : E .garbageUnderflow) (n : Nat) (s : State) :
    Yields (fun _ => True) E (requireHeld n s) := by
  rw [requireHeld_eq]
  exact .ite (fun _ => trivial) hE

theorem yields_memRead (hE : E .addressOutOfBounds) (a : Int) (s : State) :
    Yields (fun _ => True) E (memRead a s) := by
  rw [memRead_eq]
  exact .ite (fun _ => trivial) hE

end

/-- A function of the library raises only when it is one whose result may not exist (R130). -/
theorem yields_applyFn {E : ErrorKind → Prop} {f : Fn} (hE : Fn.canFault f = true → E .arithmeticFault) (a b : Word) :
    Yields (fun _ => True) E (applyFn f a b) := by
  cases h : applyFn f a b with
  | ok r => trivial
  | error k =>
    rw [applyFn_error h]
    cases f with
    | div | fadd | fsub | fmul | fdiv => exact hE rfl
    | _ => cases h

/-! ### What a body that runs to its end has written -/

/-- `t` differs from `s` only in what R43 lists as written by opcode `o`, and what a step boundary asks of memory and of
`gsp` still holds. -/
structure Completes (o : Opcode) (s t : State) : Prop where
  x : o.writesX = false → t.x = s.x
  v : o.usesV = false → t.v = s.v
  mem : o.usesMem = false → t.mem = s.mem
  gsp : o.usesGsp = false → t.gsp = s.gsp
  br : o.writesBr = false → t.br = s.br
  dir : o ≠ .rswb → t.dir = s.dir
  pc : t.pc = s.pc
  cfg : t.cfg = s.cfg
  status : t.status = s.status
  canonical : s.mem.wf = true → t.mem.wf = true
  within : s.gsp ≤ s.cfg.gSize → s.mem.within s.cfg.words = true → t.mem.within s.cfg.words = true
  capacity : s.gsp ≤ s.cfg.gSize → t.gsp ≤ s.cfg.gSize

theorem Completes.refl (o : Opcode) (s : State) : Completes o s s where
  x _ := rfl
  v _ := rfl
  mem _ := rfl
  gsp _ := rfl
  br _ := rfl
  dir _ := rfl
  pc := rfl
  cfg := rfl
  status := rfl
  canonical h := h
  within _ h := h
  capacity h := h

theorem slotIndex_lt_words {c : Config} {k : Nat} (h : k < c.gSize) : slotIndex c k < c.words := (slotIndex_bounds h).2

section
variable {o : Opcode} {s t : State} {E : ErrorKind → Prop}

theorem Completes.setX (h : Completes o s t) (ho : o.writesX = true) (r : XReg) (w : Word) :
    Completes o s (t.setX r w) :=
  { h with x := fun hx => absurd ho (by simp [hx]) }

theorem Completes.setLane (h : Completes o s t) (ho : o.usesV = true) (r : VReg) (l : Lane) (w : Word) :
    Completes o s (t.setLane r l w) :=
  { h with v := fun hv => absurd ho (by simp [hv]) }

theorem Completes.setBr (h : Completes o s t) (ho : o.writesBr = true) (w : Word) :
    Completes o s { t with br := w } :=
  { h with br := fun hb => absurd ho (by simp [hb]) }

theorem Completes.setDir (h : Completes .rswb s t) (d : Direction) : Completes .rswb s { t with dir := d } :=
  { h with dir := fun hd => absurd rfl hd }

theorem Completes.writeMem (h : Completes o s t) (ho : o.usesMem = true) {a : Nat}
    (ha : s.gsp ≤ s.cfg.gSize → a < s.cfg.words) (w : Word) : Completes o s { t with mem := t.mem.write a w } :=
  { h with
    mem := fun hm => absurd ho (by simp [hm])
    canonical := fun hs => Memory.write_wf (h.canonical hs) a w
    within := fun hcap hs => Memory.write_within (h.within hcap hs) (ha hcap) }

theorem Completes.setGsp (h : Completes o s t) (ho : o.usesGsp = true) {g : Nat}
    (hg : s.gsp ≤ s.cfg.gSize → g ≤ s.cfg.gSize) : Completes o s { t with gsp := g } :=
  { h with gsp := fun hgsp => absurd ho (by simp [hgsp]), capacity := hg }

theorem Completes.memWrite (h : Completes o s t) (ho : o.usesMem = true) (hE : E .addressOutOfBounds) (a : Int)
    (w : Word) : Yields (Completes o s) E (memWrite a w t) := by
  rw [memWrite_eq]
  refine .ite (fun ha => h.writeMem ho (fun _ => ?_) w) hE
  have := h.cfg ▸ ha.2
  omega

theorem usesMem_of_usesGsp (ho : o.usesGsp = true) : o.usesMem = true := by
  revert ho
  cases o <;> decide

theorem Completes.pushGarbage (h : Completes o s t) (ho : o.usesGsp = true) (hE : E .garbageOverflow) (w : Word) :
    Yields (Completes o s) E (pushGarbage w t) := by
  rw [pushGarbage_eq]
  refine .ite (fun hroom => ?_) hE
  have hslot : slotIndex t.cfg t.gsp < s.cfg.words := h.cfg ▸ slotIndex_lt_words hroom
  exact (h.writeMem (usesMem_of_usesGsp ho) (fun _ => hslot) w).setGsp ho fun _ => h.cfg ▸ hroom

theorem Completes.popGarbage (h : Completes o s t) (ho : o.usesGsp = true) (hE : E .garbageUnderflow) :
    Yields (fun p => Completes o s p.2) E (popGarbage t) := by
  rw [popGarbage_eq]
  refine .ite (fun hheld => ?_) hE
  have hslot (hcap : s.gsp ≤ s.cfg.gSize) : t.gsp - 1 < s.cfg.gSize := by
    have := h.capacity hcap
    omega
  have hindex (hcap : s.gsp ≤ s.cfg.gSize) : slotIndex t.cfg (t.gsp - 1) < s.cfg.words := by
    rw [h.cfg]
    exact slotIndex_lt_words (hslot hcap)
  exact (h.writeMem (usesMem_of_usesGsp ho) hindex 0#32).setGsp ho fun hcap => (hslot hcap).le

end

/-! ### The three ways a body can end -/

/-- `mayRaise` as a set of kinds, for `Yields`. -/
def Raisable (i : Instr) (s : State) (k : ErrorKind) : Prop := mayRaise s.dir i k = true

/-- Everything the body of instruction `i` can answer from `s`. -/
inductive BodyAnswer (i : Instr) (s : State) : Host.Outcome State Fault Refusal → Prop
  | halts (h : i = .halt) : BodyAnswer i s (.next { s with status := .halted })
  | raises (k : ErrorKind) (h : Raisable i s k) : BodyAnswer i s (.next { s with status := .error k })
  | completes (t : State) (h : Completes i.opcode s t) : BodyAnswer i s (.next t)

theorem BodyAnswer.commit {i : Instr} {s : State} {r : Except ErrorKind State}
    (h : Yields (Completes i.opcode s) (Raisable i s) r) : BodyAnswer i s (commit s r) := by
  cases r with
  | ok t => exact .completes t h
  | error k => exact .raises k h

section
variable {i : Instr} {s : State}

theorem raisable_addressOutOfBounds (ho : i.opcode.usesBase = true) : Raisable i s .addressOutOfBounds := ho

theorem raisable_garbageOverflow (ho : i.opcode.usesGsp = true) (hdir : s.dir = .forward) :
    Raisable i s .garbageOverflow := by
  simp [Raisable, mayRaise, ho, hdir]

theorem raisable_garbageUnderflow (ho : i.opcode.usesGsp = true) (hdir : s.dir = .backward) :
    Raisable i s .garbageUnderflow := by
  simp [Raisable, mayRaise, ho, hdir]

theorem raisable_arithmeticFault {f : Fn} (hf : i.function = some f)
    (hfault : Fn.canFault (fnInDirection s.dir f) = true) : Raisable i s .arithmeticFault := by
  simp only [Raisable, mayRaise, hf, hfault]

/-! ### The templates -/

theorem scalarFn_answer {f : Fn} (hf : i.function = some f) (ho : i.opcode.writesX = true) (rd : XReg) (b : Word) :
    BodyAnswer i s (scalarFn f rd b s) :=
  .commit ((yields_applyFn (raisable_arithmeticFault hf) _ b).bind fun r _ => (Completes.refl _ s).setX ho rd r)

theorem vectorFn_answer {f : Fn} (hf : i.function = some f) (ho : i.opcode.usesV = true) (vd : VReg)
    (b : Lane → Word) : BodyAnswer i s (vectorFn f vd b s) :=
  .commit (.forLanes (fun l _ ht => (yields_applyFn (raisable_arithmeticFault hf) _ (b l)).bind
    fun r _ => ht.setLane ho vd l r) lanesUp (.refl _ s))

theorem scalarCswap_answer (ho : i.opcode.writesX = true) (ra rb : XReg) (m : Word) :
    BodyAnswer i s (scalarCswap ra rb m s) :=
  .completes _ (((Completes.refl _ s).setX ho ra _).setX ho rb _)

theorem vectorCswap_answer (ho : i.opcode.usesV = true) (va vb : VReg) (m : Lane → Word) :
    BodyAnswer i s (vectorCswap va vb m s) :=
  .commit (.forLanes (fun l _ ht => (ht.setLane ho va l _).setLane ho vb l _) lanesUp (.refl _ s))

theorem branch_answer (ho : i.opcode.writesBr = true) (c : Bool) (off : Imm16) : BodyAnswer i s (branch c off s) := by
  cases c with
  | true =>
    rw [branch_taken]
    exact .completes _ ((Completes.refl _ s).setBr ho _)
  | false => exact .completes s (.refl _ s)

end

/-! ### The instructions with a body of their own -/

section
variable (s : State)

theorem swapBranchRegister_completes {o : Opcode} (hx : o.writesX = true) (hbr : o.writesBr = true) (rd : XReg) :
    Completes o s (swapBranchRegister rd s) :=
  ((Completes.refl o s).setX hx rd s.br).setBr hbr (s.getX rd)

theorem execSwb_answer (rd : XReg) : BodyAnswer (.swb rd) s (execSwb rd s) :=
  .completes _ (swapBranchRegister_completes s rfl rfl rd)

theorem execRswb_answer (rd : XReg) : BodyAnswer (.rswb rd) s (execRswb rd s) :=
  .completes _ ((swapBranchRegister_completes s (o := .rswb) rfl rfl rd).setDir s.dir.flip)

theorem execExch_answer (rd rs : XReg) : BodyAnswer (.exch rd rs) s (execExch rd rs s) :=
  .completes _ (((Completes.refl _ s).setX rfl rd _).setX rfl rs _)

theorem execVexch_answer (vd vs : VReg) : BodyAnswer (.vexch vd vs) s (execVexch vd vs s) :=
  .commit (.forLanes (fun l _ ht => (ht.setLane rfl vd l _).setLane rfl vs l _) lanesUp (.refl _ s))

theorem execMexch_answer (rd rs : XReg) (off : Imm16) : BodyAnswer (.mexch rd rs off) s (execMexch rd rs off s) :=
  have hout : Raisable (.mexch rd rs off) s .addressOutOfBounds := raisable_addressOutOfBounds rfl
  .commit ((yields_memRead hout _ s).bind fun t _ =>
    ((Completes.refl _ s).memWrite rfl hout _ _).bind fun _ hwrite => hwrite.setX rfl rd t)

theorem execVmexch_answer (vd : VReg) (rs : XReg) (off : Imm16) :
    BodyAnswer (.vmexch vd rs off) s (execVmexch vd rs off s) :=
  have hout : Raisable (.vmexch vd rs off) s .addressOutOfBounds := raisable_addressOutOfBounds rfl
  .commit ((yields_requireInBounds hout _ 32 s).bind fun _ _ =>
    .forLanes (fun l _ ht => (yields_memRead hout _ _).bind fun w _ =>
      (ht.memWrite rfl hout _ _).bind fun _ hwrite => hwrite.setLane rfl vd l w) lanesUp (Completes.refl _ s))

theorem execDel_answer (rd : XReg) : BodyAnswer (.del rd) s (execDel rd s) := by
  rcases s.dir.forward_or_backward with hdir | hdir
  · rw [execDel_forward hdir]
    have hover := raisable_garbageOverflow (i := .del rd) rfl hdir
    exact .commit (((Completes.refl _ s).pushGarbage rfl hover _).bind fun _ hpush => hpush.setX rfl rd _)
  · rw [execDel_backward hdir]
    have hunder := raisable_garbageUnderflow (i := .del rd) rfl hdir
    exact .commit (((Completes.refl _ s).popGarbage rfl hunder).bind fun _ hpop => hpop.setX rfl rd _)

theorem execMdel_answer (rs : XReg) (off : Imm16) : BodyAnswer (.mdel rs off) s (execMdel rs off s) := by
  have hout : Raisable (.mdel rs off) s .addressOutOfBounds := raisable_addressOutOfBounds rfl
  rcases s.dir.forward_or_backward with hdir | hdir
  · rw [execMdel_forward hdir]
    have hover := raisable_garbageOverflow (i := .mdel rs off) rfl hdir
    exact .commit ((yields_requireInBounds hout _ 1 s).bind fun _ _ => (yields_requireRoom hover 1 s).bind fun _ _ =>
      (yields_memRead hout _ s).bind fun t _ => ((Completes.refl _ s).memWrite rfl hout _ _).bind fun _ hwrite =>
        hwrite.pushGarbage rfl hover t)
  · rw [execMdel_backward hdir]
    have hunder := raisable_garbageUnderflow (i := .mdel rs off) rfl hdir
    exact .commit ((yields_requireInBounds hout _ 1 s).bind fun _ _ => (yields_requireHeld hunder 1 s).bind fun _ _ =>
      ((Completes.refl _ s).popGarbage rfl hunder).bind fun _ hpop => hpop.memWrite rfl hout _ _)

theorem execVdel_answer (vd : VReg) : BodyAnswer (.vdel vd) s (execVdel vd s) := by
  rcases s.dir.forward_or_backward with hdir | hdir
  · rw [execVdel_forward hdir]
    have hover := raisable_garbageOverflow (i := .vdel vd) rfl hdir
    exact .commit ((yields_requireRoom hover 32 s).bind fun _ _ =>
      .forLanes (fun l _ ht => (ht.pushGarbage rfl hover _).bind fun _ hpush => hpush.setLane rfl vd l _)
        lanesUp (Completes.refl _ s))
  · rw [execVdel_backward hdir]
    have hunder := raisable_garbageUnderflow (i := .vdel vd) rfl hdir
    exact .commit ((yields_requireHeld hunder 32 s).bind fun _ _ =>
      .forLanes (fun l _ ht => (ht.popGarbage rfl hunder).bind fun _ hpop => hpop.setLane rfl vd l _)
        lanesDown (Completes.refl _ s))

theorem execVmdel_answer (rs : XReg) (off : Imm16) : BodyAnswer (.vmdel rs off) s (execVmdel rs off s) := by
  have hout : Raisable (.vmdel rs off) s .addressOutOfBounds := raisable_addressOutOfBounds rfl
  rcases s.dir.forward_or_backward with hdir | hdir
  · rw [execVmdel_forward hdir]
    have hover := raisable_garbageOverflow (i := .vmdel rs off) rfl hdir
    exact .commit ((yields_requireInBounds hout _ 32 s).bind fun _ _ => (yields_requireRoom hover 32 s).bind fun _ _ =>
      .forLanes (fun l _ ht => (yields_memRead hout _ _).bind fun w _ => (ht.memWrite rfl hout _ _).bind fun _ hwrite =>
        hwrite.pushGarbage rfl hover w) lanesUp (Completes.refl _ s))
  · rw [execVmdel_backward hdir]
    have hunder := raisable_garbageUnderflow (i := .vmdel rs off) rfl hdir
    exact .commit ((yields_requireInBounds hout _ 32 s).bind fun _ _ => (yields_requireHeld hunder 32 s).bind fun _ _ =>
      .forLanes (fun l _ ht => (ht.popGarbage rfl hunder).bind fun _ hpop => hpop.memWrite rfl hout _ _)
        lanesDown (Completes.refl _ s))

end

/-! ### All instructions -/

/-- The body of every instruction, in every state, answers a next state in one of the three ways. -/
theorem exec_answer (i : Instr) (s : State) : BodyAnswer i s (exec i s) := by
  cases i with
  | halt => exact .halts rfl
  | xor | neg | add | sub | mul | div | rr | rl | fadd | fsub | fmul | fdiv => exact scalarFn_answer rfl rfl _ _
  | xori | addi | subi | muli | divi | rri | rli | faddi | fsubi | fmuli | fdivi => exact scalarFn_answer rfl rfl _ _
  | vxor | vneg | vadd | vsub | vmul | vdiv | vrr | vrl | vfadd | vfsub | vfmul | vfdiv =>
    exact vectorFn_answer rfl rfl _ _
  | vxori | vaddi | vsubi | vmuli | vdivi | vrri | vrli | vfaddi | vfsubi | vfmuli | vfdivi =>
    exact vectorFn_answer rfl rfl _ _
  | cswap | cswapi => exact scalarCswap_answer rfl _ _ _
  | vcswap va vb vc => exact vectorCswap_answer rfl va vb (s.getLane vc)
  | vcswapi va vb imm => exact vectorCswap_answer rfl va vb fun _ => sext32 imm
  | blt | bltu | bge | bgeu | beq | bne | bevn | bodd => exact branch_answer rfl _ _
  | swb rd => exact execSwb_answer s rd
  | rswb rd => exact execRswb_answer s rd
  | exch rd rs => exact execExch_answer s rd rs
  | vexch vd vs => exact execVexch_answer s vd vs
  | mexch rd rs off => exact execMexch_answer s rd rs off
  | vmexch vd rs off => exact execVmexch_answer s vd rs off
  | del rd => exact execDel_answer s rd
  | mdel rs off => exact execMdel_answer s rs off
  | vdel vd => exact execVdel_answer s vd
  | vmdel rs off => exact execVmdel_answer s rs off

/-- `exec_answer` for a body whose next state is known. -/
theorem exec_next_cases {i : Instr} {s t : State} (h : exec i s = .next t) :
    (i = .halt ∧ t = { s with status := .halted }) ∨
    (∃ k, mayRaise s.dir i k = true ∧ t = { s with status := .error k }) ∨ Completes i.opcode s t := by
  have hanswer := exec_answer i s
  rw [h] at hanswer
  cases hanswer with
  | halts hi => exact .inl ⟨hi, rfl⟩
  | raises k hk => exact .inr (.inl ⟨k, hk, rfl⟩)
  | completes _ hc => exact .inr (.inr hc)

theorem exec_next (i : Instr) (s : State) : ∃ t, exec i s = .next t := by
  have hanswer := exec_answer i s
  generalize exec i s = answer at hanswer
  cases hanswer with
  | halts | raises | completes => exact ⟨_, rfl⟩

end Sys2Proof.Machine

/-! SUPPORT. What follows from the three ways a body can end: which instructions write which piece of state
(`10_state.md` R43), who raises what and how (`60_exceptions.md` R300, R304), and the invariant of a step boundary. -/

namespace Sys2Proof.Machine

theorem Completes.status_running {o : Opcode} {s t : State} (h : Completes o s t) (hs : s.status = .running) :
    t.status = .running := h.status.trans hs

theorem eq_true_of_not {b : Bool} {p : Prop} (h : b = false → p) (hp : ¬ p) : b = true :=
  Bool.eq_true_of_not_eq_false (mt h hp)

/-- Settles O54: a body that halts or raises changes the status only; one that runs to its end is bounded by R43. -/
theorem onlyTheListedInstructionsWrite : Obligations.OnlyTheListedInstructionsWrite := by
  intro i s t h
  rcases exec_next_cases h with ⟨rfl, rfl⟩ | ⟨k, -, rfl⟩ | hc
  · exact ⟨absurd rfl, absurd rfl, absurd rfl, absurd rfl, absurd rfl, absurd rfl, rfl, rfl, fun _ => .inl ⟨rfl, rfl⟩⟩
  · exact ⟨absurd rfl, absurd rfl, absurd rfl, absurd rfl, absurd rfl, absurd rfl, rfl, rfl, fun _ => .inr ⟨k, rfl⟩⟩
  · exact ⟨eq_true_of_not hc.x, eq_true_of_not hc.v, eq_true_of_not hc.mem, eq_true_of_not hc.gsp,
      eq_true_of_not hc.br, Not.imp_symm hc.dir, hc.pc, hc.cfg, fun hne => absurd hc.status hne⟩

/-! ### The step, by its cause -/

theorem fetchInstr_cases (s : State) :
    (s.cfg.words ≤ s.pc.toNat ∧ fetchInstr s = .error .addressOutOfBounds) ∨
    (s.pc.toNat < s.cfg.words ∧ (∃ e, decode (s.mem.read s.pc.toNat) = .error e) ∧
      fetchInstr s = .error .illegalInstruction) ∨
    (s.pc.toNat < s.cfg.words ∧ ∃ i, decode (s.mem.read s.pc.toNat) = .ok i ∧ fetchInstr s = .ok i) := by
  rcases Nat.lt_or_ge s.pc.toNat s.cfg.words with hin | hout
  · cases hd : decode (s.mem.read s.pc.toNat) with
    | error e => exact .inr (.inl ⟨hin, ⟨e, rfl⟩, fetchInstr_illegal hin hd⟩)
    | ok i => exact .inr (.inr ⟨hin, i, rfl, fetchInstr_ok hin hd⟩)
  · exact .inl ⟨hout, fetchInstr_outside (Nat.not_lt.mpr hout)⟩

theorem step_of_halted {s : State} (hs : s.status = .halted) : step s = .fault .halted := by
  simp only [step, hs]

theorem step_of_error {s : State} {k : ErrorKind} (hs : s.status = .error k) : step s = .fault (.terminated k) := by
  simp only [step, hs]

/-- A machine that has ended takes no step (R288, R306). -/
theorem step_ne_next_of_ended {s : State} (hs : s.status ≠ .running) (t : State) : step s ≠ .next t := by
  cases hst : s.status with
  | running => exact absurd hst hs
  | halted => simp [step_of_halted hst]
  | error k => simp [step_of_error hst]

theorem running_of_step {s t : State} (h : step s = .next t) : s.status = .running :=
  not_not.mp fun hs => step_ne_next_of_ended hs t h

/-- Everything a step that answers can have done (R286): the fetch or the decode raised, or the fetched instruction's
body halted, raised, or ran to its end and the sequencer followed. -/
inductive StepAnswer (s : State) : State → Prop
  | outside (h : s.cfg.words ≤ s.pc.toNat) : StepAnswer s { s with status := .error .addressOutOfBounds }
  | illegal (h : ∃ e, decode (s.mem.read s.pc.toNat) = .error e) :
      StepAnswer s { s with status := .error .illegalInstruction }
  | halts (h : decode (s.mem.read s.pc.toNat) = .ok .halt) : StepAnswer s { s with status := .halted }
  | raises (i : Instr) (k : ErrorKind) (h : decode (s.mem.read s.pc.toNat) = .ok i) (hk : mayRaise s.dir i k = true) :
      StepAnswer s { s with status := .error k }
  | completes (i : Instr) (t : State) (h : decode (s.mem.read s.pc.toNat) = .ok i) (ht : Completes i.opcode s t) :
      StepAnswer s (checkGarbage (advance t))

theorem afterBody_of_running_eq {t : State} (h : t.status = .running) : afterBody t = checkGarbage (advance t) := by
  simp only [afterBody, h]

theorem afterBody_of_ended {t : State} (h : t.status ≠ .running) : afterBody t = t := by
  cases hst : t.status with
  | running => exact absurd hst h
  | halted | error => simp only [afterBody, hst]

theorem step_answer {s : State} (hs : s.status = .running) : ∃ t, step s = .next t ∧ StepAnswer s t := by
  rcases fetchInstr_cases s with ⟨hpc, hf⟩ | ⟨-, hd, hf⟩ | ⟨hpc, i, hd, -⟩
  · exact ⟨_, step_of_fetchInstr_error hs hf, .outside hpc⟩
  · exact ⟨_, step_of_fetchInstr_error hs hf, .illegal hd⟩
  · obtain ⟨t, ht⟩ := exec_next i s
    refine ⟨afterBody t, step_of_fetches ⟨hs, hpc, hd⟩ ht, ?_⟩
    rcases exec_next_cases ht with ⟨rfl, rfl⟩ | ⟨k, hk, rfl⟩ | hc
    · exact .halts hd
    · exact .raises i k hd hk
    · rw [afterBody_of_running_eq (hc.status_running hs)]
      exact .completes i t hd hc

theorem StepAnswer.of_step {s t : State} (h : step s = .next t) : StepAnswer s t := by
  obtain ⟨u, hu, hanswer⟩ := step_answer (running_of_step h)
  obtain rfl : u = t := Host.Outcome.next.inj (hu.symm.trans h)
  exact hanswer

/-- Settles O48: the three ways of a body and the five of a step, and the two faults of a machine that has ended. -/
theorem everyRunningStepAnswers : Obligations.EveryRunningStepAnswers := by
  refine ⟨exec_next, fun s hs => ?step, fun _ => step_of_halted, fun _ _ => step_of_error⟩
  case step =>
    obtain ⟨t, ht, -⟩ := step_answer hs
    exact ⟨t, ht⟩

/-- Settles O47: fetch and decode by their outcomes, and the sequencer after a body that ended or goes on. -/
theorem stepRunsTheDecodedInstruction : Obligations.StepRunsTheDecodedInstruction := by
  refine ⟨fun s => step_of_pc_outside, fun s e hs hpc hd => ?illegal, fun s t i hf hexec hended => ?ended,
    fun s t i hf hexec hrun => ?running⟩
  case illegal => exact step_of_fetchInstr_error hs (fetchInstr_illegal hpc hd)
  case ended => rw [step_of_fetches hf hexec, afterBody_of_ended hended]
  case running =>
    rw [step_of_fetches hf hexec, afterBody_of_running_eq hrun, checkGarbage, advance_eq]
    simp only [ite_not, hrun]
    split <;> rfl

/-! ### Precise errors and who raises them -/

/-- The check after the step raises only above the capacity, which no body leaves (R285, R57). -/
theorem checkGarbage_advance_of_completes {o : Opcode} {s t : State} (h : Completes o s t)
    (hcap : s.gsp ≤ s.cfg.gSize) : checkGarbage (advance t) = advance t := by
  have hle : t.gsp ≤ t.cfg.gSize := h.cfg ▸ h.capacity hcap
  rw [checkGarbage, advance_cfg, advance_gsp, if_neg (Nat.not_lt.mpr hle)]

/-- Settles O49: each way of a step but the last changes the status only, and after the last the machine runs. -/
theorem errorsArePrecise : Obligations.ErrorsArePrecise := by
  intro s t hs hcap hstep hended
  cases StepAnswer.of_step hstep with
  | outside | illegal | raises => exact .inr ⟨_, rfl, rfl, rfl⟩
  | halts hd => exact .inl ⟨hd, rfl⟩
  | completes i u hd hc =>
    rw [checkGarbage_advance_of_completes hc hcap, advance_status] at hended
    exact absurd (hc.status_running hs) hended

theorem init_error {program : List Word} {mb : Nat} {t : State} {k : ErrorKind} (h : init program mb = .next t)
    (hk : t.status = .error k) : k = .programTooLarge ∧ t.cfg.gBase < program.length := by
  cases hc : Config.legal { mb := mb } with
  | false => simp [init, hc] at h
  | true =>
    rcases Nat.lt_or_ge (Config.gBase { mb := mb }) program.length with hlarge | hfits
    · rw [init_tooLarge hc hlarge] at h
      cases h
      cases hk
      exact ⟨rfl, hlarge⟩
    · rw [init_fits hc hfits] at h
      cases h
      cases hk

theorem exec_error {i : Instr} {s t : State} {k : ErrorKind} (hs : s.status = .running) (h : exec i s = .next t)
    (hk : t.status = .error k) : mayRaise s.dir i k = true := by
  rcases exec_next_cases h with ⟨-, rfl⟩ | ⟨j, hj, rfl⟩ | hc
  · cases hk
  · cases hk
    exact hj
  · rw [hc.status_running hs] at hk
    cases hk

/-- Settles O50: the codes by evaluation, then the two ways of Init, the three of a body and the five of a step. -/
theorem errorKindsAndWhoRaisesThem : Obligations.ErrorKindsAndWhoRaisesThem := by
  refine ⟨by decide, fun _ _ _ _ => init_error, fun _ _ _ _ => exec_error, fun s t k hs hcap hstep hk => ?step⟩
  case step =>
    cases StepAnswer.of_step hstep with
    | outside hpc =>
      cases hk
      exact .inl ⟨rfl, hpc⟩
    | illegal hd =>
      cases hk
      exact .inr (.inl ⟨rfl, hd⟩)
    | halts => cases hk
    | raises i j hd hj =>
      cases hk
      exact .inr (.inr ⟨i, hd, hj⟩)
    | completes i u hd hc =>
      rw [checkGarbage_advance_of_completes hc hcap, advance_status, hc.status_running hs] at hk
      cases hk

/-! ### The invariant -/

theorem State.Inv.with_status {s : State} (h : s.Inv) (st : Status) : State.Inv { s with status := st } := h

/-- The step's update clears `br` and touches none of the other pieces of the invariant. -/
theorem inv_advance {t : State} (hlegal : t.cfg.legal = true) (hwf : t.mem.wf = true)
    (hwithin : t.mem.within t.cfg.words = true) (hcap : t.gsp ≤ t.cfg.gSize) : (advance t).Inv := by
  rw [State.Inv, advance_cfg, advance_mem, advance_gsp, advance_br]
  exact ⟨hlegal, hwf, hwithin, hcap, rfl⟩

/-- Settles O51: an error or a halt changes the status only; a body that runs to its end keeps memory and `gsp` as the
invariant asks, and the update clears `br`. -/
theorem invariantKeptByStep : Obligations.InvariantKeptByStep := by
  intro s t hinv hstep
  cases StepAnswer.of_step hstep with
  | outside | illegal | halts | raises => exact hinv.with_status _
  | completes i u hd hc =>
    obtain ⟨hlegal, hwf, hwithin, hcap, -⟩ := hinv
    rw [checkGarbage_advance_of_completes hc hcap]
    refine inv_advance ?_ (hc.canonical hwf) ?_ ?_ <;> rw [hc.cfg]
    · exact hlegal
    · exact hc.within hcap hwithin
    · exact hc.capacity hcap

/-- Settles O52: every part of the invariant is a closed fact about the reset table. -/
theorem resetHasTheInvariant : Obligations.ResetHasTheInvariant := by
  refine ⟨⟨by decide, by decide, by decide, Nat.zero_le _, rfl⟩, rfl, ?init⟩
  case init => exact init_fits (by decide) (Nat.zero_le _)

end Sys2Proof.Machine

/-! SUPPORT. The host's three operations (`47_sequencer.md` R287 to R294, `70_reset_and_hazards.md` R331, R332): what Init
answers, a run that has ended, and what the host reads. -/

namespace Sys2Proof.Machine

/-! ### Init -/

theorem State.reset_getX (r : XReg) : State.reset.getX r = if r = 1 then 0xFFFFFFFF#32 else 0#32 := by
  revert r
  decide

theorem State.reset_getLane (r : VReg) (l : Lane) : State.reset.getLane r l = 0#32 := by
  simp [State.reset, resetV, State.getLane]

theorem init_image_read (program : List Word) (a : Nat) :
    (loadImage program 0 { cells := [] }).read a = program.getD a 0#32 := by
  rw [loadImage_read program 0 a rfl, if_pos (Nat.zero_le a), Nat.sub_zero]
  rfl

/-- A zero word at `pc` is HALT (R253). -/
theorem step_of_zero_word {s : State} (hs : s.status = .running) (hpc : s.pc.toNat < s.cfg.words)
    (hword : s.mem.read s.pc.toNat = 0#32) : step s = .next { s with status := .halted } := by
  have hdecode : decode (s.mem.read s.pc.toNat) = .ok .halt := hword ▸ decode_encode .halt
  exact step_of_fetches ⟨hs, hpc, hdecode⟩ rfl

theorem Config.words_pos_of_legal {c : Config} (h : c.legal = true) : 0 < c.words := by
  have hmb := (c.legal_iff.mp h).1
  rw [Config.words]
  omega

/-- Settles O53: the reset table with the image read word by word; a program that does not fit leaves a machine that has
ended. -/
theorem initLoadsTheProgramOrFails : Obligations.InitLoadsTheProgramOrFails := by
  intro program mb hlegal
  refine ⟨fun hfits => ⟨_, init_fits hlegal hfits, rfl, State.reset_getX, State.reset_getLane, rfl, rfl, rfl, rfl, rfl,
    rfl, rfl, loadImage_wf program 0 rfl, init_image_read program, ?empty⟩,
    fun hlarge => ⟨_, init_tooLarge hlegal hlarge, rfl, rfl, rfl, step_ne_next_of_ended nofun⟩⟩
  case empty =>
    rintro rfl
    exact step_of_zero_word rfl (Config.words_pos_of_legal hlegal) (init_image_read [] 0)

/-! ### Run and ReadOut -/

theorem runFor_of_ended {s : State} (hs : s.status ≠ .running) (n : Nat) : runFor n s = .next s := by
  cases n with
  | zero => rfl
  | succ n =>
    cases hst : s.status with
    | running => exact absurd hst hs
    | halted | error => simp only [runFor, hst]

theorem runFor_succ_of_running {s u : State} (hs : s.status = .running) (hstep : step s = .next u) (n : Nat) :
    runFor (n + 1) s = runFor n u := by
  simp only [runFor, hs, hstep]

/-- More budget changes nothing once the run has ended (R288). -/
theorem runFor_mono {n m : Nat} {s t : State} (hrun : runFor n s = .next t) (ht : t.status ≠ .running) (hnm : n ≤ m) :
    runFor m s = .next t := by
  induction n generalizing m s with
  | zero =>
    cases hrun
    exact runFor_of_ended ht m
  | succ n ih =>
    by_cases hs : s.status = .running
    · obtain ⟨u, hstep, -⟩ := step_answer hs
      obtain ⟨m, rfl⟩ : ∃ k, m = k + 1 := ⟨m - 1, by omega⟩
      rw [runFor_succ_of_running hs hstep] at hrun ⊢
      exact ih hrun (by omega)
    · rw [runFor_of_ended hs] at hrun ⊢
      exact hrun

theorem readOut_of_running {s : State} (hs : s.status = .running) : readOut s = none := by
  simp only [readOut, hs]

theorem readOut_of_ended {t : State} (ht : t.status ≠ .running) :
    readOut t = some {
      stateCode := t.status.stateCode
      causeCode := t.status.causeCode
      mem := if t.status = .error .programTooLarge then none else some t.mem } := by
  cases hst : t.status with
  | running => exact absurd hst ht
  | halted => simp [readOut, hst]
  | error k => cases k <;> simp [readOut, hst]

/-- Settles O59: induction on the smaller budget, and the read-out by the status. -/
theorem endedRunStays : Obligations.EndedRunStays :=
  ⟨fun _ _ _ hrun ht => ⟨fun _ => runFor_mono hrun ht, step_ne_next_of_ended ht, readOut_of_ended ht⟩,
    fun _ => readOut_of_running⟩

end Sys2Proof.Machine

/-! SUPPORT. What an instruction does not use it does not depend on (`10_state.md` R22, R25, R39, R43): a piece of state
that the opcode does not use is put in its place before the body or after it, with the same result. -/

namespace Sys2Proof.Machine

/-! ### Putting a piece of state in its place -/

/-- A value for one of the pieces of state that some instruction bodies do not use. -/
inductive Piece where
  | x (file : Vector Word 32)
  | v (file : Vector (Vector Word 32) 32)
  | mem (memory : Memory)
  | gsp (pointer : Nat)
  | pc (index : Word)

/-- The state with the piece in its place. -/
def State.put (s : State) : Piece → State
  | .x file => { s with x := file }
  | .v file => { s with v := file }
  | .mem memory => { s with mem := memory }
  | .gsp pointer => { s with gsp := pointer }
  | .pc index => { s with pc := index }

/-- The opcode's instructions read or write the piece; no body reads or writes `pc` (R284). -/
def Piece.usedBy (o : Opcode) : Piece → Bool
  | .x _ => o.usesX
  | .v _ => o.usesV
  | .mem _ => o.usesMem
  | .gsp _ => o.usesGsp
  | .pc _ => false

section
variable (s : State) (p : Piece)

@[simp] theorem State.put_cfg : (s.put p).cfg = s.cfg := by cases p <;> rfl
@[simp] theorem State.put_br : (s.put p).br = s.br := by cases p <;> rfl
@[simp] theorem State.put_dir : (s.put p).dir = s.dir := by cases p <;> rfl

theorem State.put_with_status (st : Status) : { s.put p with status := st } = State.put { s with status := st } p := by
  cases p <;> rfl

theorem State.put_with_br (w : Word) : { s.put p with br := w } = State.put { s with br := w } p := by
  cases p <;> rfl

theorem State.put_with_dir (d : Direction) : { s.put p with dir := d } = State.put { s with dir := d } p := by
  cases p <;> rfl

end

section
variable {o : Opcode} {p : Piece} (hp : p.usedBy o = false)
include hp

theorem State.put_getX (ho : o.usesX = true) (s : State) (r : XReg) : (s.put p).getX r = s.getX r := by
  cases p with
  | x => exact absurd hp (by simp [Piece.usedBy, ho])
  | v | mem | gsp | pc => rfl

theorem State.put_setX (ho : o.usesX = true) (s : State) (r : XReg) (w : Word) :
    (s.put p).setX r w = (s.setX r w).put p := by
  cases p with
  | x => exact absurd hp (by simp [Piece.usedBy, ho])
  | v | mem | gsp | pc => rfl

theorem State.put_getLane (ho : o.usesV = true) (s : State) (r : VReg) : (s.put p).getLane r = s.getLane r := by
  cases p with
  | v => exact absurd hp (by simp [Piece.usedBy, ho])
  | x | mem | gsp | pc => rfl

theorem State.put_setLane (ho : o.usesV = true) (s : State) (r : VReg) (l : Lane) (w : Word) :
    (s.put p).setLane r l w = (s.setLane r l w).put p := by
  cases p with
  | v => exact absurd hp (by simp [Piece.usedBy, ho])
  | x | mem | gsp | pc => rfl

theorem State.put_mem (ho : o.usesMem = true) (s : State) : (s.put p).mem = s.mem := by
  cases p with
  | mem => exact absurd hp (by simp [Piece.usedBy, ho])
  | x | v | gsp | pc => rfl

theorem State.put_write (ho : o.usesMem = true) (s : State) (a : Nat) (w : Word) :
    { s.put p with mem := (s.put p).mem.write a w } = State.put { s with mem := s.mem.write a w } p := by
  cases p with
  | mem => exact absurd hp (by simp [Piece.usedBy, ho])
  | x | v | gsp | pc => rfl

theorem State.put_gsp (ho : o.usesGsp = true) (s : State) : (s.put p).gsp = s.gsp := by
  cases p with
  | gsp => exact absurd hp (by simp [Piece.usedBy, ho])
  | x | v | mem | pc => rfl

theorem State.put_afterPush (ho : o.usesGsp = true) (s : State) (w : Word) :
    (s.put p).afterPush w = (s.afterPush w).put p := by
  cases p with
  | mem => exact absurd hp (by simp [Piece.usedBy, usesMem_of_usesGsp ho])
  | gsp => exact absurd hp (by simp [Piece.usedBy, ho])
  | x | v | pc => rfl

theorem State.put_newest_afterPop (ho : o.usesGsp = true) (s : State) :
    ((s.put p).newest, (s.put p).afterPop) = (s.newest, s.afterPop.put p) := by
  cases p with
  | mem => exact absurd hp (by simp [Piece.usedBy, usesMem_of_usesGsp ho])
  | gsp => exact absurd hp (by simp [Piece.usedBy, ho])
  | x | v | pc => rfl

end

/-! ### Computations before and after -/

/-- `r'` raises what `r` raises, and gives the image under `φ` of what `r` gives. -/
def MapsTo {α β : Type} (φ : α → β) (r : Except ErrorKind α) (r' : Except ErrorKind β) : Prop := r' = r.map φ

theorem MapsTo.bind {α β γ δ : Type} {φ : α → β} {ψ : γ → δ} {r : Except ErrorKind α} {r' : Except ErrorKind β}
    {f : α → Except ErrorKind γ} {f' : β → Except ErrorKind δ} (hr : MapsTo φ r r')
    (hf : ∀ a, MapsTo ψ (f a) (f' (φ a))) : MapsTo ψ (r >>= f) (r' >>= f') := by
  rw [MapsTo] at hr
  subst hr
  cases r with
  | ok a => exact hf a
  | error k => rfl

theorem MapsTo.of_eq {α : Type} {r r' : Except ErrorKind α} (h : r' = r) : MapsTo id r r' := by
  subst h
  cases r' <;> rfl

theorem MapsTo.ite {α β : Type} {φ : α → β} {c c' : Prop} [Decidable c] [Decidable c'] {a : α} {b : β} {k : ErrorKind}
    (hc : c' ↔ c) (h : b = φ a) : MapsTo φ (if c then .ok a else .error k) (if c' then .ok b else .error k) := by
  rw [MapsTo, h, if_congr hc rfl rfl]
  split <;> rfl

theorem MapsTo.forLanes {φ : State → State} {body body' : Lane → State → Except ErrorKind State}
    (hbody : ∀ l s, MapsTo φ (body l s) (body' l (φ s))) (ls : List Lane) (s : State) :
    MapsTo φ (forLanes body ls s) (forLanes body' ls (φ s)) := by
  induction ls generalizing s with
  | nil => rfl
  | cons l ls ih => exact (hbody l s).bind ih

/-! ### The primitives -/

section
variable {o : Opcode} {p : Piece}

theorem requireInBounds_put (ea : Int) (n : Nat) (s : State) :
    requireInBounds ea n (s.put p) = requireInBounds ea n s := by
  rw [requireInBounds_eq, requireInBounds_eq, State.put_cfg]

variable (hp : p.usedBy o = false)
include hp

theorem requireRoom_put (ho : o.usesGsp = true) (n : Nat) (s : State) : requireRoom n (s.put p) = requireRoom n s := by
  rw [requireRoom_eq, requireRoom_eq, State.put_cfg, State.put_gsp hp ho]

theorem requireHeld_put (ho : o.usesGsp = true) (n : Nat) (s : State) : requireHeld n (s.put p) = requireHeld n s := by
  rw [requireHeld_eq, requireHeld_eq, State.put_gsp hp ho]

theorem memRead_put (ho : o.usesMem = true) (a : Int) (s : State) : memRead a (s.put p) = memRead a s := by
  rw [memRead_eq, memRead_eq, State.put_cfg, State.put_mem hp ho]

theorem memWrite_put (ho : o.usesMem = true) (a : Int) (w : Word) (s : State) :
    MapsTo (·.put p) (memWrite a w s) (memWrite a w (s.put p)) := by
  rw [memWrite_eq, memWrite_eq]
  exact .ite (by rw [State.put_cfg]) (State.put_write hp ho s _ w)

theorem pushGarbage_put (ho : o.usesGsp = true) (w : Word) (s : State) :
    MapsTo (·.put p) (pushGarbage w s) (pushGarbage w (s.put p)) := by
  rw [pushGarbage_eq, pushGarbage_eq]
  exact .ite (by rw [State.put_gsp hp ho, State.put_cfg]) (State.put_afterPush hp ho s w)

theorem popGarbage_put (ho : o.usesGsp = true) (s : State) :
    MapsTo (Prod.map id (·.put p)) (popGarbage s) (popGarbage (s.put p)) := by
  rw [popGarbage_eq, popGarbage_eq]
  exact .ite (by rw [State.put_gsp hp ho]) (State.put_newest_afterPop hp ho s)

theorem effectiveAddress_put (ho : o.usesX = true) (rs : XReg) (off : Imm16) (s : State) :
    effectiveAddress rs off (s.put p) = effectiveAddress rs off s := by
  rw [effectiveAddress, effectiveAddress, State.put_getX hp ho]

end

/-! ### The bodies -/

/-- The answer with the piece put into its next state. -/
def putNext (p : Piece) (answer : Host.Outcome State Fault Refusal) : Host.Outcome State Fault Refusal :=
  match answer with
  | .next t => .next (t.put p)
  | .fault r => .fault r
  | .refused r => .refused r

theorem commit_put {p : Piece} {s : State} {r r' : Except ErrorKind State} (h : MapsTo (·.put p) r r') :
    commit (s.put p) r' = putNext p (commit s r) := by
  rw [MapsTo] at h
  subst h
  cases r with
  | ok t => rfl
  | error k => exact congrArg _ (s.put_with_status p _)

section
variable {o : Opcode} {p : Piece} (hp : p.usedBy o = false) (s : State)
include hp

theorem scalarFn_put (ho : o.usesX = true) (f : Fn) (rd : XReg) {b b' : Word} (hb : b' = b) :
    scalarFn f rd b' (s.put p) = putNext p (scalarFn f rd b s) := by
  subst hb
  rw [scalarFn, State.put_dir, State.put_getX hp ho]
  exact commit_put ((MapsTo.of_eq rfl).bind fun r => congrArg Except.ok (State.put_setX hp ho s rd r))

theorem scalarCswap_put (ho : o.usesX = true) (ra rb : XReg) {m m' : Word} (hm : m' = m) :
    scalarCswap ra rb m' (s.put p) = putNext p (scalarCswap ra rb m s) := by
  subst hm
  simp only [scalarCswap, State.put_getX hp ho, State.put_setX hp ho, putNext]

theorem vectorFn_put (ho : o.usesV = true) (f : Fn) (vd : VReg) {b b' : Lane → Word} (hb : b' = b) :
    vectorFn f vd b' (s.put p) = putNext p (vectorFn f vd b s) := by
  subst hb
  rw [vectorFn, vectorFn, State.put_dir, State.put_getLane hp ho]
  refine commit_put (.forLanes (fun l t => ?lane) lanesUp s)
  case lane => exact (MapsTo.of_eq rfl).bind fun r => congrArg Except.ok (State.put_setLane hp ho t vd l r)

theorem setLane_setLane_put (ho : o.usesV = true) (q r : VReg) (l : Lane) (u w : Word) (t : State) :
    ((t.put p).setLane q l u).setLane r l w = ((t.setLane q l u).setLane r l w).put p := by
  rw [State.put_setLane hp ho, State.put_setLane hp ho]

theorem vectorCswap_put (ho : o.usesV = true) (va vb : VReg) {m m' : Lane → Word} (hm : m' = m) :
    vectorCswap va vb m' (s.put p) = putNext p (vectorCswap va vb m s) := by
  subst hm
  rw [vectorCswap, vectorCswap, State.put_getLane hp ho, State.put_getLane hp ho]
  refine commit_put (.forLanes (fun l t => ?lane) lanesUp s)
  case lane => exact congrArg Except.ok (setLane_setLane_put hp ho va vb l _ _ t)

theorem execVexch_put (ho : o.usesV = true) (vd vs : VReg) :
    execVexch vd vs (s.put p) = putNext p (execVexch vd vs s) := by
  rw [execVexch, execVexch, State.put_getLane hp ho, State.put_getLane hp ho]
  refine commit_put (.forLanes (fun l t => ?lane) lanesUp s)
  case lane => exact congrArg Except.ok (setLane_setLane_put hp ho vd vs l _ _ t)

theorem execExch_put (ho : o.usesX = true) (rd rs : XReg) :
    execExch rd rs (s.put p) = putNext p (execExch rd rs s) := by
  simp only [execExch, State.put_getX hp ho, State.put_setX hp ho, putNext]

omit hp in
theorem branch_put {c c' : Bool} (hc : c' = c) (off : Imm16) :
    branch c' off (s.put p) = putNext p (branch c off s) := by
  subst hc
  cases c' with
  | false => rfl
  | true =>
    rw [branch_taken, branch_taken, State.put_with_br, State.put_dir, State.put_br]
    rfl

theorem swapBranchRegister_put (ho : o.usesX = true) (rd : XReg) :
    swapBranchRegister rd (s.put p) = (swapBranchRegister rd s).put p := by
  rw [swapBranchRegister, State.put_getX hp ho, State.put_br, State.put_setX hp ho, State.put_with_br]
  rfl

theorem execSwb_put (ho : o.usesX = true) (rd : XReg) : execSwb rd (s.put p) = putNext p (execSwb rd s) :=
  congrArg _ (swapBranchRegister_put hp s ho rd)

theorem execRswb_put (ho : o.usesX = true) (rd : XReg) : execRswb rd (s.put p) = putNext p (execRswb rd s) := by
  rw [execRswb, swapBranchRegister_put hp s ho, State.put_dir, State.put_with_dir]
  rfl

end

section
variable {p : Piece} (s : State)

theorem execMexch_put {rd rs : XReg} {off : Imm16} (hp : p.usedBy .mexch = false) :
    execMexch rd rs off (s.put p) = putNext p (execMexch rd rs off s) := by
  rw [execMexch, effectiveAddress_put hp rfl, State.put_getX hp rfl]
  exact commit_put ((MapsTo.of_eq (memRead_put hp rfl _ s)).bind fun w => (memWrite_put hp rfl _ _ s).bind fun t =>
    congrArg Except.ok (State.put_setX hp rfl t rd w))

theorem execVmexch_put {vd : VReg} {rs : XReg} {off : Imm16} (hp : p.usedBy .vmexch = false) :
    execVmexch vd rs off (s.put p) = putNext p (execVmexch vd rs off s) := by
  rw [execVmexch, effectiveAddress_put hp rfl]
  refine commit_put ((MapsTo.of_eq (requireInBounds_put _ 32 s)).bind fun _ => .forLanes (fun l t => ?lane) lanesUp s)
  case lane =>
    rw [State.put_getLane hp rfl]
    exact (MapsTo.of_eq (memRead_put hp rfl _ t)).bind fun w => (memWrite_put hp rfl _ _ t).bind fun u =>
      congrArg Except.ok (State.put_setLane hp rfl u vd l w)

theorem execDel_put {rd : XReg} (hp : p.usedBy .del = false) :
    execDel rd (s.put p) = putNext p (execDel rd s) := by
  rcases s.dir.forward_or_backward with hdir | hdir
  · rw [execDel_forward hdir, execDel_forward ((s.put_dir p).trans hdir), State.put_getX hp rfl]
    exact commit_put ((pushGarbage_put hp rfl _ s).bind fun t => congrArg Except.ok (State.put_setX hp rfl t rd _))
  · rw [execDel_backward hdir, execDel_backward ((s.put_dir p).trans hdir)]
    exact commit_put ((popGarbage_put hp rfl s).bind fun q => congrArg Except.ok (State.put_setX hp rfl q.2 rd q.1))

theorem execMdel_put {rs : XReg} {off : Imm16} (hp : p.usedBy .mdel = false) :
    execMdel rs off (s.put p) = putNext p (execMdel rs off s) := by
  rcases s.dir.forward_or_backward with hdir | hdir
  · rw [execMdel_forward hdir, execMdel_forward ((s.put_dir p).trans hdir), effectiveAddress_put hp rfl]
    exact commit_put ((MapsTo.of_eq (requireInBounds_put _ 1 s)).bind fun _ =>
      (MapsTo.of_eq (requireRoom_put hp rfl 1 s)).bind fun _ => (MapsTo.of_eq (memRead_put hp rfl _ s)).bind fun w =>
        (memWrite_put hp rfl _ _ s).bind fun t => pushGarbage_put hp rfl w t)
  · rw [execMdel_backward hdir, execMdel_backward ((s.put_dir p).trans hdir), effectiveAddress_put hp rfl]
    exact commit_put ((MapsTo.of_eq (requireInBounds_put _ 1 s)).bind fun _ =>
      (MapsTo.of_eq (requireHeld_put hp rfl 1 s)).bind fun _ => (popGarbage_put hp rfl s).bind fun q =>
        memWrite_put hp rfl _ q.1 q.2)

theorem execVdel_put {vd : VReg} (hp : p.usedBy .vdel = false) :
    execVdel vd (s.put p) = putNext p (execVdel vd s) := by
  rcases s.dir.forward_or_backward with hdir | hdir
  · rw [execVdel_forward hdir, execVdel_forward ((s.put_dir p).trans hdir)]
    refine commit_put ((MapsTo.of_eq (requireRoom_put hp rfl 32 s)).bind fun _ =>
      .forLanes (fun l t => ?lane) lanesUp s)
    case lane =>
      rw [State.put_getLane hp rfl]
      exact (pushGarbage_put hp rfl _ t).bind fun u => congrArg Except.ok (State.put_setLane hp rfl u vd l _)
  · rw [execVdel_backward hdir, execVdel_backward ((s.put_dir p).trans hdir)]
    refine commit_put ((MapsTo.of_eq (requireHeld_put hp rfl 32 s)).bind fun _ =>
      .forLanes (fun l t => ?lane) lanesDown s)
    case lane =>
      exact (popGarbage_put hp rfl t).bind fun q => congrArg Except.ok (State.put_setLane hp rfl q.2 vd l q.1)

theorem execVmdel_put {rs : XReg} {off : Imm16} (hp : p.usedBy .vmdel = false) :
    execVmdel rs off (s.put p) = putNext p (execVmdel rs off s) := by
  rcases s.dir.forward_or_backward with hdir | hdir
  · rw [execVmdel_forward hdir, execVmdel_forward ((s.put_dir p).trans hdir), effectiveAddress_put hp rfl]
    exact commit_put ((MapsTo.of_eq (requireInBounds_put _ 32 s)).bind fun _ =>
      (MapsTo.of_eq (requireRoom_put hp rfl 32 s)).bind fun _ => .forLanes (fun _ t =>
        (MapsTo.of_eq (memRead_put hp rfl _ t)).bind fun w => (memWrite_put hp rfl _ _ t).bind fun u =>
          pushGarbage_put hp rfl w u) lanesUp s)
  · rw [execVmdel_backward hdir, execVmdel_backward ((s.put_dir p).trans hdir), effectiveAddress_put hp rfl]
    exact commit_put ((MapsTo.of_eq (requireInBounds_put _ 32 s)).bind fun _ =>
      (MapsTo.of_eq (requireHeld_put hp rfl 32 s)).bind fun _ => .forLanes (fun _ t =>
        (popGarbage_put hp rfl t).bind fun q => memWrite_put hp rfl _ q.1 q.2) lanesDown s)

end

/-! ### All instructions -/

theorem exec_vcswapi (va vb : VReg) (imm : Imm16) (s : State) :
    exec (.vcswapi va vb imm) s = vectorCswap va vb (fun _ => sext32 imm) s := rfl

/-- Putting in its place a piece that the opcode does not use commutes with the body. -/
theorem exec_put {i : Instr} {p : Piece} (hp : p.usedBy i.opcode = false) (s : State) :
    exec i (s.put p) = putNext p (exec i s) := by
  cases i with
  | halt => exact congrArg _ (s.put_with_status p .halted)
  | xor _ rs | add _ rs | sub _ rs | mul _ rs | div _ rs | rr _ rs | rl _ rs | fadd _ rs | fsub _ rs | fmul _ rs
  | fdiv _ rs => exact scalarFn_put hp s rfl _ _ (State.put_getX hp rfl s rs)
  | neg | xori | addi | subi | muli | divi | rri | rli | faddi | fsubi | fmuli | fdivi =>
    exact scalarFn_put hp s rfl _ _ rfl
  | vxor _ vs | vadd _ vs | vsub _ vs | vmul _ vs | vdiv _ vs | vrr _ vs | vrl _ vs | vfadd _ vs | vfsub _ vs
  | vfmul _ vs | vfdiv _ vs => exact vectorFn_put hp s rfl _ _ (State.put_getLane hp rfl s vs)
  | vneg | vxori | vaddi | vsubi | vmuli | vdivi | vrri | vrli | vfaddi | vfsubi | vfmuli | vfdivi =>
    exact vectorFn_put hp s rfl _ _ rfl
  | cswap ra rb rc => exact scalarCswap_put hp s rfl ra rb (State.put_getX hp rfl s rc)
  | cswapi ra rb imm => exact scalarCswap_put hp s rfl ra rb rfl
  | vcswap va vb vc => exact vectorCswap_put hp s rfl va vb (State.put_getLane hp rfl s vc)
  | vcswapi va vb imm =>
    rw [exec_vcswapi, exec_vcswapi]
    exact vectorCswap_put hp s rfl va vb rfl
  | blt ra rb | bltu ra rb | bge ra rb | bgeu ra rb | beq ra rb | bne ra rb =>
    exact branch_put s (congrArg₂ _ (State.put_getX hp rfl s ra) (State.put_getX hp rfl s rb)) _
  | bevn rd | bodd rd => exact branch_put s (congrArg _ (State.put_getX hp rfl s rd)) _
  | swb rd => exact execSwb_put hp s rfl rd
  | rswb rd => exact execRswb_put hp s rfl rd
  | exch rd rs => exact execExch_put hp s rfl rd rs
  | vexch vd vs => exact execVexch_put hp s rfl vd vs
  | mexch => exact execMexch_put s hp
  | vmexch => exact execVmexch_put s hp
  | del => exact execDel_put s hp
  | mdel => exact execMdel_put s hp
  | vdel => exact execVdel_put s hp
  | vmdel => exact execVmdel_put s hp

theorem exec_put_of_next {i : Instr} {s t : State} (h : exec i s = .next t) {p : Piece}
    (hp : p.usedBy i.opcode = false) : exec i (s.put p) = .next (t.put p) := by
  rw [exec_put hp, h, putNext]

/-- Settles O55: one piece at a time. -/
theorem instructionsDependOnlyOnWhatTheyRead : Obligations.InstructionsDependOnlyOnWhatTheyRead := fun _ _ _ h =>
  ⟨fun hx x => exec_put_of_next h (p := .x x) hx, fun hv v => exec_put_of_next h (p := .v v) hv,
    fun hm m => exec_put_of_next h (p := .mem m) hm, fun hg g => exec_put_of_next h (p := .gsp g) hg,
    fun p => exec_put_of_next h (p := .pc p) rfl⟩

end Sys2Proof.Machine

/-! SUPPORT. The instruction bodies that undo themselves (`41_function_library.md` R150, R151, `44_control.md` R240, R251,
R252, `45_exchange.md` R260): the involutions and exchanges executed twice, the paired functions and the branches
executed in one direction and then in the other. -/

namespace Sys2Proof.Machine

/-! ### Writing a register again -/

theorem State.setX_setX (s : State) (r : XReg) (u w : Word) : (s.setX r u).setX r w = s.setX r w := by
  simp [State.setX]

theorem State.setX_comm {q r : XReg} (h : q ≠ r) (s : State) (u w : Word) :
    (s.setX q u).setX r w = (s.setX r w).setX q u := by
  have hindex : (regIndex q).val ≠ (regIndex r).val := fun e => h (regIndex_inj.mp e)
  simp only [State.setX, Vector.set_comm _ _ hindex]

/-! ### Writing all lanes of a register again -/

/-- The state with every lane of a vector register written. -/
def State.setV (s : State) (r : VReg) (g : Lane → Word) : State :=
  { s with v := s.v.set r.toNat (Vector.ofFn g) r.isLt }

theorem State.getLane_setV (s : State) (r q : VReg) (g : Lane → Word) :
    (s.setV r g).getLane q = if q = r then g else s.getLane q := by
  funext l
  exact (getLane_set_ofFn g r s q l).trans (apply_ite (fun k : Lane → Word => k l) (q = r) g (s.getLane q)).symm

theorem State.getLane_setV_same (s : State) (r : VReg) (g : Lane → Word) : (s.setV r g).getLane r = g := by
  rw [State.getLane_setV, if_pos rfl]

theorem State.getLane_setV_other (s : State) {r q : VReg} (h : q ≠ r) (g : Lane → Word) :
    (s.setV r g).getLane q = s.getLane q := by
  rw [State.getLane_setV, if_neg h]

theorem State.setV_getLane (s : State) (r : VReg) : s.setV r (s.getLane r) = s := by
  rw [State.setV, State.set_ofFn_getLane]

theorem State.setV_setV (s : State) (r : VReg) (g h : Lane → Word) : (s.setV r g).setV r h = s.setV r h := by
  simp [State.setV]

theorem State.setV_comm {q r : VReg} (hne : q ≠ r) (s : State) (g h : Lane → Word) :
    (s.setV q g).setV r h = (s.setV r h).setV q g := by
  have hindex : q.toNat ≠ r.toNat := fun e => hne (BitVec.eq_of_toNat_eq e)
  simp only [State.setV, Vector.set_comm _ _ hindex]

theorem vectorFn_setV {f : Fn} {vd : VReg} {b g : Lane → Word} {s : State}
    (h : ∀ l, applyFn (fnInDirection s.dir f) (s.getLane vd l) (b l) = .ok (g l)) :
    vectorFn f vd b s = .next (s.setV vd g) := vectorFn_ok h

theorem vectorCswap_setV {va vb : VReg} {m y z : Lane → Word} {s : State}
    (h : ∀ l, fnCswap (s.getLane va l) (s.getLane vb l) (m l) = (y l, z l)) :
    vectorCswap va vb m s = .next ((s.setV va y).setV vb z) := vectorCswap_of_eq h

/-! ### Functions of the library -/

/-- What function `f` makes in direction `d` it takes back in direction `e`, with the same second operand, and neither
way faults. -/
def Undone (f : Fn) (d e : Direction) : Prop :=
  ∀ a b : Word, ∃ r, applyFn (fnInDirection d f) a b = .ok r ∧ applyFn (fnInDirection e f) r b = .ok a

theorem undone_xor (d : Direction) : Undone .xor d d := fun a b => by
  cases d <;> exact ⟨fnXor a b, rfl, congrArg Except.ok (fnXor_fnXor a b)⟩

theorem undone_neg (d : Direction) : Undone .neg d d := fun a _ => by
  cases d <;> exact ⟨fnNeg a, rfl, congrArg Except.ok (fnNeg_fnNeg a)⟩

theorem undone_add (d : Direction) : Undone .add d d.flip := fun a b => by
  cases d with
  | forward => exact ⟨fnAdd a b, rfl, congrArg Except.ok (fnSub_fnAdd a b)⟩
  | backward => exact ⟨fnSub a b, rfl, congrArg Except.ok (fnAdd_fnSub a b)⟩

theorem undone_sub (d : Direction) : Undone .sub d d.flip := fun a b => by
  cases d with
  | forward => exact ⟨fnSub a b, rfl, congrArg Except.ok (fnAdd_fnSub a b)⟩
  | backward => exact ⟨fnAdd a b, rfl, congrArg Except.ok (fnSub_fnAdd a b)⟩

theorem undone_rr (d : Direction) : Undone .rr d d.flip := fun a b => by
  cases d with
  | forward => exact ⟨fnRr a b, rfl, congrArg Except.ok (fnRl_fnRr a b)⟩
  | backward => exact ⟨fnRl a b, rfl, congrArg Except.ok (fnRr_fnRl a b)⟩

theorem undone_rl (d : Direction) : Undone .rl d d.flip := fun a b => by
  cases d with
  | forward => exact ⟨fnRl a b, rfl, congrArg Except.ok (fnRr_fnRl a b)⟩
  | backward => exact ⟨fnRr a b, rfl, congrArg Except.ok (fnRl_fnRr a b)⟩

section
variable {f : Fn} {s t : State} {e : Direction}

/-- The second operand of the second execution is that of the first, whether it is a register or not. -/
theorem scalarFn_undo (hf : Undone f s.dir e) {rd : XReg} (b : State → Word) (hd : ∀ u d, b { u with dir := d } = b u)
    (hb : ∀ r, b (s.setX rd r) = b s) (h : scalarFn f rd (b s) s = .next t) :
    scalarFn f rd (b { t with dir := e }) { t with dir := e } = .next { s with dir := e } := by
  obtain ⟨r, hr, hback⟩ := hf (s.getX rd) (b s)
  rw [scalarFn_ok hr] at h
  obtain rfl : s.setX rd r = t := Host.Outcome.next.inj h
  have hread : State.getX { s.setX rd r with dir := e } rd = r := s.getX_setX_same rd r
  have hrestore : (s.setX rd r).setX rd (s.getX rd) = s := by rw [State.setX_setX, State.setX_getX]
  rw [hd, hb, scalarFn_ok (by rw [hread]; exact hback)]
  exact congrArg (fun u : State => Host.Outcome.next { u with dir := e }) hrestore

theorem vectorFn_undo (hf : Undone f s.dir e) {vd : VReg} (b : State → Lane → Word)
    (hd : ∀ u d, b { u with dir := d } = b u) (hb : ∀ g, b (s.setV vd g) = b s)
    (h : vectorFn f vd (b s) s = .next t) :
    vectorFn f vd (b { t with dir := e }) { t with dir := e } = .next { s with dir := e } := by
  choose g hg hback using fun l => hf (s.getLane vd l) (b s l)
  rw [vectorFn_setV hg] at h
  obtain rfl : s.setV vd g = t := Host.Outcome.next.inj h
  have hread : State.getLane { s.setV vd g with dir := e } vd = g := s.getLane_setV_same vd g
  have hrestore : (s.setV vd g).setV vd (s.getLane vd) = s := by rw [State.setV_setV, State.setV_getLane]
  rw [hd, hb, vectorFn_setV (g := s.getLane vd) (by rw [hread]; exact hback)]
  exact congrArg (fun u : State => Host.Outcome.next { u with dir := e }) hrestore

theorem scalarFn_register_undo (hf : Undone f s.dir e) {rd rs : XReg} (hne : rd ≠ rs)
    (h : scalarFn f rd (s.getX rs) s = .next t) :
    scalarFn f rd (State.getX { t with dir := e } rs) { t with dir := e } = .next { s with dir := e } :=
  scalarFn_undo hf (·.getX rs) (fun _ _ => rfl) (fun _ => s.getX_setX_other _ hne.symm) h

theorem scalarFn_constant_undo (hf : Undone f s.dir e) {rd : XReg} {b : Word} (h : scalarFn f rd b s = .next t) :
    scalarFn f rd b { t with dir := e } = .next { s with dir := e } :=
  scalarFn_undo hf (fun _ => b) (fun _ _ => rfl) (fun _ => rfl) h

theorem vectorFn_register_undo (hf : Undone f s.dir e) {vd vs : VReg} (hne : vd ≠ vs)
    (h : vectorFn f vd (s.getLane vs) s = .next t) :
    vectorFn f vd (State.getLane { t with dir := e } vs) { t with dir := e } = .next { s with dir := e } :=
  vectorFn_undo hf (·.getLane vs) (fun _ _ => rfl) (fun g => s.getLane_setV_other hne.symm g) h

theorem vectorFn_constant_undo (hf : Undone f s.dir e) {vd : VReg} {b : Lane → Word}
    (h : vectorFn f vd b s = .next t) : vectorFn f vd b { t with dir := e } = .next { s with dir := e } :=
  vectorFn_undo hf (fun _ => b) (fun _ _ => rfl) (fun _ => rfl) h

end

/-! ### Conditional swaps and exchanges of registers -/

section
variable {s t : State}

/-- With two different registers the second swap reads what the first wrote, under the same mask. -/
theorem scalarCswap_undo {ra rb : XReg} (m : State → Word)
    (hm : ∀ u w, m ((s.setX ra u).setX rb w) = m s) (h : scalarCswap ra rb (m s) s = .next t) :
    scalarCswap ra rb (m t) t = .next s := by
  by_cases hab : ra = rb
  · subst hab
    rw [scalarCswap_same] at h ⊢
    exact h.symm
  · obtain rfl := Host.Outcome.next.inj h
    rw [hm]
    have hra (u w : Word) : ((s.setX ra u).setX rb w).getX ra = u := by
      rw [State.getX_setX_other _ _ hab, State.getX_setX_same]
    rw [scalarCswap_of_eq (y := s.getX ra) (z := s.getX rb)
      (by rw [hra, State.getX_setX_same]; exact fnCswap_fnCswap _ _ _)]
    rw [State.setX_comm (Ne.symm hab), State.setX_setX, State.setX_setX, State.setX_getX, State.setX_getX]

theorem vectorCswap_undo {va vb : VReg} (m : State → Lane → Word)
    (hm : ∀ g h, m ((s.setV va g).setV vb h) = m s) (h : vectorCswap va vb (m s) s = .next t) :
    vectorCswap va vb (m t) t = .next s := by
  by_cases hab : va = vb
  · subst hab
    rw [vectorCswap_same] at h ⊢
    exact h.symm
  · rw [vectorCswap_setV fun _ => rfl] at h
    obtain rfl := Host.Outcome.next.inj h
    rw [hm]
    have hva (g k : Lane → Word) : ((s.setV va g).setV vb k).getLane va = g := by
      rw [State.getLane_setV_other _ hab, State.getLane_setV_same]
    rw [vectorCswap_setV (y := s.getLane va) (z := s.getLane vb)
      fun l => by rw [hva, State.getLane_setV_same]; exact fnCswap_fnCswap _ _ _]
    rw [State.setV_comm (Ne.symm hab), State.setV_setV, State.setV_setV, State.setV_getLane, State.setV_getLane]

/-- An exchange is a conditional swap under the mask of all ones. -/
theorem execExch_undo {rd rs : XReg} (h : execExch rd rs s = .next t) : execExch rd rs t = .next s := by
  rw [execExch, ← scalarCswap_allOnes] at h ⊢
  exact scalarCswap_undo (fun _ => 0xFFFFFFFF#32) (fun _ _ => rfl) h

theorem execVexch_undo {vd vs : VReg} (h : execVexch vd vs s = .next t) : execVexch vd vs t = .next s := by
  rw [← vectorCswap_allOnes] at h ⊢
  exact vectorCswap_undo (fun _ _ => 0xFFFFFFFF#32) (fun _ _ => rfl) h

/-! ### Exchanges with memory -/

theorem Memory.write_write_read {m : Memory} (hm : m.wf = true) (a : Nat) (w : Word) :
    (m.write a w).write a (m.read a) = m := by
  have hw := Memory.write_wf hm a w
  refine Memory.ext_read (Memory.write_wf hw ..) hm fun b => ?_
  rw [Memory.read_write hw, Memory.read_write hm]
  by_cases hb : b = a
  · rw [if_pos hb, hb]
  · rw [if_neg hb, if_neg hb]

/-- The base register is not written, so that the second exchange is at the same address. -/
theorem effectiveAddress_setX {rd rs : XReg} (hne : rs ≠ rd) (off : Imm16) (s : State) (w : Word) :
    effectiveAddress rs off (s.setX rd w) = effectiveAddress rs off s := by
  rw [effectiveAddress, effectiveAddress, State.getX_setX_other _ _ hne]

theorem execMexch_setX {rd rs : XReg} {off : Imm16} (h0 : 0 ≤ effectiveAddress rs off s)
    (hw : effectiveAddress rs off s < s.cfg.words) :
    execMexch rd rs off s = .next { s.setX rd (s.mem.read (effectiveAddress rs off s).toNat) with
      mem := s.mem.write (effectiveAddress rs off s).toNat (s.getX rd) } := execMexch_inside rd h0 hw

theorem execMexch_undo {rd rs : XReg} {off : Imm16} (hne : rd ≠ rs) (hwf : s.mem.wf = true)
    (h : execMexch rd rs off s = .next t) (hrun : t.status = .running) : execMexch rd rs off t = .next s := by
  by_cases hin : 0 ≤ effectiveAddress rs off s ∧ effectiveAddress rs off s < s.cfg.words
  · obtain ⟨h0, hw⟩ := hin
    rw [execMexch_setX h0 hw] at h
    generalize ha : (effectiveAddress rs off s).toNat = a at h
    obtain rfl := Host.Outcome.next.inj h
    have hea : effectiveAddress rs off { s.setX rd (s.mem.read a) with mem := s.mem.write a (s.getX rd) } =
        effectiveAddress rs off s := effectiveAddress_setX hne.symm off s _
    rw [execMexch_setX (by rw [hea]; exact h0) (by rw [hea]; exact hw), hea, ha]
    have hx : (s.setX rd (s.mem.read a)).setX rd ((s.mem.write a (s.getX rd)).read a) = s.setX rd (s.getX rd) := by
      rw [State.setX_setX, Memory.read_write_same hwf]
    have hmem : (s.mem.write a (s.getX rd)).write a ((s.setX rd (s.mem.read a)).getX rd) = s.mem := by
      rw [State.getX_setX_same, Memory.write_write_read hwf]
    rw [State.setX_getX] at hx
    have hfile := congrArg State.x hx
    exact congrArg Host.Outcome.next (State.ext_fields rfl hfile rfl rfl rfl rfl rfl rfl hmem)
  · rw [execMexch_outside rd (by omega)] at h
    cases h
    cases hrun

theorem execVmexch_undo {vd : VReg} {rs : XReg} {off : Imm16} (hwf : s.mem.wf = true)
    (h : execVmexch vd rs off s = .next t) (hrun : t.status = .running) : execVmexch vd rs off t = .next s := by
  by_cases hin : 0 ≤ effectiveAddress rs off s ∧ effectiveAddress rs off s + 31 < s.cfg.words
  · obtain ⟨h0, hw⟩ := hin
    obtain ⟨m, hm, hexec, hblock, hrest⟩ := execVmexch_inside vd hwf h0 hw
    rw [hexec] at h
    obtain rfl := Host.Outcome.next.inj h
    obtain ⟨n, hn, hagain, hblock', hrest'⟩ := execVmexch_inside (rs := rs) (off := off) vd
      (s := { s.setV vd fun l => s.mem.read ((effectiveAddress rs off s).toNat + l.val) with mem := m }) hm h0 hw
    have hlanes := (s.setV_setV vd (fun l => s.mem.read ((effectiveAddress rs off s).toNat + l.val))
      fun l => m.read ((effectiveAddress rs off s).toNat + l.val)).trans (by rw [funext hblock, State.setV_getLane])
    have hfile := congrArg State.v hlanes
    have hmem : n = s.mem := by
      refine Memory.ext_read hn hwf fun a => ?_
      by_cases ha : ∃ l : Lane, a = (effectiveAddress rs off s).toNat + l.val
      · obtain ⟨l, rfl⟩ := ha
        exact (hblock' l).trans (congrFun (s.getLane_setV_same vd _) l)
      · have hout := not_exists.mp ha
        exact (hrest' a hout).trans (hrest a hout)
    exact hagain.trans (congrArg Host.Outcome.next (State.ext_fields rfl rfl hfile rfl rfl rfl rfl rfl hmem))
  · rw [execVmexch_outside vd (by omega)] at h
    cases h
    cases hrun

/-! ### The branch register -/

theorem swapBranchRegister_twice (rd : XReg) (s : State) : swapBranchRegister rd (swapBranchRegister rd s) = s := by
  have hx : (s.setX rd s.br).setX rd (s.getX rd) = s := by rw [State.setX_setX, State.setX_getX]
  have hfile := congrArg State.x hx
  have hbr : (s.setX rd s.br).getX rd = s.br := s.getX_setX_same rd s.br
  exact State.ext_fields rfl hfile rfl rfl hbr rfl rfl rfl rfl

theorem execSwb_undo {rd : XReg} (h : execSwb rd s = .next t) : execSwb rd t = .next s := by
  obtain rfl := Host.Outcome.next.inj h
  exact congrArg Host.Outcome.next (swapBranchRegister_twice rd s)

theorem Direction.flip_flip (d : Direction) : d.flip.flip = d := by
  cases d <;> rfl

theorem execRswb_undo {rd : XReg} (h : execRswb rd s = .next t) : execRswb rd t = .next s := by
  obtain rfl := Host.Outcome.next.inj h
  have hswap := congrArg (fun u : State => Host.Outcome.next (φ := Fault) (ρ := Refusal)
    { u with dir := s.dir.flip.flip }) (swapBranchRegister_twice rd s)
  exact hswap.trans (by rw [Direction.flip_flip])

/-! ### Branches -/

theorem branch_undo {c : Bool} {off : Imm16} (h : branch c off s = .next t) :
    branch c off { t with dir := s.dir.flip } = .next { s with dir := s.dir.flip } := by
  cases c with
  | false =>
    obtain rfl := Host.Outcome.next.inj h
    rfl
  | true =>
    rw [branch_taken] at h
    obtain rfl := Host.Outcome.next.inj h
    rw [branch_taken]
    cases hdir : s.dir <;> simp [Direction.pick, Direction.flip]

theorem branchCase_with_br_dir (i : Instr) (s : State) (w : Word) (d : Direction) :
    branchCase i { s with br := w, dir := d } = branchCase i s := by
  cases i <;> rfl

/-- A branch changes neither the registers that it compares nor its offset. -/
theorem exec_undo_of_branchCase {i : Instr} {off : Imm16} {c : Bool} (hcase : branchCase i s = some (off, c))
    (h : exec i s = .next t) : exec i { t with dir := s.dir.flip } = .next { s with dir := s.dir.flip } := by
  rw [exec_of_branchCase hcase] at h
  have hcase' : branchCase i { t with dir := s.dir.flip } = some (off, c) := by
    rw [branch_eq] at h
    obtain rfl := Host.Outcome.next.inj h
    rw [← hcase]
    split <;> exact branchCase_with_br_dir i s _ _
  rw [exec_of_branchCase hcase']
  exact branch_undo h

end

/-! ### All instructions -/

/-- A body that is undone in its own direction. -/
theorem exec_undo_of_same_dir {i : Instr} {s t : State} (hi : i.opcode ≠ .rswb) (h : exec i s = .next t)
    (hundo : exec i { t with dir := s.dir } = .next { s with dir := s.dir }) : exec i t = .next s := by
  have hdir : t.dir = s.dir := by
    rcases exec_next_cases h with ⟨-, rfl⟩ | ⟨k, -, rfl⟩ | hc
    · rfl
    · rfl
    · exact hc.dir hi
  have ht : { t with dir := s.dir } = t := by rw [← hdir]
  rw [ht] at hundo
  exact hundo

theorem exec_undo_of_selfInverse {i : Instr} {s t : State} (hi : selfInverse i = true) (hwf : s.mem.wf = true)
    (h : exec i s = .next t) (ht : t.status = .running) : exec i t = .next s := by
  cases i with
  | xor rd rs =>
    exact exec_undo_of_same_dir nofun h (scalarFn_register_undo (undone_xor _) (of_decide_eq_true hi) h)
  | vxor vd vs =>
    exact exec_undo_of_same_dir nofun h (vectorFn_register_undo (undone_xor _) (of_decide_eq_true hi) h)
  | xori => exact exec_undo_of_same_dir nofun h (scalarFn_constant_undo (undone_xor _) h)
  | neg => exact exec_undo_of_same_dir nofun h (scalarFn_constant_undo (undone_neg _) h)
  | vxori => exact exec_undo_of_same_dir nofun h (vectorFn_constant_undo (undone_xor _) h)
  | vneg => exact exec_undo_of_same_dir nofun h (vectorFn_constant_undo (undone_neg _) h)
  | cswap ra rb rc =>
    obtain ⟨hca, hcb⟩ := (Bool.and_eq_true _ _).mp hi
    exact scalarCswap_undo (·.getX rc) (fun u w => by
      rw [State.getX_setX_other _ _ (of_decide_eq_true hcb), State.getX_setX_other _ _ (of_decide_eq_true hca)]) h
  | vcswap va vb vc =>
    obtain ⟨hca, hcb⟩ := (Bool.and_eq_true _ _).mp hi
    exact vectorCswap_undo (·.getLane vc) (fun g k => by
      rw [State.getLane_setV_other _ (of_decide_eq_true hcb), State.getLane_setV_other _ (of_decide_eq_true hca)]) h
  | cswapi ra rb imm => exact scalarCswap_undo (fun _ => sext32 imm) (fun _ _ => rfl) h
  | vcswapi va vb imm => exact vectorCswap_undo (fun _ _ => sext32 imm) (fun _ _ => rfl) h
  | exch => exact execExch_undo h
  | vexch => exact execVexch_undo h
  | mexch => exact execMexch_undo (of_decide_eq_true hi) hwf h ht
  | vmexch => exact execVmexch_undo hwf h ht
  | swb => exact execSwb_undo h
  | rswb => exact execRswb_undo h
  | _ => cases hi

theorem exec_undo_of_pairInverse {i : Instr} {s t : State} (hi : pairInverse i = true) (h : exec i s = .next t) :
    exec i { t with dir := s.dir.flip } = .next { s with dir := s.dir.flip } := by
  cases i with
  | add => exact scalarFn_register_undo (undone_add _) (of_decide_eq_true hi) h
  | sub => exact scalarFn_register_undo (undone_sub _) (of_decide_eq_true hi) h
  | rr => exact scalarFn_register_undo (undone_rr _) (of_decide_eq_true hi) h
  | rl => exact scalarFn_register_undo (undone_rl _) (of_decide_eq_true hi) h
  | vadd => exact vectorFn_register_undo (undone_add _) (of_decide_eq_true hi) h
  | vsub => exact vectorFn_register_undo (undone_sub _) (of_decide_eq_true hi) h
  | vrr => exact vectorFn_register_undo (undone_rr _) (of_decide_eq_true hi) h
  | vrl => exact vectorFn_register_undo (undone_rl _) (of_decide_eq_true hi) h
  | addi => exact scalarFn_constant_undo (undone_add _) h
  | subi => exact scalarFn_constant_undo (undone_sub _) h
  | rri => exact scalarFn_constant_undo (undone_rr _) h
  | rli => exact scalarFn_constant_undo (undone_rl _) h
  | vaddi => exact vectorFn_constant_undo (undone_add _) h
  | vsubi => exact vectorFn_constant_undo (undone_sub _) h
  | vrri => exact vectorFn_constant_undo (undone_rr _) h
  | vrli => exact vectorFn_constant_undo (undone_rl _) h
  | blt | bltu | bge | bgeu | beq | bne | bevn | bodd => exact exec_undo_of_branchCase rfl h
  | _ => cases hi

/-- Settles O56: by the instruction, one lemma per template and body. -/
theorem reversibleInstructionsUndo : Obligations.ReversibleInstructionsUndo :=
  ⟨fun _ _ _ hi hwf _ => exec_undo_of_selfInverse hi hwf, fun _ _ _ => exec_undo_of_pairInverse⟩

end Sys2Proof.Machine

/-! SUPPORT. A delete executed forward and then backward (`46_delete.md`, `70_reset_and_hazards.md` R336): the values come
back from slots that were zero before. Where a source is such a slot it is zero too, and the move back restores it as
well, so that only the zero slots are used here. -/

namespace Sys2Proof.Machine

/-! ### Moving words and moving them back -/

theorem moveWord_apply (a b : Nat) (f : Nat → Word) (c : Nat) :
    moveWord a b f c = if c = b then f a else if c = a then 0#32 else f c := by
  simp only [moveWord, Function.update_apply]

/-- A word moved to a cell that held zero, and back, leaves both cells as they were. -/
theorem moveWord_moveWord {a b : Nat} {f : Nat → Word} (hb : f b = 0#32) :
    moveWord b a (moveWord a b f) = f := by
  funext c
  simp only [moveWord_apply, if_true]
  by_cases ha : c = a
  · rw [if_pos ha, ha]
  · by_cases hc : c = b
    · rw [if_neg ha, if_pos hc, hc, hb]
    · rw [if_neg ha, if_neg hc, if_neg hc, if_neg ha]

/-- The moves of the lanes taken back in the opposite order, when every target is its own and was zero. -/
theorem moveLanes_reverse_moveLanes {src dst : Lane → Nat} (hinj : Function.Injective dst) {ls : List Lane}
    (hls : ls.Nodup) {f : Nat → Word} (hf : ∀ l ∈ ls, f (dst l) = 0#32) :
    moveLanes dst src ls.reverse (moveLanes src dst ls f) = f := by
  induction ls generalizing f with
  | nil => rfl
  | cons l ls ih =>
    obtain ⟨hl, hls⟩ := List.nodup_cons.mp hls
    have hlater : ∀ j ∈ ls, moveWord (src l) (dst l) f (dst j) = 0#32 := fun j hj => by
      have hne : dst j ≠ dst l := fun heq => hl (hinj heq ▸ hj)
      rw [moveWord_apply, if_neg hne, hf j (List.mem_cons_of_mem _ hj), ite_self]
    have hback := ih hls hlater
    simp only [moveLanes, List.reverse_cons, List.foldl_append, List.foldl_cons, List.foldl_nil] at hback ⊢
    rw [hback]
    exact moveWord_moveWord (hf l List.mem_cons_self)

/-! ### The four deletes -/

section
variable {s t : State}

theorem execDel_roundTrip {rd : XReg} (hwf : s.mem.wf = true) (hdir : s.dir = .forward)
    (hzero : s.mem.read (slotIndex s.cfg s.gsp) = 0#32) (h : execDel rd s = .next t) (hrun : t.status = .running) :
    execDel rd { t with dir := .backward } = .next { s with dir := .backward } := by
  rcases Nat.lt_or_ge s.gsp s.cfg.gSize with hroom | hfull
  · rw [execDel_push rd hdir hroom] at h
    obtain rfl := Host.Outcome.next.inj h
    have hnewest : ((s.afterPush (s.getX rd)).setX rd 0#32).newest = s.getX rd := Memory.read_write_same hwf _ _
    have hx : (s.setX rd 0#32).setX rd (s.getX rd) = s := by rw [State.setX_setX, State.setX_getX]
    have hfile := congrArg State.x (hnewest.symm ▸ hx)
    have hmem := Memory.write_write_read hwf (slotIndex s.cfg s.gsp) (s.getX rd)
    rw [hzero] at hmem
    refine (execDel_pop rd rfl (Nat.succ_pos s.gsp)).trans ?_
    exact congrArg Host.Outcome.next (State.ext_fields rfl hfile rfl rfl rfl rfl rfl rfl hmem)
  · rw [execDel_full rd hdir hfull] at h
    cases h
    cases hrun

theorem execMdel_roundTrip {rs : XReg} {off : Imm16} (hwf : s.mem.wf = true) (hdir : s.dir = .forward)
    (hzero : s.mem.read (slotIndex s.cfg s.gsp) = 0#32) (h : execMdel rs off s = .next t) (hrun : t.status = .running) :
    execMdel rs off { t with dir := .backward } = .next { s with dir := .backward } := by
  by_cases hin : 0 ≤ effectiveAddress rs off s ∧ effectiveAddress rs off s < s.cfg.words
  · obtain ⟨h0, hw⟩ := hin
    rcases Nat.lt_or_ge s.gsp s.cfg.gSize with hroom | hfull
    · rw [execMdel_push h0 hw hdir hroom] at h
      obtain rfl := Host.Outcome.next.inj h
      refine (execMdel_pop (s := { s with
        mem := (s.mem.write (effectiveAddress rs off s).toNat 0#32).write (slotIndex s.cfg s.gsp)
          (s.mem.read (effectiveAddress rs off s).toNat)
        gsp := s.gsp + 1, dir := .backward }) h0 hw rfl (Nat.succ_pos s.gsp)).trans ?_
      refine congrArg Host.Outcome.next (State.ext_fields rfl rfl rfl rfl rfl rfl rfl rfl ?memory)
      case memory =>
        have hpushed := Memory.write_wf (Memory.write_wf hwf (effectiveAddress rs off s).toNat 0#32)
          (slotIndex s.cfg s.gsp) (s.mem.read (effectiveAddress rs off s).toNat)
        refine Memory.ext_read (Memory.write_wf (Memory.write_wf hpushed ..) ..) hwf (congrFun ?_)
        refine (moveWord_write hpushed _ _).trans ?_
        rw [moveWord_write hwf]
        exact moveWord_moveWord hzero
    · rw [execMdel_full h0 hw hdir hfull] at h
      cases h
      cases hrun
  · rw [execMdel_outside (by omega)] at h
    cases h
    cases hrun

/-- The slots of a block are different cells. -/
theorem slotIndex_add_injective {c : Config} {g : Nat} (h : g + 32 ≤ c.gSize) :
    Function.Injective fun l : Lane => slotIndex c (g + l.val) := fun j k heq => by
  have hj : g + j.val < c.gSize := by omega
  have hk : g + k.val < c.gSize := by omega
  exact Fin.ext (Nat.add_left_cancel (slotIndex_inj hj hk heq))

theorem execVdel_roundTrip {vd : VReg} (hwf : s.mem.wf = true) (hdir : s.dir = .forward)
    (hzero : ∀ l : Lane, s.mem.read (slotIndex s.cfg (s.gsp + l.val)) = 0#32) (h : execVdel vd s = .next t)
    (hrun : t.status = .running) :
    execVdel vd { t with dir := .backward } = .next { s with dir := .backward } := by
  rcases Nat.lt_or_ge s.cfg.gSize (s.gsp + 32) with hfull | hroom
  · rw [execVdel_full vd hdir hfull] at h
    cases h
    cases hrun
  · obtain ⟨m, hm, hexec, hblock, hrest⟩ := execVdel_push vd hwf hdir hroom
    rw [hexec] at h
    obtain rfl := Host.Outcome.next.inj h
    obtain ⟨n, hn, hback, hcleared, hkept⟩ := execVdel_pop (s := { s with
      v := s.v.set vd.toNat (Vector.replicate 32 0#32) vd.isLt, mem := m, gsp := s.gsp + 32, dir := .backward })
      vd hm hroom rfl (Nat.le_add_left 32 s.gsp)
    simp only [Nat.add_sub_cancel] at hback hcleared hkept
    have hfile : (s.v.set vd.toNat (Vector.replicate 32 0#32) vd.isLt).set vd.toNat
        (Vector.ofFn fun l : Lane => m.read (slotIndex s.cfg (s.gsp + l.val))) vd.isLt = s.v := by
      rw [funext hblock, Vector.set_set, State.set_ofFn_getLane]
    have hmem : n = s.mem := by
      refine Memory.ext_read hn hwf fun a => ?_
      by_cases ha : ∃ l : Lane, a = slotIndex s.cfg (s.gsp + l.val)
      · obtain ⟨l, rfl⟩ := ha
        rw [hcleared l, hzero l]
      · have hout := not_exists.mp ha
        rw [hkept a hout, hrest a hout]
    refine hback.trans ?_
    rw [hfile, hmem]

theorem execVmdel_roundTrip {rs : XReg} {off : Imm16} (hwf : s.mem.wf = true) (hdir : s.dir = .forward)
    (hzero : ∀ l : Lane, s.mem.read (slotIndex s.cfg (s.gsp + l.val)) = 0#32) (h : execVmdel rs off s = .next t)
    (hrun : t.status = .running) :
    execVmdel rs off { t with dir := .backward } = .next { s with dir := .backward } := by
  by_cases hin : 0 ≤ effectiveAddress rs off s ∧ effectiveAddress rs off s + 31 < s.cfg.words
  · obtain ⟨h0, hw⟩ := hin
    rcases Nat.lt_or_ge s.cfg.gSize (s.gsp + 32) with hfull | hroom
    · rw [execVmdel_full h0 hw hdir hfull] at h
      cases h
      cases hrun
    · obtain ⟨m, hm, hexec, hpushed⟩ := execVmdel_push hwf h0 hw hdir hroom
      rw [hexec] at h
      obtain rfl := Host.Outcome.next.inj h
      obtain ⟨n, hn, hback, hpopped⟩ := execVmdel_pop (rs := rs) (off := off)
        (s := { s with mem := m, gsp := s.gsp + 32, dir := .backward }) hm h0 hw rfl (Nat.le_add_left 32 s.gsp)
      have hmem : n = s.mem := by
        refine Memory.ext_read hn hwf (congrFun (hpopped.trans ?_))
        simp only [Nat.add_sub_cancel]
        rw [hpushed]
        exact moveLanes_reverse_moveLanes (slotIndex_add_injective hroom) nodup_lanesUp fun l _ => hzero l
      refine hback.trans ?_
      rw [hmem]
      rfl
  · rw [execVmdel_outside (by omega)] at h
    cases h
    cases hrun

end

/-- Settles O57: by the instruction; each delete's checks pass in both directions, or it raised. -/
theorem deletesRoundTrip : Obligations.DeletesRoundTrip := by
  intro i s t hi hwf hdir _ _ hzero h hrun
  cases i with
  | del => exact execDel_roundTrip hwf hdir (hzero 0 Nat.one_pos) h hrun
  | mdel => exact execMdel_roundTrip hwf hdir (hzero 0 Nat.one_pos) h hrun
  | vdel => exact execVdel_roundTrip hwf hdir (fun l => hzero l.val l.isLt) h hrun
  | vmdel => exact execVmdel_roundTrip hwf hdir (fun l => hzero l.val l.isLt) h hrun
  | _ => cases hi

end Sys2Proof.Machine
